-- ==== Sys2Proof/Word.lean ====
section
/-! DEFINITION. The words of BRE64: 64-bit values, data register numbers, factor sets (rules R7, R8, R21, R35). -/

namespace Sys2Proof

/-- A 64-bit unsigned value: a residue, an operand, a data register, a host access (rule R6 `XLEN`, rule R7 `U64`). -/
abbrev Word := BitVec 64

/-- A data register number, `R0` to `R7` (rule R21). -/
abbrev Reg := Fin 8

/-- A host register index, `0x00` to `0x3F` (rule R50). -/
abbrev Index := BitVec 6

/-- The FACTOR port's answer: a finite set of pairs (prime factor, multiplicity), as a list whose order
nothing depends on (rule R35, rule R180). -/
abbrev FactorSet := List (Word × Nat)

/-- The five cause codes of rule R201, by name. -/
inductive FatalCode where
  | ctxRange | illegalCmd | noCtx | searchRange | divZero
deriving DecidableEq, Repr

end Sys2Proof
end

