-- ==== Sys2Proof/Syntax.lean ====
section
/-! DEFINITION. The 21 commands of BRE64 (rule R74), their formats (rule R72), the raw fields of a value written
to `CMD` (rule R71), and the assembler's pseudo-instructions (rule R78). -/

namespace Sys2Proof

/-- The Barrett variant: the `V` bit of `CTXINIT`, 0 = A, 1 = B (rule R71, rule R94). -/
inductive Variant where
  | a | b
deriving DecidableEq, Repr

/-- One constructor per row of the opcode map (rule R74), operands in the assembler's order (rule R77). -/
inductive Instr where
  /-- `CTXINIT rs1, v` (rule R90) -/
  | ctxinit (rs1 : Reg) (v : Variant)
  /-- `NEG rd, rs1` (rule R101) -/
  | neg (rd rs1 : Reg)
  /-- `ADD rd, rs1, rs2` (rule R103) -/
  | add (rd rs1 rs2 : Reg)
  /-- `SUB rd, rs1, rs2` (rule R105) -/
  | sub (rd rs1 rs2 : Reg)
  /-- `MUL rd, rs1, rs2` (rule R126) -/
  | mul (rd rs1 rs2 : Reg)
  /-- `SQR rd, rs1` (rule R128) -/
  | sqr (rd rs1 : Reg)
  /-- `POW rd, rs1, rs2` (rule R141) -/
  | pow (rd rs1 rs2 : Reg)
  /-- `INV rd, rs1` (rule R145) -/
  | inv (rd rs1 : Reg)
  /-- `NEG.IP rs1` (rule R102) -/
  | negIp (rs1 : Reg)
  /-- `ADD.IP rs1, rs2` (rule R104) -/
  | addIp (rs1 rs2 : Reg)
  /-- `SUB.IP rs1, rs2` (rule R106) -/
  | subIp (rs1 rs2 : Reg)
  /-- `MUL.IP rs1, rs2` (rule R127) -/
  | mulIp (rs1 rs2 : Reg)
  /-- `SQR.IP rs1` (rule R129) -/
  | sqrIp (rs1 : Reg)
  /-- `POW.IP rs1, rs2` (rule R142) -/
  | powIp (rs1 rs2 : Reg)
  /-- `INV.IP rs1` (rule R148) -/
  | invIp (rs1 : Reg)
  /-- `FFPU rd, rs1, rs2` (rule R164) -/
  | ffpu (rd rs1 rs2 : Reg)
  /-- `FNPU rd, rs1, rs2` (rule R165) -/
  | fnpu (rd rs1 rs2 : Reg)
  /-- `FFPD rd, rs1, rs2` (rule R166) -/
  | ffpd (rd rs1 rs2 : Reg)
  /-- `FNPD rd, rs1, rs2` (rule R167) -/
  | fnpd (rd rs1 rs2 : Reg)
  /-- `FPR rd` (rule R182) -/
  | fpr (rd : Reg)
  /-- `FGEN rd, rs1` (rule R183) -/
  | fgen (rd rs1 : Reg)
deriving DecidableEq, Repr

/-- The six formats of rule R72. -/
inductive Format where
  | r3 | r2 | r1 | i2 | i1 | c
deriving DecidableEq, Repr

/-- The fields of a 64-bit value written to `CMD` (rule R71): the command word's and the upper half. -/
structure Fields where
  op  : BitVec 8
  rd  : BitVec 3
  rs1 : BitVec 3
  rs2 : BitVec 3
  v   : BitVec 1
  z   : BitVec 14
  hi  : BitVec 32
deriving DecidableEq, Repr

/-- Why a written value is an illegal command (rule R75, in the rule's order). -/
inductive Illegal where
  /-- `w[63:32] != 0` -/
  | upperHalf
  /-- `w[31:18] != 0` -/
  | reservedBits
  /-- `OP` is not one of the 21 codes -/
  | unknownOp
  /-- a field the format does not use is nonzero -/
  | unusedField
deriving DecidableEq, Repr

/-- The assembler's pseudo-instructions (rule R78). -/
inductive Pseudo where
  /-- `CTXINIT.A rs1` -/
  | ctxinitA (rs1 : Reg)
  /-- `CTXINIT.B rs1` -/
  | ctxinitB (rs1 : Reg)
  /-- `CTXINIT rs1`, the `V` operand omitted -/
  | ctxinitPlain (rs1 : Reg)
deriving DecidableEq, Repr

end Sys2Proof
end

