-- ==== Sys2Proof/WellFormed.lean ====
section
/-! DEFINITION. What a well-formed value written to `CMD` is, check by check (rules R72, R75), what a well-formed
answer of the FACTOR port is (rule R35), and that an `Instr` carries nothing to check: every register number
0..7 is legal in every field a format uses (rule R71). -/

namespace Sys2Proof

/-- The format of each of the 21 operation codes; `none` for every other code (rule R74). -/
def formatOfOp (op : BitVec 8) : Option Format :=
  match op.toNat with
  | 0x10 => some .c
  | 0x20 | 0x24 | 0x26 | 0x49 => some .r2
  | 0x21 | 0x22 | 0x23 | 0x25 | 0x40 | 0x41 | 0x42 | 0x43 => some .r3
  | 0x30 | 0x34 | 0x36 => some .i1
  | 0x31 | 0x32 | 0x33 | 0x35 => some .i2
  | 0x48 => some .r1
  | _ => none

/-- Check: bits `[63:32]` are zero (rule R75). -/
def Fields.upperHalfZero (f : Fields) : Bool := f.hi == 0

/-- Check: the field `Z`, bits `[31:18]`, is zero (rule R75). -/
def Fields.reservedZero (f : Fields) : Bool := f.z == 0

/-- Check: `OP` is one of the 21 codes (rule R75). -/
def Fields.opKnown (f : Fields) : Bool := (formatOfOp f.op).isSome

/-- Check: every field the format does not use is zero (rule R72, rule R75): `RS2` in R2, R1, I1, C; `RS1` in R1;
`RD` in I2, I1, C; `V` in every format but C. -/
def Fields.unusedZero (f : Fields) : Bool :=
  match formatOfOp f.op with
  | some .r3 => f.v == 0
  | some .r2 => f.v == 0 && f.rs2 == 0
  | some .r1 => f.v == 0 && f.rs2 == 0 && f.rs1 == 0
  | some .i2 => f.v == 0 && f.rd == 0
  | some .i1 => f.v == 0 && f.rs2 == 0 && f.rd == 0
  | some .c  => f.rs2 == 0 && f.rd == 0
  | none => true

/-- The first check of rule R75 that fails, by name; `none` for a legal command. -/
def Fields.illegal? (f : Fields) : Option Illegal :=
  if !f.upperHalfZero then some .upperHalf
  else if !f.reservedZero then some .reservedBits
  else if !f.opKnown then some .unknownOp
  else if !f.unusedZero then some .unusedField
  else none

/-- A value written to `CMD` is a legal command iff no check of rule R75 fails. -/
def Fields.wellFormed (f : Fields) : Bool := f.illegal?.isNone

/-- A well-formed answer of the FACTOR port: every multiplicity is between 1 and 63 (rule R35). -/
def factorSetWellFormed (fs : FactorSet) : Bool := fs.all fun pe => 1 ≤ pe.2 && pe.2 ≤ 63

end Sys2Proof
end

