-- ==== Sys2Proof/Decode.lean ====
section
/-! DEFINITION. The decoder of rule R79 over the opcode map of rule R74, and after it the encoder, the
mnemonics and the assembler's expansions (rules R70 to R79). -/

namespace Sys2Proof

/-- The fields of a value written to `CMD` (rule R71). -/
def Fields.ofWord (w : Word) : Fields where
  op  := w.extractLsb' 0 8
  rd  := w.extractLsb' 8 3
  rs1 := w.extractLsb' 11 3
  rs2 := w.extractLsb' 14 3
  v   := w.extractLsb' 17 1
  z   := w.extractLsb' 18 14
  hi  := w.extractLsb' 32 32

/-- The value with the given fields: the layout of rule R72. -/
def Fields.toWord (f : Fields) : Word :=
  f.hi ++ f.z ++ f.v ++ f.rs2 ++ f.rs1 ++ f.rd ++ f.op

/-- A register field selects `R0`..`R7` directly (rule R71). -/
def regOf (b : BitVec 3) : Reg := b.toFin

/-- The `V` bit: 0 = A, 1 = B (rule R71). -/
def variantOf (b : BitVec 1) : Variant := if b == 0 then .a else .b

/-- A register number as a field. -/
def regBits (r : Reg) : BitVec 3 := BitVec.ofFin r

/-- The variant as the `V` bit. -/
def variantBit : Variant → BitVec 1
  | .a => 0
  | .b => 1

/-- One row of the opcode map (rule R74): a value `w` selects it iff `w & mask = pattern`. -/
structure Row where
  pattern : Word
  mask    : Word
  build   : Fields → Instr

/-- A value selects a row (rule R74). -/
def Row.selects (r : Row) (w : Word) : Bool := w &&& r.mask == r.pattern

/-- The opcode map, masks and matches as rule R74 prints them: construction and the value forms. -/
def valueRows : List Row := [
  ⟨0x0000000000000010#64, 0xFFFFFFFFFFFDC7FF#64, fun f => .ctxinit (regOf f.rs1) (variantOf f.v)⟩,
  ⟨0x0000000000000020#64, 0xFFFFFFFFFFFFC0FF#64, fun f => .neg (regOf f.rd) (regOf f.rs1)⟩,
  ⟨0x0000000000000021#64, 0xFFFFFFFFFFFE00FF#64, fun f => .add (regOf f.rd) (regOf f.rs1) (regOf f.rs2)⟩,
  ⟨0x0000000000000022#64, 0xFFFFFFFFFFFE00FF#64, fun f => .sub (regOf f.rd) (regOf f.rs1) (regOf f.rs2)⟩,
  ⟨0x0000000000000023#64, 0xFFFFFFFFFFFE00FF#64, fun f => .mul (regOf f.rd) (regOf f.rs1) (regOf f.rs2)⟩,
  ⟨0x0000000000000024#64, 0xFFFFFFFFFFFFC0FF#64, fun f => .sqr (regOf f.rd) (regOf f.rs1)⟩,
  ⟨0x0000000000000025#64, 0xFFFFFFFFFFFE00FF#64, fun f => .pow (regOf f.rd) (regOf f.rs1) (regOf f.rs2)⟩,
  ⟨0x0000000000000026#64, 0xFFFFFFFFFFFFC0FF#64, fun f => .inv (regOf f.rd) (regOf f.rs1)⟩]

/-- The opcode map: the in-place twins (rule R74, rule R82). -/
def inPlaceRows : List Row := [
  ⟨0x0000000000000030#64, 0xFFFFFFFFFFFFC7FF#64, fun f => .negIp (regOf f.rs1)⟩,
  ⟨0x0000000000000031#64, 0xFFFFFFFFFFFE07FF#64, fun f => .addIp (regOf f.rs1) (regOf f.rs2)⟩,
  ⟨0x0000000000000032#64, 0xFFFFFFFFFFFE07FF#64, fun f => .subIp (regOf f.rs1) (regOf f.rs2)⟩,
  ⟨0x0000000000000033#64, 0xFFFFFFFFFFFE07FF#64, fun f => .mulIp (regOf f.rs1) (regOf f.rs2)⟩,
  ⟨0x0000000000000034#64, 0xFFFFFFFFFFFFC7FF#64, fun f => .sqrIp (regOf f.rs1)⟩,
  ⟨0x0000000000000035#64, 0xFFFFFFFFFFFE07FF#64, fun f => .powIp (regOf f.rs1) (regOf f.rs2)⟩,
  ⟨0x0000000000000036#64, 0xFFFFFFFFFFFFC7FF#64, fun f => .invIp (regOf f.rs1)⟩]

/-- The opcode map: the searches (rule R74). -/
def searchRows : List Row := [
  ⟨0x0000000000000040#64, 0xFFFFFFFFFFFE00FF#64, fun f => .ffpu (regOf f.rd) (regOf f.rs1) (regOf f.rs2)⟩,
  ⟨0x0000000000000041#64, 0xFFFFFFFFFFFE00FF#64, fun f => .fnpu (regOf f.rd) (regOf f.rs1) (regOf f.rs2)⟩,
  ⟨0x0000000000000042#64, 0xFFFFFFFFFFFE00FF#64, fun f => .ffpd (regOf f.rd) (regOf f.rs1) (regOf f.rs2)⟩,
  ⟨0x0000000000000043#64, 0xFFFFFFFFFFFE00FF#64, fun f => .fnpd (regOf f.rd) (regOf f.rs1) (regOf f.rs2)⟩,
  ⟨0x0000000000000048#64, 0xFFFFFFFFFFFFF8FF#64, fun f => .fpr (regOf f.rd)⟩,
  ⟨0x0000000000000049#64, 0xFFFFFFFFFFFFC0FF#64, fun f => .fgen (regOf f.rd) (regOf f.rs1)⟩]

/-- The whole opcode map, 21 rows (rule R74). -/
def opcodeMap : List Row := valueRows ++ inPlaceRows ++ searchRows

/-- The decoder of rule R79, total on every 64-bit value; a value that selects no row is refused with the
first check of rule R75 that it fails. -/
def decode (w : Word) : Except Illegal Instr :=
  match opcodeMap.find? (·.selects w) with
  | some row => .ok (row.build (Fields.ofWord w))
  | none => .error ((Fields.ofWord w).illegal?.getD .unknownOp)

/-- The operation code of each command (rule R74). -/
def Instr.op : Instr → BitVec 8
  | .ctxinit .. => 0x10
  | .neg .. => 0x20
  | .add .. => 0x21
  | .sub .. => 0x22
  | .mul .. => 0x23
  | .sqr .. => 0x24
  | .pow .. => 0x25
  | .inv .. => 0x26
  | .negIp .. => 0x30
  | .addIp .. => 0x31
  | .subIp .. => 0x32
  | .mulIp .. => 0x33
  | .sqrIp .. => 0x34
  | .powIp .. => 0x35
  | .invIp .. => 0x36
  | .ffpu .. => 0x40
  | .fnpu .. => 0x41
  | .ffpd .. => 0x42
  | .fnpd .. => 0x43
  | .fpr .. => 0x48
  | .fgen .. => 0x49

/-- The fields of format R3 (rule R72). -/
def fieldsR3 (op : BitVec 8) (rd rs1 rs2 : Reg) : Fields :=
  ⟨op, regBits rd, regBits rs1, regBits rs2, 0, 0, 0⟩

/-- The fields of format R2 (rule R72). -/
def fieldsR2 (op : BitVec 8) (rd rs1 : Reg) : Fields :=
  ⟨op, regBits rd, regBits rs1, 0, 0, 0, 0⟩

/-- The fields of format R1 (rule R72). -/
def fieldsR1 (op : BitVec 8) (rd : Reg) : Fields :=
  ⟨op, regBits rd, 0, 0, 0, 0, 0⟩

/-- The fields of format I2 (rule R72). -/
def fieldsI2 (op : BitVec 8) (rs1 rs2 : Reg) : Fields :=
  ⟨op, 0, regBits rs1, regBits rs2, 0, 0, 0⟩

/-- The fields of format I1 (rule R72). -/
def fieldsI1 (op : BitVec 8) (rs1 : Reg) : Fields :=
  ⟨op, 0, regBits rs1, 0, 0, 0, 0⟩

/-- The fields of format C (rule R72). -/
def fieldsC (op : BitVec 8) (rs1 : Reg) (v : Variant) : Fields :=
  ⟨op, 0, regBits rs1, 0, variantBit v, 0, 0⟩

/-- The fields of a command, format by format (rule R72, rule R74). -/
def Instr.fields (i : Instr) : Fields :=
  match i with
  | .ctxinit rs1 v => fieldsC i.op rs1 v
  | .neg rd rs1 | .sqr rd rs1 | .inv rd rs1 | .fgen rd rs1 => fieldsR2 i.op rd rs1
  | .add rd rs1 rs2 | .sub rd rs1 rs2 | .mul rd rs1 rs2 | .pow rd rs1 rs2
  | .ffpu rd rs1 rs2 | .fnpu rd rs1 rs2 | .ffpd rd rs1 rs2 | .fnpd rd rs1 rs2 => fieldsR3 i.op rd rs1 rs2
  | .negIp rs1 | .sqrIp rs1 | .invIp rs1 => fieldsI1 i.op rs1
  | .addIp rs1 rs2 | .subIp rs1 rs2 | .mulIp rs1 rs2 | .powIp rs1 rs2 => fieldsI2 i.op rs1 rs2
  | .fpr rd => fieldsR1 i.op rd

/-- The encoder: the one 64-bit value that is the command (rule R70). -/
def encode (i : Instr) : Word := i.fields.toWord

/-- The command is well-formed: its encoding passes every check of rule R75. -/
def Instr.wellFormed (i : Instr) : Bool := i.fields.wellFormed

/-- Which commands need a context (`CTX.V = 1`): every one but `CTXINIT` and the prime searches (rule R74). -/
def Instr.needsContext : Instr → Bool
  | .ctxinit .. | .ffpu .. | .fnpu .. | .ffpd .. | .fnpd .. => false
  | .neg .. | .add .. | .sub .. | .mul .. | .sqr .. | .pow .. | .inv .. => true
  | .negIp .. | .addIp .. | .subIp .. | .mulIp .. | .sqrIp .. | .powIp .. | .invIp .. => true
  | .fpr .. | .fgen .. => true

/-- The assembler's mnemonics (rule R12, rule R77). -/
def Instr.mnemonic : Instr → String
  | .ctxinit .. => "CTXINIT"
  | .neg .. => "NEG"
  | .add .. => "ADD"
  | .sub .. => "SUB"
  | .mul .. => "MUL"
  | .sqr .. => "SQR"
  | .pow .. => "POW"
  | .inv .. => "INV"
  | .negIp .. => "NEG.IP"
  | .addIp .. => "ADD.IP"
  | .subIp .. => "SUB.IP"
  | .mulIp .. => "MUL.IP"
  | .sqrIp .. => "SQR.IP"
  | .powIp .. => "POW.IP"
  | .invIp .. => "INV.IP"
  | .ffpu .. => "FFPU"
  | .fnpu .. => "FNPU"
  | .ffpd .. => "FFPD"
  | .fnpd .. => "FNPD"
  | .fpr .. => "FPR"
  | .fgen .. => "FGEN"

/-- Each pseudo-instruction expands to exactly one command (rule R78). -/
def Pseudo.expand : Pseudo → Instr
  | .ctxinitA rs1 => .ctxinit rs1 .a
  | .ctxinitB rs1 => .ctxinit rs1 .b
  | .ctxinitPlain rs1 => .ctxinit rs1 .a

/-- The value the host writes for an instruction whose `nbits` table bits are `w`, every higher bit 0. -/
def tableWord (nbits w : Nat) : Word := BitVec.ofNat 64 (w % 2 ^ nbits)

/-- The instruction the decoder reads from a table row's bits. -/
def decodeTableWord (nbits w : Nat) : Option Instr := (decode (tableWord nbits w)).toOption

end Sys2Proof
end

