-- ==== Sys2Proof/Config.lean ====
section
/-! DEFINITION. What is fixed for one machine, and the values the spec leaves open (rules R6, R10, R31, R32). -/

namespace Sys2Proof

/-- The model parameter `NCORR`: how many conditional subtractions follow the Barrett quotient estimate
(rule R6, rule R124). -/
inductive Ncorr where
  | one | two
deriving DecidableEq, Repr

/-- BRE64 has `NCORR = 2` (rule R124, conflict C1, decision D8). -/
def Config.ncorr : Ncorr := .two

/-- The free 64-bit values: `freeWord k` is the `k`-th one the machine takes. It has no body, so nothing is
provable of it: it stands for `UNSPEC64` (rule R10) and for the unspecified content of the hidden registers
(rules R31, R32, R204). Log 5, log 7; safe. -/
opaque Config.freeWord : Nat → Word

/-- The free content of `FSET` (rule R32: "unspecified" between commands). Log 7; safe. -/
opaque Config.freeFactorSet : Nat → FactorSet

end Sys2Proof
end

