-- ==== Sys2Proof/Machine/State.lean ====
section
/-! DEFINITION. The state of BRE64 (rule R20), its reset value (rule R37), and the reasons a step can stop. -/

namespace Sys2Proof.Machine

/-- A request on a collaborator port (rule R34, rule R35). -/
inductive Request where
  /-- PRIME port: is `x` prime? -/
  | prime (x : Word)
  /-- FACTOR port: factor `m` -/
  | factor (m : Word)
deriving DecidableEq, Repr

/-- The engine state `ES` (rule R22). In `RUN` it also says which collaborator request is outstanding, if any
(rules R34, R35, R37): there is at most one, and none outside `RUN`. -/
inductive EngineState where
  /-- no command in progress; writes accepted -/
  | idle
  /-- one command in progress, perhaps waiting for a collaborator's answer -/
  | run (request : Option Request)
  /-- a fatal fault happened; nothing is accepted until reset -/
  | halted
deriving DecidableEq, Repr

/-- The Modulus Context (rule R23). -/
structure Context where
  q     : BitVec 63
  logq  : BitVec 7
  mu    : BitVec 65
  var   : Variant
  valid : Bool
deriving DecidableEq, Repr

/-- The exponentiation unit's hidden registers (rule R31). -/
structure PowUnit where
  acc  : Word
  base : Word
  exp  : Word
deriving DecidableEq, Repr

/-- The search controller's hidden registers (rule R32). -/
structure SearchUnit where
  cand : Word
  step : Word
  root : Word
  phi  : Word
  gexp : Word
  fset : FactorSet
deriving DecidableEq, Repr

/-- What the host and the collaborators can do to the block (rule R13), and the engine's turn to work (rule R81:
a command completes "some finite time later"). Log 1. -/
inductive Event where
  /-- `HostWrite(idx, v)` (rule R53); to `CMD` it issues a command and leaves the engine in `RUN` -/
  | write (idx : Index) (v : Word)
  /-- `HostWrite(0x00, v)`, the host doing nothing more before the engine has run the command (rule R81's merged form) -/
  | command (v : Word)
  /-- `HostRead(idx)` (rule R52) -/
  | read (idx : Index)
  /-- the reset input (rule R230) -/
  | reset
  /-- the engine works on a command it has not begun, to its end or to its first request -/
  | engine
  /-- the PRIME port's answer (rule R34) -/
  | primeAnswer (b : Bool)
  /-- the FACTOR port's answer (rule R35) -/
  | factorAnswer (fs : FactorSet)
deriving DecidableEq, Repr

/-- The whole state: rule R20's, and four fields of the model's own (`draws`, `inputs`, `reads`, `requests`). -/
structure State where
  /-- `R0`..`R7` (rule R21) -/
  regs : Vector Word 8
  /-- `ES` (rule R22) -/
  es : EngineState
  /-- `CTX` (rule R23) -/
  ctx : Context
  /-- `CMD` (rule R25) -/
  cmd : Word
  /-- `STATUS.DONE` (rule R26) -/
  done : Bool
  /-- `STATUS.OVR` (rule R26) -/
  ovr : Bool
  /-- `CAUSE.CODE` (rule R27) -/
  cause : BitVec 8
  /-- `FCMD` (rule R28) -/
  fcmd : Word
  /-- `ACC`, `BASE`, `EXP` (rule R31) -/
  pow : PowUnit
  /-- `CAND`, `STEP`, `ROOT`, `PHI`, `GEXP`, `FSET` (rule R32) -/
  search : SearchUnit
  /-- the model's own: how many free values have been taken (log 5) -/
  draws : Nat
  /-- the model's own: the timeline, what happens to the block from now on, in order (log 1) -/
  inputs : List Event
  /-- the model's own: the values the host's reads returned, newest first (log 13) -/
  reads : List Word
  /-- the model's own: the collaborator requests sent, newest first (log 13) -/
  requests : List Request
deriving DecidableEq, Repr

/-- Reasons a step of the model stops. The hardware's fatal faults (rule R200) are not among them: they are next
states, `HALTED`. -/
inductive Fault where
  /-- `ES = RUN` while `CMD` holds no command: rule R22 says exactly one command is in progress then, so no state a
  run reaches raises it. Raised by the engine's turn. Safe (log 12). -/
  | runWithoutCommand
deriving DecidableEq, Repr

/-- Reasons a step is refused. -/
inductive Refusal where
  /-- An instruction without a meaning. No arm of `exec` answers it. Safe. -/
  | notModelled (mnemonic : String)
deriving DecidableEq, Repr

/-- No context (rule R24: "When `CTX.V = 0` (after reset) all fields are 0"). -/
def Context.none : Context := ⟨0, 0, 0, .a, false⟩

/-- The machine right after reset (rule R37, rule R231). Hidden registers: 0, the model's choice (log 6). -/
def State.reset : State where
  regs := Vector.replicate 8 0
  es := .idle
  ctx := Context.none
  cmd := 0
  done := false
  ovr := false
  cause := 0
  fcmd := 0
  pow := ⟨0, 0, 0⟩
  search := ⟨0, 0, 0, 0, 0, []⟩
  draws := 0
  inputs := []
  reads := []
  requests := []

/-- What one step, or one instruction, answers. -/
abbrev Result := Host.Outcome State Fault Refusal

end Sys2Proof.Machine
end

