-- ==== Sys2Proof/Machine/Ops.lean ====
section
/-! DEFINITION. The named operations over registers, the free values, the fatal fault (rule R204) and normal
completion (rule R81), sending a collaborator request (rules R34, R35). -/

namespace Sys2Proof.Machine

/-- `x[r]` (rule R9). -/
def State.x (s : State) (r : Reg) : Word := s.regs[r.val]

/-- `x[r] <- v` (rule R9). -/
def State.setX (s : State) (r : Reg) (v : Word) : State := { s with regs := s.regs.set r.val v }

/-- `CTX.Q`, `CTX.LOGQ`, `CTX.MU` as natural numbers (rule R7, rule R9). -/
def Context.qNat (c : Context) : Nat := c.q.toNat

def Context.logqNat (c : Context) : Nat := c.logq.toNat

def Context.muNat (c : Context) : Nat := c.mu.toNat

/-- `bitlen(v)`: 0 for 0, else the `k` with `2^(k-1) <= v < 2^k` (rule R7). -/
def bitlen (v : Nat) : Nat := if v = 0 then 0 else Nat.log2 v + 1

/-- The cause codes of rule R201. -/
def causeCode : FatalCode → BitVec 8
  | .ctxRange => 1
  | .illegalCmd => 2
  | .noCtx => 3
  | .searchRange => 4
  | .divZero => 5

/-- The hidden registers' content becomes unspecified: nine free values (rules R31, R32, R204). Log 7. -/
def State.releaseHidden (s : State) : State :=
  { s with
    pow := ⟨Config.freeWord s.draws, Config.freeWord (s.draws + 1), Config.freeWord (s.draws + 2)⟩
    search := ⟨Config.freeWord (s.draws + 3), Config.freeWord (s.draws + 4), Config.freeWord (s.draws + 5),
      Config.freeWord (s.draws + 6), Config.freeWord (s.draws + 7), Config.freeFactorSet s.draws⟩
    draws := s.draws + 8 }

/-- TAKING THE EXCEPTION: `raise Fatal(code)` (rule R204). `ES <- HALTED`, `CAUSE.CODE <- code`, `FCMD <- CMD`;
an outstanding request is abandoned with `RUN`; `DONE` stays as it is; no data register, context field, `OVR` or
`CMD` changes; the hidden registers become unspecified. There is no return from it: only the reset input leaves
`HALTED` (rule R205, rule R206). -/
def State.fatal (s : State) (code : FatalCode) : State :=
  { s.releaseHidden with es := .halted, cause := causeCode code, fcmd := s.cmd }

/-- Normal completion (rule R81): `ES <- IDLE`, `STATUS.DONE <- 1`; the hidden registers become unspecified. -/
def State.complete (s : State) : State :=
  { s.releaseHidden with es := .idle, done := true }

/-- The value a result rule gives, or a fresh free value where it gives `UNSPEC64` (rule R10). Log 5. -/
def State.resolve (s : State) : Option Word → Word
  | some v => v
  | none => Config.freeWord s.draws

/-- After a result: one free value more has been taken where it was `UNSPEC64`. -/
def State.resolved (s : State) : Option Word → State
  | some _ => s
  | none => { s with draws := s.draws + 1 }

/-- Write the one destination register and complete (rule R21, rule R81); `none` is `UNSPEC64`. -/
def State.finish (s : State) (rd : Reg) (result : Option Word) : State :=
  ((s.resolved result).setX rd (s.resolve result)).complete

/-- Send a request on a collaborator port and wait (rule R34, rule R35). -/
def State.ask (s : State) (r : Request) : State :=
  { s with es := .run (some r), requests := r :: s.requests }

/-- The check of the issue step: a command that needs a context raises `NO_CTX` without one (rule R81). -/
def State.withContext (s : State) (body : State → State) : State :=
  if s.ctx.valid then body s else s.fatal .noCtx

end Sys2Proof.Machine
end

