-- ==== Sys2Proof/Machine/Operands.lean ====
section
/-! DEFINITION. The operand forms of the arithmetic commands (rule R72, rule R73, rule R82). Every operand is a
whole data register, read before the destination is written (rule R81). -/

namespace Sys2Proof.Machine

/-- Format R3, `op rd, rs1, rs2`: `x[RD] <- f(x[RS1], x[RS2])` under the context. -/
def binary (f : Context → Word → Word → Option Word) (rd rs1 rs2 : Reg) (s : State) : Result :=
  .next (s.withContext fun s => s.finish rd (f s.ctx (s.x rs1) (s.x rs2)))

/-- Format R2, `op rd, rs1`: `x[RD] <- f(x[RS1])` under the context. -/
def unary (f : Context → Word → Option Word) (rd rs1 : Reg) (s : State) : Result :=
  .next (s.withContext fun s => s.finish rd (f s.ctx (s.x rs1)))

/-- Format I2, `op rs1, rs2`, the in-place twin: `x[RS1] <- f(x[RS1], x[RS2])` (rule R82). -/
def binaryInPlace (f : Context → Word → Word → Option Word) (rs1 rs2 : Reg) (s : State) : Result :=
  .next (s.withContext fun s => s.finish rs1 (f s.ctx (s.x rs1) (s.x rs2)))

/-- Format I1, `op rs1`, the in-place twin: `x[RS1] <- f(x[RS1])` (rule R82). -/
def unaryInPlace (f : Context → Word → Option Word) (rs1 : Reg) (s : State) : Result :=
  .next (s.withContext fun s => s.finish rs1 (f s.ctx (s.x rs1)))

end Sys2Proof.Machine
end

