-- ==== Sys2Proof/Machine/Additive.lean ====
section
/-! DEFINITION. `NEG`, `ADD`, `SUB` and their in-place twins (rules R100 to R108). `none` is `UNSPEC64`. -/

namespace Sys2Proof.Machine

/-- `NEGF(Q, a) = trunc64(Q + 2^64 - a)` (rule R101): defined for every `a`; `NEG` of 0 is `Q`. -/
def negf (c : Context) (a : Word) : Option Word :=
  some (BitVec.ofNat 64 ((c.qNat + 2 ^ 64 - a.toNat) % 2 ^ 64))

/-- `ADDF` (rule R103): one subtraction of `Q` when the sum is at least `Q`; `UNSPEC64` when the sum leaves 64 bits. -/
def addf (c : Context) (a b : Word) : Option Word :=
  let sum := a.toNat + b.toNat
  if 2 ^ 64 ≤ sum then none
  else if c.qNat ≤ sum then some (BitVec.ofNat 64 (sum - c.qNat))
  else some (BitVec.ofNat 64 sum)

/-- `SUBF` (rule R105): `a - b`, or `(Q + a) - b` when `a < b`; `UNSPEC64` when `Q + a` leaves 64 bits or is below `b`. -/
def subf (c : Context) (a b : Word) : Option Word :=
  if b.toNat ≤ a.toNat then some (BitVec.ofNat 64 (a.toNat - b.toNat))
  else if 2 ^ 64 ≤ c.qNat + a.toNat ∨ c.qNat + a.toNat < b.toNat then none
  else some (BitVec.ofNat 64 (c.qNat + a.toNat - b.toNat))

/-- `NEG rd, rs1` (rule R101). -/
def execNeg (rd rs1 : Reg) (s : State) : Result := unary negf rd rs1 s

/-- `NEG.IP rs1` (rule R102). -/
def execNegIp (rs1 : Reg) (s : State) : Result := unaryInPlace negf rs1 s

/-- `ADD rd, rs1, rs2` (rule R103). -/
def execAdd (rd rs1 rs2 : Reg) (s : State) : Result := binary addf rd rs1 rs2 s

/-- `ADD.IP rs1, rs2` (rule R104). -/
def execAddIp (rs1 rs2 : Reg) (s : State) : Result := binaryInPlace addf rs1 rs2 s

/-- `SUB rd, rs1, rs2` (rule R105). -/
def execSub (rd rs1 rs2 : Reg) (s : State) : Result := binary subf rd rs1 rs2 s

/-- `SUB.IP rs1, rs2` (rule R106). -/
def execSubIp (rs1 rs2 : Reg) (s : State) : Result := binaryInPlace subf rs1 rs2 s

end Sys2Proof.Machine
end

