-- ==== Sys2Proof/Machine/Barrett.lean ====
section
/-! DEFINITION. Barrett reduction, `MUL`, `SQR` and their in-place twins (rules R120 to R131). Exact natural-number
arithmetic, narrowed to 64 bits at the end; `none` is `UNSPEC64`. -/

namespace Sys2Proof.Machine

/-- The shifts `(s1, s2)` of a variant (rule R121): A `(k-2, k+2)`, B `(k-1, k+1)`. -/
def shifts (k : Nat) : Variant → Nat × Nat
  | .a => (k - 2, k + 2)
  | .b => (k - 1, k + 1)

/-- The quotient estimate `t2` (rule R120). -/
def quotientEstimate (c : Context) (p : Nat) : Nat :=
  let s1s2 := shifts c.logqNat c.var
  ((p >>> s1s2.1) * c.muNat) >>> s1s2.2

/-- The remainder candidate `r0 = p - t2 * Q` (rule R120). It is never negative on a well-formed context and
`p < Q^2` (rule R122); on a context no `CTXINIT` builds, a negative difference is cut to 0 (log 17). -/
def remainderCandidate (c : Context) (p : Nat) : Nat := p - quotientEstimate c p * c.qNat

/-- One conditional subtraction of `Q` (rule R124). -/
def condSub (q r : Nat) : Nat := if q ≤ r then r - q else r

/-- `CORRECT` (rule R124): two conditional subtractions of the 65-bit candidate, or, with `NCORR = 1`, one of the
candidate truncated to 64 bits. -/
def correct (nc : Ncorr) (q r0 : Nat) : Nat :=
  match nc with
  | .two => condSub q (condSub q r0)
  | .one => condSub q (r0 % 2 ^ 64)

/-- `BARRETT` (rule R120). -/
def barrett (nc : Ncorr) (c : Context) (p : Nat) : Nat := correct nc c.qNat (remainderCandidate c p)

/-- `MULF` for a given `NCORR` (rule R126): `UNSPEC64` when an operand is not a residue. -/
def mulfWith (nc : Ncorr) (c : Context) (a b : Word) : Option Word :=
  if c.qNat ≤ a.toNat ∨ c.qNat ≤ b.toNat then none
  else some (BitVec.ofNat 64 (barrett nc c (a.toNat * b.toNat)))

/-- `MULF` of BRE64 (rule R126). -/
def mulf (c : Context) (a b : Word) : Option Word := mulfWith Config.ncorr c a b

/-- `SQRF(CTX, a) = MULF(CTX, a, a)` (rule R128). -/
def sqrf (c : Context) (a : Word) : Option Word := mulf c a a

/-- `MUL rd, rs1, rs2` (rule R126). -/
def execMul (rd rs1 rs2 : Reg) (s : State) : Result := binary mulf rd rs1 rs2 s

/-- `MUL.IP rs1, rs2` (rule R127). -/
def execMulIp (rs1 rs2 : Reg) (s : State) : Result := binaryInPlace mulf rs1 rs2 s

/-- `SQR rd, rs1` (rule R128). -/
def execSqr (rd rs1 : Reg) (s : State) : Result := unary sqrf rd rs1 s

/-- `SQR.IP rs1` (rule R129). -/
def execSqrIp (rs1 : Reg) (s : State) : Result := unaryInPlace sqrf rs1 s

end Sys2Proof.Machine
end

