-- ==== Sys2Proof/Machine/Exponent.lean ====
section
/-! DEFINITION. Exponentiation and Fermat inversion: `POW`, `INV` and their in-place twins (rules R140 to R148). -/

namespace Sys2Proof.Machine

/-- One iteration of rule R140's loop: the conditional multiply with the base not yet squared, the squaring, the
shift. `none`: a factor was not a residue, so the product is `UNSPEC64`, and every value made from it (log 11). -/
def powStep (c : Context) (u : PowUnit) : Option PowUnit :=
  match (if u.exp.toNat % 2 = 1 then mulf c u.acc u.base else some u.acc), sqrf c u.base with
  | some acc, some base => some ⟨acc, base, u.exp >>> 1⟩
  | _, _ => none

/-- The loop `while EXP != 0` (rule R140), at most `fuel` iterations; 64 always suffice. -/
def powLoop (c : Context) : Nat → PowUnit → Option PowUnit
  | 0, u => some u
  | n + 1, u => if u.exp = 0 then some u else (powStep c u).bind (powLoop c n)

/-- `POWF(CTX, a, e)` (rule R140): `ACC <- 1; BASE <- a; EXP <- e`, the loop, `ACC`. -/
def powf (c : Context) (a e : Word) : Option Word := (powLoop c 64 ⟨1, a, e⟩).map (·.acc)

/-- `INVF(CTX, a) = POWF(CTX, a, Q - 2)` (rule R144). -/
def invf (c : Context) (a : Word) : Option Word := powf c a (BitVec.ofNat 64 (c.qNat - 2))

/-- `POW rd, rs1, rs2` (rule R141). -/
def execPow (rd rs1 rs2 : Reg) (s : State) : Result := binary powf rd rs1 rs2 s

/-- `POW.IP rs1, rs2` (rule R142). -/
def execPowIp (rs1 rs2 : Reg) (s : State) : Result := binaryInPlace powf rs1 rs2 s

/-- `INV rd, rs1` (rule R145). -/
def execInv (rd rs1 : Reg) (s : State) : Result := unary invf rd rs1 s

/-- `INV.IP rs1` (rule R148). -/
def execInvIp (rs1 : Reg) (s : State) : Result := unaryInPlace invf rs1 s

end Sys2Proof.Machine
end

