-- ==== Sys2Proof/Machine/GeneratorSearch.lean ====
section
/-! DEFINITION. The primitive-root and generator searches `FPR` and `FGEN` (rules R180 to R186). -/

namespace Sys2Proof.Machine

/-- The acceptance test of rule R180: for every prime `p` of `FSET`, `POWF(CTX, ROOT, PHI div p)` is not 1. The
multiplicities are not used. -/
def accepts (c : Context) (u : SearchUnit) : Bool :=
  u.fset.all fun pe => decide (powf c u.root (BitVec.ofNat 64 (u.phi.toNat / pe.1.toNat)) ≠ some 1)

/-- The candidate loop of rule R180, at most `fuel` candidates; `Q + 1` always suffice, since `ROOT` reaching `Q` ends it. -/
def rootLoop (c : Context) : Nat → SearchUnit → Except FatalCode SearchUnit
  | 0, _ => .error .searchRange
  | n + 1, u =>
    if u.fset.isEmpty then .ok u
    else if c.qNat ≤ u.root.toNat then .error .searchRange
    else if accepts c u then .ok u
    else rootLoop c n { u with root := u.root + 1 }

/-- `FPRF` after the FACTOR port's answer (rule R180): a zero prime raises `DIV_ZERO`; then `ROOT <- 2` and the loop. -/
def primitiveRoot (c : Context) (u : SearchUnit) : Except FatalCode SearchUnit :=
  if u.fset.any (fun pe => pe.1 = 0) then .error .divZero
  else rootLoop c (c.qNat + 1) { u with root := 2 }

/-- `PHI <- Q - 1` (rule R180). -/
def State.loadPhi (s : State) : State :=
  { s with search := { s.search with phi := BitVec.ofNat 64 (s.ctx.qNat - 1) } }

/-- The primitive-root function and what the command does with its result (rule R180), from the point where
`factor(PHI)` has been asked: with the answer if it comes next on the timeline; else the engine waits (rule R35). -/
def awaitFactor (onRoot : State → SearchUnit → State) (s : State) : State :=
  match s.inputs with
  | .factorAnswer fs :: rest =>
    match primitiveRoot s.ctx { s.search with fset := fs } with
    | .error code => { s with inputs := rest }.fatal code
    | .ok u => onRoot { s with inputs := rest, search := u } u
  | _ => s

/-- A generator search: begun (the command's own operand check first, then one `factor` request), or resumed where
it waits for the answer. -/
def generatorSearch (check : Except FatalCode Unit) (onRoot : State → SearchUnit → State) (s : State) : State :=
  match s.es with
  | .run (some _) => awaitFactor onRoot s
  | _ =>
    match check with
    | .error code => s.fatal code
    | .ok () => awaitFactor onRoot (s.loadPhi.ask (.factor (BitVec.ofNat 64 (s.ctx.qNat - 1))))

/-- `FPR rd` (rule R182): `x[RD] <- FPRF(CTX)`. -/
def execFpr (rd : Reg) (s : State) : Result :=
  .next (s.withContext (generatorSearch (.ok ()) fun s u => s.finish rd (some u.root)))

/-- The operand checks of `FGEN`, before the `factor` request (rule R183): `n = 0`, then `2n >= 2^64`. -/
def fgenCheck (n : Word) : Except FatalCode Unit :=
  if n = 0 then .error .divZero
  else if 2 ^ 64 ≤ 2 * n.toNat then .error .searchRange
  else .ok ()

/-- `GEXP <- PHI div (2*n)` (rule R183). -/
def SearchUnit.loadGexp (u : SearchUnit) (n : Word) : SearchUnit :=
  { u with gexp := BitVec.ofNat 64 (u.phi.toNat / (2 * n.toNat)) }

/-- `FGEN rd, rs1` (rule R183): `x[RD] <- POWF(CTX, g0, (Q-1) div (2*n))`. -/
def execFgen (rd rs1 : Reg) (s : State) : Result :=
  .next (s.withContext (generatorSearch (fgenCheck (s.x rs1)) fun s u =>
    s.finish rd (powf s.ctx (u.loadGexp (s.x rs1)).root (u.loadGexp (s.x rs1)).gexp)))

end Sys2Proof.Machine
end

