-- ==== Sys2Proof/Machine/ModulusContext.lean ====
section
/-! DEFINITION. `CTXINIT`: construction of the Modulus Context (rules R90 to R96). -/

namespace Sys2Proof.Machine

/-- The context of a modulus and a variant: `LOGQ = bitlen(q)` (rule R92), `MU = floor(2^(2*LOGQ) / q)` (rule
R93), the same constant for both variants (rule R94); or `CTX_RANGE` when `q < 2` or `q >= 2^63` (rule R91). -/
def buildContext (q : Word) (v : Variant) : Except FatalCode Context :=
  if q.toNat < 2 ∨ 2 ^ 63 ≤ q.toNat then .error .ctxRange
  else .ok {
    q := BitVec.ofNat 63 q.toNat
    logq := BitVec.ofNat 7 (bitlen q.toNat)
    mu := BitVec.ofNat 65 (2 ^ (2 * bitlen q.toNat) / q.toNat)
    var := v
    valid := true }

/-- `CTXINIT rs1, v` (rule R90): the five context fields change together at completion; on `CTX_RANGE` none does. -/
def execCtxinit (rs1 : Reg) (v : Variant) (s : State) : Result :=
  .next (match buildContext (s.x rs1) v with
    | .error code => s.fatal code
    | .ok c => { s with ctx := c }.complete)

end Sys2Proof.Machine
end

