-- ==== Sys2Proof/Machine/PrimeSearch.lean ====
section
/-! DEFINITION. The prime searches `FFPU`, `FNPU`, `FFPD`, `FNPD` (rules R160 to R169). They need no context
(rule R160). -/

namespace Sys2Proof.Machine

/-- Up or down (rule R162). -/
inductive Direction where
  | up | down
deriving DecidableEq, Repr

/-- `STEPF(n)`: `2*n`, or `SEARCH_RANGE` when it leaves 64 bits (rule R161). -/
def stepf (n : Word) : Except FatalCode Nat :=
  if 2 ^ 64 ≤ 2 * n.toNat then .error .searchRange else .ok (2 * n.toNat)

/-- `BASEF(u)`: `2^u + 1`, or `SEARCH_RANGE` when `u >= 64` (rule R161). -/
def basef (u : Word) : Except FatalCode Nat :=
  if 64 ≤ u.toNat then .error .searchRange else .ok (2 ^ u.toNat + 1)

/-- The candidate one step on: `cand + step` (`UPSTEP`) or `cand - step` (`DOWNSTEP`), or `SEARCH_RANGE` when that
is not in `[0, 2^64)` (rule R161). -/
def moveCand (d : Direction) (cand step : Nat) : Except FatalCode Nat :=
  match d with
  | .up => if 2 ^ 64 ≤ cand + step then .error .searchRange else .ok (cand + step)
  | .down => if cand < step then .error .searchRange else .ok (cand - step)

/-- `CAND` and `STEP` as a search loads them. -/
structure Start where
  cand : Nat
  step : Nat
deriving DecidableEq, Repr

/-- The start of `FFPU`: `2^u + 1` itself (rule R164). -/
def startFirstUp (u n : Word) : Except FatalCode Start := do
  let step ← stepf n
  let base ← basef u
  return ⟨base, step⟩

/-- The start of `FNPU`: `prev + 2n` (rule R165). -/
def startNextUp (u n : Word) : Except FatalCode Start := do
  let step ← stepf n
  let cand ← moveCand .up u.toNat step
  return ⟨cand, step⟩

/-- The start of `FFPD`: `2^u + 1 - 2n` (rule R166). -/
def startFirstDown (u n : Word) : Except FatalCode Start := do
  let step ← stepf n
  let base ← basef u
  let cand ← moveCand .down base step
  return ⟨cand, step⟩

/-- The start of `FNPD`: `prev - 2n` (rule R167). -/
def startNextDown (u n : Word) : Except FatalCode Start := do
  let step ← stepf n
  let cand ← moveCand .down u.toNat step
  return ⟨cand, step⟩

/-- `CAND` and `STEP` take the search's start. -/
def State.loadSearch (s : State) (st : Start) : State :=
  { s with search := { s.search with cand := BitVec.ofNat 64 st.cand, step := BitVec.ofNat 64 st.step } }

/-- `CAND` takes a new value. -/
def State.setCand (s : State) (cand : Nat) : State :=
  { s with search := { s.search with cand := BitVec.ofNat 64 cand } }

/-- `UPLOOP` / `DOWNLOOP` (rule R162) from the point where `isPrime(CAND)` is asked and its answer awaited: it goes
on with the answers that come next on the timeline. Answer true: the search ends with `CAND`. Answer false: one
step (or `SEARCH_RANGE`), one request. No answer yet: the engine waits in `RUN` (rule R34). -/
def searchLoop (d : Direction) (rd : Reg) (s : State) : List Event → State
  | .primeAnswer true :: rest => { s with inputs := rest }.finish rd (some s.search.cand)
  | .primeAnswer false :: rest =>
    match moveCand d s.search.cand.toNat s.search.step.toNat with
    | .error code => { s with inputs := rest }.fatal code
    | .ok cand => searchLoop d rd ((s.setCand cand).ask (.prime (BitVec.ofNat 64 cand))) rest
  | rest => { s with inputs := rest }

/-- A prime search: begun (its range checks first, rule R161), or resumed where it waits for an answer. -/
def primeSearch (d : Direction) (rd : Reg) (start : Except FatalCode Start) (s : State) : State :=
  match s.es with
  | .run (some _) => searchLoop d rd s s.inputs
  | _ =>
    match start with
    | .error code => s.fatal code
    | .ok st => searchLoop d rd ((s.loadSearch st).ask (.prime (BitVec.ofNat 64 st.cand))) s.inputs

/-- `FFPU rd, rs1, rs2` (rule R164). -/
def execFfpu (rd rs1 rs2 : Reg) (s : State) : Result :=
  .next (primeSearch .up rd (startFirstUp (s.x rs1) (s.x rs2)) s)

/-- `FNPU rd, rs1, rs2` (rule R165). -/
def execFnpu (rd rs1 rs2 : Reg) (s : State) : Result :=
  .next (primeSearch .up rd (startNextUp (s.x rs1) (s.x rs2)) s)

/-- `FFPD rd, rs1, rs2` (rule R166). -/
def execFfpd (rd rs1 rs2 : Reg) (s : State) : Result :=
  .next (primeSearch .down rd (startFirstDown (s.x rs1) (s.x rs2)) s)

/-- `FNPD rd, rs1, rs2` (rule R167). -/
def execFnpd (rd rs1 rs2 : Reg) (s : State) : Result :=
  .next (primeSearch .down rd (startNextDown (s.x rs1) (s.x rs2)) s)

end Sys2Proof.Machine
end

