-- ==== Sys2Proof/Machine/Dispatch.lean ====
section
/-! DEFINITION. The meaning of every command of rule R74, one arm each. -/

namespace Sys2Proof.Machine

def exec (i : Instr) (s : State) : Host.Outcome State Fault Refusal :=
  match i with
  | .ctxinit rs1 v => Sys2Proof.Machine.execCtxinit rs1 v s
  | .neg rd rs1 => Sys2Proof.Machine.execNeg rd rs1 s
  | .add rd rs1 rs2 => Sys2Proof.Machine.execAdd rd rs1 rs2 s
  | .sub rd rs1 rs2 => Sys2Proof.Machine.execSub rd rs1 rs2 s
  | .mul rd rs1 rs2 => Sys2Proof.Machine.execMul rd rs1 rs2 s
  | .sqr rd rs1 => Sys2Proof.Machine.execSqr rd rs1 s
  | .pow rd rs1 rs2 => Sys2Proof.Machine.execPow rd rs1 rs2 s
  | .inv rd rs1 => Sys2Proof.Machine.execInv rd rs1 s
  | .negIp rs1 => Sys2Proof.Machine.execNegIp rs1 s
  | .addIp rs1 rs2 => Sys2Proof.Machine.execAddIp rs1 rs2 s
  | .subIp rs1 rs2 => Sys2Proof.Machine.execSubIp rs1 rs2 s
  | .mulIp rs1 rs2 => Sys2Proof.Machine.execMulIp rs1 rs2 s
  | .sqrIp rs1 => Sys2Proof.Machine.execSqrIp rs1 s
  | .powIp rs1 rs2 => Sys2Proof.Machine.execPowIp rs1 rs2 s
  | .invIp rs1 => Sys2Proof.Machine.execInvIp rs1 s
  | .ffpu rd rs1 rs2 => Sys2Proof.Machine.execFfpu rd rs1 rs2 s
  | .fnpu rd rs1 rs2 => Sys2Proof.Machine.execFnpu rd rs1 rs2 s
  | .ffpd rd rs1 rs2 => Sys2Proof.Machine.execFfpd rd rs1 rs2 s
  | .fnpd rd rs1 rs2 => Sys2Proof.Machine.execFnpd rd rs1 rs2 s
  | .fpr rd => Sys2Proof.Machine.execFpr rd s
  | .fgen rd rs1 => Sys2Proof.Machine.execFgen rd rs1 s

end Sys2Proof.Machine
end

