-- ==== Sys2Proof/Machine/Flags.lean ====
section
/-! DEFINITION. The status flags (rule R26) and the level outputs that copy them (rule R33). There are no
condition codes (rule R38). -/

namespace Sys2Proof.Machine

/-- `STATUS.BUSY`: 1 iff `ES = RUN` (rule R26). -/
def State.busy (s : State) : Bool :=
  match s.es with
  | .run _ => true
  | _ => false

/-- `STATUS.FATAL`: 1 iff `ES = HALTED` (rule R26). -/
def State.isFatal (s : State) : Bool :=
  match s.es with
  | .halted => true
  | _ => false

/-- `STATUS.VAR`: the copy of `CTX.VAR` (rule R26). -/
def State.varBit (s : State) : Bool :=
  match s.ctx.var with
  | .a => false
  | .b => true

/-- The `STATUS` register: `BUSY` 0, `DONE` 1, `FATAL` 2, `CTXV` 3, `VAR` 4, `OVR` 5, the rest 0 (rule R26). -/
def State.statusWord (s : State) : Word :=
  0#58 ++ BitVec.ofBool s.ovr ++ BitVec.ofBool s.varBit ++ BitVec.ofBool s.ctx.valid
    ++ BitVec.ofBool s.isFatal ++ BitVec.ofBool s.done ++ BitVec.ofBool s.busy

/-- The three level outputs (rule R33). -/
structure Outputs where
  busy  : Bool
  done  : Bool
  fatal : Bool
deriving DecidableEq, Repr

/-- `busy = STATUS.BUSY`, `done = STATUS.DONE`, `fatal = STATUS.FATAL`, at all times (rule R33). -/
def State.outputs (s : State) : Outputs := ⟨s.busy, s.done, s.isFatal⟩

end Sys2Proof.Machine
end

