-- ==== Sys2Proof/Machine/HostPort.lean ====
section
/-! DEFINITION. The host's register port: `HostRead` (rule R52), `HostWrite` (rule R53), the issue step of a command
(rule R81), the reset event (rule R230), and the byte view of a wrapper (rule R54). -/

namespace Sys2Proof.Machine

/-- `HostRead(idx)`: the register at `idx` (rules R25 to R30, R52); a reserved index reads 0 (rule R51). -/
def State.hostRead (s : State) (idx : Index) : Word :=
  match idx.toNat with
  | 0x00 => s.cmd
  | 0x01 => s.statusWord
  | 0x02 => s.cause.setWidth 64
  | 0x03 => s.ctx.q.setWidth 64
  | 0x04 => s.ctx.logq.setWidth 64
  | 0x05 => s.ctx.mu.setWidth 64
  | 0x06 => (s.ctx.mu >>> 64).setWidth 64
  | 0x07 => s.fcmd
  | n => if h : 8 ≤ n ∧ n < 16 then s.x ⟨n - 8, by omega⟩ else 0

/-- A write the engine does not accept: nothing changes but `STATUS.OVR` (rule R53). -/
def State.drop (s : State) : State := { s with ovr := true }

/-- What the issue step does first (rule R81): `CMD <- w`, `STATUS.DONE <- 0`. -/
def State.accept (s : State) (w : Word) : State := { s with cmd := w, done := false }

/-- The issue step (rule R81): an illegal word and a missing context raise their faults at once; else `ES <- RUN`. -/
def State.issue (s : State) (w : Word) : State :=
  match decode w with
  | .error _ => (s.accept w).fatal .illegalCmd
  | .ok i => if i.needsContext then (s.accept w).withContext fun s => { s with es := .run none }
             else { s.accept w with es := .run none }

/-- `HostWrite(idx, v)` (rule R53). -/
def State.hostWrite (s : State) (idx : Index) (v : Word) : State :=
  if idx = 0 then
    if s.es = .idle then s.issue v else s.drop
  else if h : 8 ≤ idx.toNat ∧ idx.toNat < 16 then
    if s.es = .idle then s.setX ⟨idx.toNat - 8, by omega⟩ v else s.drop
  else s

/-- The reset event (rule R230, rule R232): every piece of the block's state takes its reset value; a request is
abandoned. The model's own fields are not the block's and stay (log 14). -/
def State.resetEvent (s : State) : State :=
  { State.reset with draws := s.draws, inputs := s.inputs, reads := s.reads, requests := s.requests }

/-- The byte at offset `off` of a byte-addressed wrapper: register `idx` at `8 * idx`, little-endian (rule R54). -/
def State.wrapperByte (s : State) (off : BitVec 9) : BitVec 8 :=
  (s.hostRead (BitVec.ofNat 6 (off.toNat / 8))).extractLsb' (8 * (off.toNat % 8)) 8

end Sys2Proof.Machine
end

