-- ==== Sys2Proof/Machine/Events.lean ====
section
/-! DEFINITION. What one step does: it takes the next event of the timeline (rule R13, rule R58) or, where there is
none, lets the engine work on. -/

namespace Sys2Proof.Machine

/-- The engine runs the command in `CMD` as far as it goes: to its end, or to a request nobody has answered. -/
def runEngine (s : State) : Result :=
  match decode s.cmd with
  | .ok i => exec i s
  | .error _ => .fault .runWithoutCommand

/-- The engine's turn: it begins the command in progress; idle, halted or waiting for an answer, it does nothing. -/
def engineTurn (s : State) : Result :=
  match s.es with
  | .run none => runEngine s
  | _ => .next s

/-- `HostWrite(0x00, v)` and the command it issues in one step (rule R81: "A model may merge issue and completion"). -/
def runCommand (s : State) (v : Word) : Result :=
  if s.es = .idle then
    match decode v with
    | .ok i => exec i (s.accept v)
    | .error _ => .next ((s.accept v).fatal .illegalCmd)
  else .next s.drop

/-- `HostRead(idx)`: no side effect (rule R52); the model notes the value the host got. -/
def noteRead (s : State) (idx : Index) : State := { s with reads := s.hostRead idx :: s.reads }

/-- The PRIME port's answer: it resumes the search that waits for it; an answer nobody waits for is discarded (rule R37,
rule R232). The answer is still the head of the timeline of `s`; `popped` is `s` without it. -/
def primeArrives (s popped : State) : Result :=
  match s.es with
  | .run (some (.prime _)) => runEngine s
  | _ => .next popped

/-- The FACTOR port's answer, likewise. -/
def factorArrives (s popped : State) : Result :=
  match s.es with
  | .run (some (.factor _)) => runEngine s
  | _ => .next popped

/-- One event. -/
def handle (s : State) (e : Event) (rest : List Event) : Result :=
  let popped := { s with inputs := rest }
  match e with
  | .write idx v => .next (popped.hostWrite idx v)
  | .command v => runCommand popped v
  | .read idx => .next (noteRead popped idx)
  | .reset => .next popped.resetEvent
  | .engine => engineTurn popped
  | .primeAnswer _ => primeArrives s popped
  | .factorAnswer _ => factorArrives s popped

/-- One step of the machine. -/
def advance (s : State) : Result :=
  match s.inputs with
  | [] => engineTurn s
  | e :: rest => handle s e rest

end Sys2Proof.Machine
end

