-- ==== Sys2Proof/Machine/Step.lean ====
section
/-! DEFINITION. The step, and how an instruction is placed where the step fetches it. -/

namespace Sys2Proof.Machine

/-- One step: the next event, or the engine's own work (rules R13, R58, R81). -/
def step (s : State) : Host.Outcome State Fault Refusal := advance s

/-- BRE64 fetches nothing (rule R22): a command is the host's next write to `CMD`. The instruction's bits become the
value of a `command` event at the head of the timeline. Log 3. -/
def State.withFetchWord (s : State) (nbits w : Nat) : State :=
  { s with inputs := .command (tableWord nbits w) :: s.inputs }

end Sys2Proof.Machine
end

