-- ==== Sys2Proof/Safety.lean ====
section
/-! DEFINITION. The terms statements are made in: well-formed contexts (rule R24), the machine's invariant, what a
completed command leaves, honest collaborators (rule R36). -/

namespace Sys2Proof.Machine

/-- Rule R24: a constructed context holds `2 <= Q < 2^63`, `LOGQ = bitlen(Q)`, `MU = floor(2^(2*LOGQ) / Q)`
(`Q < 2^63` by its width); where there is none, all fields are 0. -/
def Context.wellFormed (c : Context) : Prop :=
  if c.valid = true then
    2 ≤ c.qNat ∧ c.logqNat = bitlen c.qNat ∧ c.muNat = 2 ^ (2 * bitlen c.qNat) / c.qNat
  else c = Context.none

/-- There is a context and it is well-formed. -/
def Context.usable (c : Context) : Prop := c.valid = true ∧ c.wellFormed

/-- The destination data register of a command (rule R21: at most one); `none` for `CTXINIT`. -/
def destOf : Instr → Option Reg
  | .ctxinit _ _ => none
  | .neg rd _ | .sqr rd _ | .inv rd _ | .fgen rd _ | .fpr rd => some rd
  | .add rd _ _ | .sub rd _ _ | .mul rd _ _ | .pow rd _ _ => some rd
  | .ffpu rd _ _ | .fnpu rd _ _ | .ffpd rd _ _ | .fnpd rd _ _ => some rd
  | .negIp rs1 | .sqrIp rs1 | .invIp rs1 => some rs1
  | .addIp rs1 _ | .subIp rs1 _ | .mulIp rs1 _ | .powIp rs1 _ => some rs1

/-- The four commands that use the PRIME port (rule R34). -/
def usesPrimePort : Instr → Bool
  | .ffpu .. | .fnpu .. | .ffpd .. | .fnpd .. => true
  | .ctxinit .. | .neg .. | .add .. | .sub .. | .mul .. | .sqr .. | .pow .. | .inv .. => false
  | .negIp .. | .addIp .. | .subIp .. | .mulIp .. | .sqrIp .. | .powIp .. | .invIp .. => false
  | .fpr .. | .fgen .. => false

/-- The two commands that use the FACTOR port (rule R35). -/
def usesFactorPort : Instr → Bool
  | .fpr .. | .fgen .. => true
  | .ctxinit .. | .neg .. | .add .. | .sub .. | .mul .. | .sqr .. | .pow .. | .inv .. => false
  | .negIp .. | .addIp .. | .subIp .. | .mulIp .. | .sqrIp .. | .powIp .. | .invIp .. => false
  | .ffpu .. | .fnpu .. | .ffpd .. | .fnpd .. => false

/-- An accepted command is about to begin: the engine was `IDLE` and runs it at once, or it is in `RUN` and has sent
no request (rule R81). -/
def State.begins (s : State) : Prop := s.es = .idle ∨ s.es = .run none

/-- The operand of an `FGEN` has passed the checks made before its request (rule R183). -/
def operandPassed (i : Instr) (s : State) : Prop :=
  ∀ rd rs1, i = .fgen rd rs1 → 1 ≤ (s.x rs1).toNat ∧ 2 * (s.x rs1).toNat < 2 ^ 64

/-- The command in progress fits the engine state: it is a command, it has the context it needs, and the request it
waits on is its own, sent after its operand checks (rules R22, R34, R35, R81, R183). -/
def State.inProgress (s : State) (request : Option Request) : Prop :=
  ∃ i, decode s.cmd = .ok i ∧ (i.needsContext = true → s.ctx.valid = true) ∧
    (match request with
      | none => True
      | some (.prime x) => usesPrimePort i = true ∧ x = s.search.cand
      | some (.factor m) => usesFactorPort i = true ∧ m = s.search.phi ∧ m.toNat = s.ctx.qNat - 1 ∧ operandPassed i s)

/-- The invariant of every reachable state: the context is well-formed (rule R24); `DONE` only in `IDLE`, so at most
one of `BUSY`, `DONE`, `FATAL` is 1 (rule R26); `CAUSE` and `FCMD` are 0 outside `HALTED`, and in it a cause code of
rule R201 and the command that faulted (rules R27, R28); in `RUN` exactly one command is in progress (rule R22). -/
structure State.Inv (s : State) : Prop where
  ctx : s.ctx.wellFormed
  done : s.done = true → s.es = .idle
  noFault : s.es ≠ .halted → s.cause = 0 ∧ s.fcmd = 0
  faulted : s.es = .halted → (∃ code, s.cause = causeCode code) ∧ s.fcmd = s.cmd
  running : ∀ request, s.es = .run request → s.inProgress request

/-- Everything outside the destination register, the engine state, `DONE`, the hidden registers and the ports is as
it was. -/
structure SameButResult (s t : State) (rd : Reg) : Prop where
  regs : ∀ r, r ≠ rd → t.x r = s.x r
  ctx : t.ctx = s.ctx
  cmd : t.cmd = s.cmd
  ovr : t.ovr = s.ovr
  cause : t.cause = s.cause
  fcmd : t.fcmd = s.fcmd
  reads : t.reads = s.reads

/-- The command completes in this step with `v` in `rd`, `ES = IDLE`, `DONE = 1` (rule R81), having taken the
answers before `rest` from the timeline and sent the requests `sent` (newest first); nothing else the host can see
changes. -/
def CompletesWith (i : Instr) (s : State) (rd : Reg) (v : Word) (rest : List Event) (sent : List Request) : Prop :=
  ∃ t, exec i s = .next t ∧ t.x rd = v ∧ t.es = .idle ∧ t.done = true ∧ SameButResult s t rd ∧
    t.inputs = rest ∧ t.requests = sent ++ s.requests

/-- The same for a command that uses no collaborator. -/
def Completes (i : Instr) (s : State) (rd : Reg) (v : Word) : Prop := CompletesWith i s rd v s.inputs []

/-- The command raises `Fatal(code)` in this step (rule R204), having taken the answers before `rest` and sent the
requests `sent`: no data register, no context field, not `CMD`, `OVR` or `DONE` changes. -/
def Faults (i : Instr) (s : State) (code : FatalCode) (rest : List Event) (sent : List Request) : Prop :=
  ∃ t, exec i s = .next t ∧ t.es = .halted ∧ t.cause = causeCode code ∧ t.fcmd = s.cmd ∧ t.regs = s.regs ∧
    t.ctx = s.ctx ∧ t.cmd = s.cmd ∧ t.ovr = s.ovr ∧ t.done = s.done ∧ t.reads = s.reads ∧
    t.inputs = rest ∧ t.requests = sent ++ s.requests

/-- Which fault a decoded command can raise, and when (rule R202); `ILLEGAL_CMD` is raised by values that are no
command. -/
def mayRaise (i : Instr) (s : State) (code : FatalCode) : Prop :=
  (code = .noCtx ∧ i.needsContext = true ∧ s.ctx.valid = false) ∨
  (code = .ctxRange ∧ ∃ rs1 v, i = .ctxinit rs1 v) ∨
  (code = .searchRange ∧ (usesPrimePort i = true ∨ usesFactorPort i = true)) ∨
  (code = .divZero ∧ usesFactorPort i = true)

/-- The command waits in `RUN` for the answer to `r` (rules R34, R35), having taken the answers before `rest` and
sent the requests `sent`: nothing else the host can see changes. -/
def Waits (i : Instr) (s : State) (r : Request) (rest : List Event) (sent : List Request) : Prop :=
  ∃ t, exec i s = .next t ∧ t.es = .run (some r) ∧ t.cause = s.cause ∧ t.fcmd = s.fcmd ∧ t.regs = s.regs ∧
    t.ctx = s.ctx ∧ t.cmd = s.cmd ∧ t.ovr = s.ovr ∧ t.done = s.done ∧ t.reads = s.reads ∧
    t.inputs = rest ∧ t.requests = sent ++ s.requests

/-- `OA1` (rule R36): the primality collaborator is a function of its request and answers true exactly for primes. -/
def PrimalityHonest (isPrime : Word → Bool) : Prop := ∀ x : Word, isPrime x = true ↔ x.toNat.Prime

/-- `OA2` (rule R36): the factorization collaborator's answer to `m` holds exactly the pairs (prime, multiplicity) of
`m`; multiplicities are at least 1 (rule R35). -/
def FactorsOf (m : Nat) (fs : FactorSet) : Prop :=
  ∀ (p : Word) (e : Nat), (p, e) ∈ fs ↔
    p.toNat.Prime ∧ 1 ≤ e ∧ p.toNat ^ e ∣ m ∧ ¬ p.toNat ^ (e + 1) ∣ m

/-- The `j`-th member of a search's progression (rule R162). -/
def candidate (d : Direction) (first step j : Nat) : Nat :=
  match d with
  | .up => first + j * step
  | .down => first - j * step

/-- `c` is the candidate one step on from `cand` (`UPSTEP`, `DOWNSTEP` of rule R161), in `[0, 2^64)`. -/
def stepsTo (d : Direction) (cand step c : Nat) : Prop :=
  match d with
  | .up => c = cand + step ∧ c < 2 ^ 64
  | .down => c + step = cand

/-- The step from `cand` leaves `[0, 2^64)` (rule R161). -/
def leavesRange (d : Direction) (cand step : Nat) : Prop :=
  match d with
  | .up => 2 ^ 64 ≤ cand + step
  | .down => cand < step

/-- The first `j + 1` members of the progression lie in `[0, 2^64)` (rule R161). -/
def inRange (d : Direction) (first step j : Nat) : Prop :=
  match d with
  | .up => first + j * step < 2 ^ 64
  | .down => j * step ≤ first ∧ first < 2 ^ 64

/-- The requests a search has sent for its first `j` candidates, newest first. -/
def primeRequests (d : Direction) (first step : Nat) : Nat → List Request
  | 0 => []
  | j + 1 => .prime (BitVec.ofNat 64 (candidate d first step j)) :: primeRequests d first step j

/-- The direction and the destination of a prime search (rules R164 to R167); `none` for the other commands. -/
def primeSearchOf : Instr → Option (Direction × Reg)
  | .ffpu rd .. | .fnpu rd .. => some (.up, rd)
  | .ffpd rd .. | .fnpd rd .. => some (.down, rd)
  | .ctxinit .. | .neg .. | .add .. | .sub .. | .mul .. | .sqr .. | .pow .. | .inv .. => none
  | .negIp .. | .addIp .. | .subIp .. | .mulIp .. | .sqrIp .. | .powIp .. | .invIp .. => none
  | .fpr .. | .fgen .. => none

/-- The search stands at the candidate `c`, its request for it sent and outstanding, `rest` still to happen. -/
def State.standingAt (s : State) (c : Nat) (rest : List Event) : State :=
  { s with
    inputs := rest
    search := { s.search with cand := BitVec.ofNat 64 c }
    es := .run (some (.prime (BitVec.ofNat 64 c)))
    requests := .prime (BitVec.ofNat 64 c) :: s.requests }

/-- The event answers the request: it comes from the port the request went to (rules R34, R35). -/
def Event.answers : Event → Request → Bool
  | .primeAnswer _, .prime _ | .factorAnswer _, .factor _ => true
  | .primeAnswer _, .factor _ | .factorAnswer _, .prime _ => false
  | .write .., _ | .command _, _ | .read _, _ | .reset, _ | .engine, _ => false

/-- The next event is an answer of the PRIME port. -/
def primeAnswerNext : List Event → Bool
  | .primeAnswer _ :: _ => true
  | _ => false

/-- The next event is an answer of the FACTOR port. -/
def factorAnswerNext : List Event → Bool
  | .factorAnswer _ :: _ => true
  | _ => false

/-- The timeline on which the collaborator `isPrime` answers the first `j` requests of a search and then `rest` happens. -/
def answersOf (isPrime : Word → Bool) (d : Direction) (first step j : Nat) (rest : List Event) : List Event :=
  (List.range j).map (fun k => Event.primeAnswer (isPrime (BitVec.ofNat 64 (candidate d first step k)))) ++ rest

/-- A prime search of the opcode map with the operands it is given: the first candidate and the step its rule names,
where every check of rule R161 passes (rules R164 to R167). -/
inductive SearchStarts : Instr → State → Direction → Reg → Nat → Nat → Prop
  /-- `FFPU`: from `2^bitlength + 1` (rule R164) -/
  | ffpu (s : State) (rd rs1 rs2 : Reg) (hn : 2 * (s.x rs2).toNat < 2 ^ 64) (hu : (s.x rs1).toNat < 64) :
      SearchStarts (.ffpu rd rs1 rs2) s .up rd (2 ^ (s.x rs1).toNat + 1) (2 * (s.x rs2).toNat)
  /-- `FNPU`: from `prev + 2n` (rule R165) -/
  | fnpu (s : State) (rd rs1 rs2 : Reg) (hn : 2 * (s.x rs2).toNat < 2 ^ 64)
      (hu : (s.x rs1).toNat + 2 * (s.x rs2).toNat < 2 ^ 64) :
      SearchStarts (.fnpu rd rs1 rs2) s .up rd ((s.x rs1).toNat + 2 * (s.x rs2).toNat) (2 * (s.x rs2).toNat)
  /-- `FFPD`: from `2^bitlength + 1 - 2n` (rule R166) -/
  | ffpd (s : State) (rd rs1 rs2 : Reg) (hn : 2 * (s.x rs2).toNat < 2 ^ 64) (hu : (s.x rs1).toNat < 64)
      (hb : 2 * (s.x rs2).toNat ≤ 2 ^ (s.x rs1).toNat + 1) :
      SearchStarts (.ffpd rd rs1 rs2) s .down rd (2 ^ (s.x rs1).toNat + 1 - 2 * (s.x rs2).toNat)
        (2 * (s.x rs2).toNat)
  /-- `FNPD`: from `prev - 2n` (rule R167) -/
  | fnpd (s : State) (rd rs1 rs2 : Reg) (hn : 2 * (s.x rs2).toNat < 2 ^ 64)
      (hu : 2 * (s.x rs2).toNat ≤ (s.x rs1).toNat) :
      SearchStarts (.fnpd rd rs1 rs2) s .down rd ((s.x rs1).toNat - 2 * (s.x rs2).toNat) (2 * (s.x rs2).toNat)

/-- A host access that reads or writes the port, as the timeline holds it. -/
def Event.isHostAccess : Event → Bool
  | .write _ _ | .command _ | .read _ => true
  | .reset | .engine | .primeAnswer _ | .factorAnswer _ => false

/-- A host access that a running engine drops with `OVR` (rule R53): a write to `CMD` or to a data register. -/
def Event.isDropped : Event → Bool
  | .write idx _ => idx.toNat = 0 || (8 ≤ idx.toNat && idx.toNat < 16)
  | .command _ => true
  | .read _ | .reset | .engine | .primeAnswer _ | .factorAnswer _ => false

/-- Apply a change to the state of a `next` answer. -/
def mapNext (f : State → State) : Result → Result
  | .next t => .next (f t)
  | .fault r => .fault r
  | .refused r => .refused r

/-- A state with its hidden registers blanked (rules R31, R32: no host read shows them). -/
def State.blankHidden (s : State) : State := { s with pow := ⟨0, 0, 0⟩, search := ⟨0, 0, 0, 0, 0, []⟩ }

end Sys2Proof.Machine
end

