-- ==== Sys2Proof/Certificates/Slice0/Obligations.lean ====
section
/-! DEFINITION. The statements for the provers, from the numbered rules of spec/. -/

open Sys2Proof Sys2Proof.Machine

/-! ### Encoding (30_encoding.md) -/

/-- Rules R70 to R74, R79: every well-formed command is read back from its encoding. -/
def Obligations.DecodeReadsEncode : Prop :=
  ∀ i : Instr, i.wellFormed = true → decode (encode i) = .ok i

/-- Rules R71, R74, R75: a legal value is the one encoding of the command it decodes to, so no bit of it is dropped. -/
def Obligations.LegalWordIsItsEncoding : Prop :=
  ∀ (w : Word) (i : Instr), decode w = .ok i → encode i = w

/-- Rule R75: a written value is illegal iff its upper half is nonzero, bits 31..18 are nonzero, `OP` is not one of
the 21 codes, or a field its format does not use is nonzero; `w = 0` is illegal; and an accepted write of an illegal
command raises `ILLEGAL_CMD` at once.
The write is an event of the timeline (log 1). -/
def Obligations.IllegalExactlyByTheFields : Prop :=
  (∀ w : Word, (∃ reason, decode w = .error reason) ↔
    (w.extractLsb' 32 32 ≠ 0 ∨ w.extractLsb' 18 14 ≠ 0 ∨
     w.extractLsb' 0 8 ∉ ([0x10, 0x20, 0x21, 0x22, 0x23, 0x24, 0x25, 0x26, 0x30, 0x31, 0x32, 0x33, 0x34, 0x35, 0x36,
       0x40, 0x41, 0x42, 0x43, 0x48, 0x49] : List (BitVec 8)) ∨
     (w.extractLsb' 14 3 ≠ 0 ∧
       w.extractLsb' 0 8 ∈ ([0x10, 0x20, 0x24, 0x26, 0x49, 0x48, 0x30, 0x34, 0x36] : List (BitVec 8))) ∨
     (w.extractLsb' 11 3 ≠ 0 ∧ w.extractLsb' 0 8 = 0x48) ∨
     (w.extractLsb' 8 3 ≠ 0 ∧
       w.extractLsb' 0 8 ∈ ([0x10, 0x30, 0x31, 0x32, 0x33, 0x34, 0x35, 0x36] : List (BitVec 8))) ∨
     (w.extractLsb' 17 1 ≠ 0 ∧ w.extractLsb' 0 8 ≠ 0x10))) ∧
  (∃ reason, decode 0 = .error reason) ∧
  (∀ (s : State) (w : Word) (reason : Illegal) (rest : List Event), s.es = .idle → decode w = .error reason →
    ∃ t, step { s with inputs := .write 0 w :: rest } = .next t ∧ t.es = .halted ∧
      t.cause = causeCode .illegalCmd ∧ t.fcmd = w ∧ t.regs = s.regs ∧ t.ctx = s.ctx)

/-- Rule R74: "Rows are disjoint": no value selects two rows of the opcode map, and there are 21 rows. -/
def Obligations.OpcodeRowsAreDisjoint : Prop :=
  opcodeMap.length = 21 ∧ ∀ w : Word, (opcodeMap.filter fun row => row.selects w).length ≤ 1

/-- Values written out from the encoding of rules R71, R72, R74 decode to the commands they stand for. -/
def Obligations.WrittenOutWordsDecode : Prop :=
  decode 0x0000000000023810 = .ok (.ctxinit 7 .b) ∧ decode 0x0000000000008B21 = .ok (.add 3 1 2) ∧
  decode 0x0000000000008833 = .ok (.mulIp 1 2) ∧ decode 0x0000000000000D26 = .ok (.inv 5 1) ∧
  decode 0x0000000000009C43 = .ok (.fnpd 4 3 2) ∧ decode 0x0000000000001449 = .ok (.fgen 4 2) ∧
  decode 0x0000000000000348 = .ok (.fpr 3) ∧ decode 0x0000000000000836 = .ok (.invIp 1)

/-! ### The step and the host port (20_memory.md, 30_encoding.md section 9) -/

/-- A step whose next event writes a command to `CMD` of an idle engine runs the decoded command: the step stores the
written value in `CMD`, clears `DONE`, takes the event off the timeline, and is `exec` of the command there; so it is
for an instruction placed by `withFetchWord`.
The timeline, the event that
issues and runs a command in one step, and `withFetchWord` are the model's choices (logs 1, 2, 3). -/
def Obligations.StepRunsTheDecodedCommand : Prop :=
  (∀ (s : State) (w : Word) (i : Instr) (rest : List Event),
    s.es = .idle → s.inputs = .command w :: rest → decode w = .ok i →
    step s = exec i { s with inputs := rest, cmd := w, done := false }) ∧
  (∀ (s : State) (nbits w : Nat) (i : Instr), s.es = .idle → decodeTableWord nbits w = some i →
    step (s.withFetchWord nbits w) =
      exec i { s with cmd := BitVec.ofNat 64 (w % 2 ^ nbits), done := false })

/-- An engine in `RUN` that has sent no request runs the command in `CMD` when its turn comes: at an `engine` event,
or when nothing else is on the timeline.
The engine's turn is the model's (log 21). -/
def Obligations.RunningEngineRunsItsCommand : Prop :=
  ∀ (s : State) (i : Instr) (rest : List Event), s.es = .run none → decode s.cmd = .ok i →
    step { s with inputs := .engine :: rest } = exec i { s with inputs := rest } ∧
    step { s with inputs := [] } = exec i { s with inputs := [] }

/-- Rule R81: merging issue and completion into one step changes nothing: a command that the engine runs at once
leaves the state that the two-step form leaves.
The two forms are events of the model (logs 1, 2). -/
def Obligations.MergedRunIsIssueThenEngine : Prop :=
  ∀ (s : State) (w : Word) (rest : List Event), s.es = .idle →
    ∃ t, step { s with inputs := .write 0 w :: .engine :: rest } = .next t ∧
      step { s with inputs := .command w :: rest } = step t

/-- Rule R81, the issue step: `CMD` and `DONE` first; an illegal value raises `ILLEGAL_CMD`, a command that needs a
context and finds none raises `NO_CTX`; else `ES` becomes `RUN` and nothing else changes.
The write is an event of the timeline (log 1). -/
def Obligations.IssueStepAnswers : Prop :=
  ∀ (s : State) (w : Word) (rest : List Event), s.es = .idle →
    ∃ t, step { s with inputs := .write 0 w :: rest } = .next t ∧ t.cmd = w ∧ t.done = false ∧
      t.regs = s.regs ∧ t.ctx = s.ctx ∧ t.ovr = s.ovr ∧ t.inputs = rest ∧
      (∀ reason, decode w = .error reason → t.es = .halted ∧ t.cause = 2 ∧ t.fcmd = w) ∧
      (∀ i, decode w = .ok i → i.needsContext = true → s.ctx.valid = false →
        t.es = .halted ∧ t.cause = 3 ∧ t.fcmd = w) ∧
      (∀ i, decode w = .ok i → (i.needsContext = true → s.ctx.valid = true) →
        t = { s with cmd := w, done := false, es := .run none, inputs := rest })

/-- Rule R53, with rule R60: nothing the host reads or writes between issue and completion changes what the command
computes: after any host accesses the engine's turn gives what it gives at once, but for `OVR` (set iff a write to
`CMD` or to a data register was among them) and the values read.
The order of accesses and of the engine's
turn is the timeline's (logs 1, 9, 21). -/
def Obligations.HostAccessesDoNotDisturbARun : Prop :=
  ∀ (s : State) (hs rest : List Event), s.es = .run none → (∀ e ∈ hs, e.isHostAccess = true) →
    ∃ values : List Word,
      Sys2Proof.core.run (hs.length + 1) { s with inputs := hs ++ .engine :: rest } =
        mapNext (fun t => { t with ovr := s.ovr || hs.any Event.isDropped, reads := values ++ t.reads })
          (step { s with inputs := .engine :: rest })

/-- Rule R53: the three cases of a host write.
A write is an event of the timeline (log 1). -/
def Obligations.HostWriteIsAcceptedDroppedOrIgnored : Prop :=
  ∀ (s : State) (idx : Index) (v : Word) (rest : List Event),
    (idx = 0 → s.es = .idle → step { s with inputs := .write idx v :: rest } = .next ({ s with inputs := rest }.issue v) ∧
      ({ s with inputs := rest }.issue v).cmd = v) ∧
    (∀ r : Reg, idx.toNat = 8 + r.val → s.es = .idle →
      step { s with inputs := .write idx v :: rest } = .next ({ s with inputs := rest }.setX r v)) ∧
    ((idx = 0 ∨ (8 ≤ idx.toNat ∧ idx.toNat ≤ 15)) → s.es ≠ .idle →
      step { s with inputs := .write idx v :: rest } = .next { s with inputs := rest, ovr := true }) ∧
    (idx ≠ 0 → ¬ (8 ≤ idx.toNat ∧ idx.toNat ≤ 15) →
      step { s with inputs := .write idx v :: rest } = .next { s with inputs := rest })

/-- Rule R52: a host read is allowed in every engine state and changes no state of the block; the host gets the
register's value (noted in the model's own `reads`).
Logs 1 and 13. -/
def Obligations.HostReadHasNoSideEffect : Prop :=
  ∀ (s : State) (idx : Index) (rest : List Event),
    step { s with inputs := .read idx :: rest } =
      .next { s with inputs := rest, reads := s.hostRead idx :: s.reads }

/-- Rules R25 to R30, R51: what each index reads. -/
def Obligations.HostReadMap : Prop :=
  ∀ s : State, s.hostRead 0x00 = s.cmd ∧
    (s.hostRead 0x02).toNat = s.cause.toNat ∧
    (s.hostRead 0x03).toNat = s.ctx.qNat ∧ (s.hostRead 0x04).toNat = s.ctx.logqNat ∧
    (s.hostRead 0x05).toNat = s.ctx.muNat % 2 ^ 64 ∧ (s.hostRead 0x06).toNat = s.ctx.muNat / 2 ^ 64 ∧
    s.hostRead 0x07 = s.fcmd ∧
    (∀ r : Reg, s.hostRead (BitVec.ofNat 6 (8 + r.val)) = s.x r) ∧
    (∀ idx : Index, 0x10 ≤ idx.toNat → s.hostRead idx = 0)

/-- Rule R26: the bits of `STATUS`, and rule R33: the three outputs copy three of them. -/
def Obligations.StatusBits : Prop :=
  ∀ s : State,
    ((s.hostRead 0x01).getLsbD 0 = true ↔ ∃ r, s.es = .run r) ∧ (s.hostRead 0x01).getLsbD 1 = s.done ∧
    ((s.hostRead 0x01).getLsbD 2 = true ↔ s.es = .halted) ∧ (s.hostRead 0x01).getLsbD 3 = s.ctx.valid ∧
    ((s.hostRead 0x01).getLsbD 4 = true ↔ s.ctx.var = .b) ∧ (s.hostRead 0x01).getLsbD 5 = s.ovr ∧
    (∀ k, 6 ≤ k → (s.hostRead 0x01).getLsbD k = false) ∧
    s.outputs.busy = (s.hostRead 0x01).getLsbD 0 ∧ s.outputs.done = (s.hostRead 0x01).getLsbD 1 ∧
    s.outputs.fatal = (s.hostRead 0x01).getLsbD 2

/-- Rule R54: in a byte-addressed wrapper, the byte at offset `8*idx + j` is bits `[8j+7:8j]` of register `idx`. -/
def Obligations.WrapperIsLittleEndian : Prop :=
  ∀ (s : State) (idx : Index) (j : Nat), j < 8 →
    s.wrapperByte (BitVec.ofNat 9 (8 * idx.toNat + j)) = (s.hostRead idx).extractLsb' (8 * j) 8

/-! ### Reset (70_reset_and_hazards.md) -/

/-- Rules R37, R231: the reset state: registers 0, `IDLE`, no context, every host index reads 0, the outputs are low. -/
def Obligations.ResetStateIsAllZero : Prop :=
  (∀ r : Reg, State.reset.x r = 0) ∧ State.reset.es = .idle ∧ State.reset.ctx = Context.none ∧
  (∀ idx : Index, State.reset.hostRead idx = 0) ∧ State.reset.outputs = ⟨false, false, false⟩

/-- Rules R230, R232: reset in any engine state, a command in progress included, puts every piece of host-visible
state to its reset value and abandons the command and its request; an answer that arrives after it has no effect.
Reset and answers are events of the timeline (logs 1, 4). -/
def Obligations.ResetFromEveryState : Prop :=
  ∀ (s : State) (rest : List Event), ∃ t, step { s with inputs := .reset :: rest } = .next t ∧
    t.regs = State.reset.regs ∧ t.es = .idle ∧ t.ctx = Context.none ∧ t.cmd = 0 ∧ t.done = false ∧ t.ovr = false ∧
    t.cause = 0 ∧ t.fcmd = 0 ∧ t.inputs = rest ∧
    (∀ (b : Bool) (more : List Event), step { t with inputs := .primeAnswer b :: more } = .next { t with inputs := more }) ∧
    (∀ (fs : FactorSet) (more : List Event),
      step { t with inputs := .factorAnswer fs :: more } = .next { t with inputs := more })

/-! ### Invariants -/

/-- The reset state meets the invariant. -/
def Obligations.ResetMeetsTheInvariant : Prop := State.reset.Inv

/-- Every step keeps the invariant: rules R22, R24, R26, R27, R28 over the whole machine.
The events a step takes are the
model's (log 1). -/
def Obligations.EveryStepKeepsTheInvariant : Prop :=
  ∀ s t : State, s.Inv → step s = .next t → t.Inv

/-- The model stops in no state that meets the invariant: every step has a next state.
That the model has a fault
there at all, and that the invariant excludes it, is the model's choice (log 12). -/
def Obligations.NoStepStops : Prop := ∀ s : State, s.Inv → ∃ t, step s = .next t

/-- Rule R26: at most one of `BUSY`, `DONE`, `FATAL` is 1, and `CAUSE` and `FCMD` read 0 unless `FATAL` is (R27, R28). -/
def Obligations.StatusFlagsExcludeEachOther : Prop :=
  ∀ s : State, s.Inv →
    ¬ (s.busy = true ∧ s.done = true) ∧ ¬ (s.done = true ∧ s.isFatal = true) ∧ ¬ (s.busy = true ∧ s.isFatal = true) ∧
    (s.isFatal = false → s.hostRead 0x02 = 0 ∧ s.hostRead 0x07 = 0)

/-- Rule R24: what a constructed context holds. -/
def Obligations.ContextBounds : Prop :=
  ∀ c : Context, c.usable →
    2 ≤ c.qNat ∧ c.qNat ≤ 2 ^ 63 - 1 ∧ c.logqNat = bitlen c.qNat ∧ 2 ≤ c.logqNat ∧ c.logqNat ≤ 63 ∧
    c.muNat = 2 ^ (2 * c.logqNat) / c.qNat ∧ 2 ^ c.logqNat < c.muNat ∧ c.muNat ≤ 2 ^ (c.logqNat + 1) ∧
    2 ^ (c.logqNat + 1) ≤ 2 ^ 64 ∧
    (c.muNat = 2 ^ (c.logqNat + 1) ↔ c.qNat = 2 ^ (c.logqNat - 1)) ∧ (c.muNat = 2 ^ 64 ↔ c.qNat = 2 ^ 62)

/-- Rule R205: in `HALTED` reads work as always, writes to `CMD` and to data registers are dropped and set `OVR`, no
command runs, and the data registers, the context, `CMD`, `CAUSE` and `FCMD` never change; only reset leaves it, and it
clears everything the host can see. Host accesses and reset are events of the timeline (log 1). -/
def Obligations.OnlyResetLeavesHalted : Prop :=
  ∀ s : State, s.es = .halted →
    ∃ t, step s = .next t ∧
      ((∃ rest, s.inputs = .reset :: rest ∧ t.es = .idle ∧ t.regs = State.reset.regs ∧ t.ctx = Context.none ∧
          t.inputs = rest ∧ ∀ idx : Index, t.hostRead idx = 0) ∨
        (t.es = .halted ∧ t.regs = s.regs ∧ t.ctx = s.ctx ∧ t.cmd = s.cmd ∧ t.cause = s.cause ∧ t.fcmd = s.fcmd ∧
         t.done = s.done ∧ t.requests = s.requests ∧
         (∀ e rest, s.inputs = e :: rest → t.inputs = rest ∧ t.ovr = (s.ovr || e.isDropped)) ∧
         (∀ idx rest, s.inputs = .read idx :: rest → t.reads = s.hostRead idx :: s.reads)))

/-! ### Faults (60_exceptions.md) -/

/-- Rule R204, the fault entry, with the cause codes of rule R201: exactly these changes; the `fatal` output goes high. -/
def Obligations.FatalEntryRecordsCauseAndCommand : Prop :=
  ∀ (s : State) (code : FatalCode),
    (s.fatal code).es = .halted ∧ (s.fatal code).fcmd = s.cmd ∧
    (s.fatal code).cause = (match code with
      | .ctxRange => 1 | .illegalCmd => 2 | .noCtx => 3 | .searchRange => 4 | .divZero => 5) ∧
    (s.fatal code).done = s.done ∧ (s.fatal code).regs = s.regs ∧ (s.fatal code).ctx = s.ctx ∧
    (s.fatal code).ovr = s.ovr ∧ (s.fatal code).cmd = s.cmd ∧ (s.fatal code).inputs = s.inputs ∧
    (s.fatal code).reads = s.reads ∧ (s.fatal code).requests = s.requests ∧
    (s.fatal code).outputs = ⟨false, s.done, true⟩

/-- Rules R100, R202: a command that needs a context raises `NO_CTX` without one, and asks no collaborator. -/
def Obligations.NoContextTraps : Prop :=
  ∀ (i : Instr) (s : State), s.begins → i.needsContext = true → s.ctx.valid = false →
    Faults i s .noCtx s.inputs []

/-- Rule R202: which command can halt the engine with which cause, in every state, one that resumes a waiting search
included; and a step that halts the engine does so for a value that is no command (`ILLEGAL_CMD`) or for the command
in `CMD`, with a cause that command can raise. A step takes an event (log 1). -/
def Obligations.WhoRaisesWhat : Prop :=
  (∀ (i : Instr) (s t : State), exec i s = .next t → t.es = .halted →
    ∃ code, t.cause = causeCode code ∧ mayRaise i s code) ∧
  (∀ s t : State, step s = .next t → s.es ≠ .halted → t.es = .halted →
    (t.cause = causeCode .illegalCmd ∧ ∃ reason, decode t.cmd = .error reason) ∨
    ∃ i code, decode t.cmd = .ok i ∧ t.cause = causeCode code ∧ mayRaise i s code)

/-- Rule R202: "Every arithmetic command is total once it is accepted": with a context present it completes normally,
whatever its operands. -/
def Obligations.ArithmeticIsTotal : Prop :=
  ∀ (i : Instr) (s : State) (rd : Reg), s.begins → s.ctx.valid = true → i.needsContext = true →
    usesFactorPort i = false → destOf i = some rd → ∃ v, Completes i s rd v

/-! ### Frames -/

/-- Rules R21, R95, R204: whatever a command does, it changes no data register but its destination, no context but by
`CTXINIT`, never `CMD` or `OVR`, and `CAUSE` and `FCMD` only by a fault; a command that faults changes neither a data
register nor the context. -/
def Obligations.CommandFrame : Prop :=
  ∀ (i : Instr) (s t : State), exec i s = .next t →
    (∀ r : Reg, destOf i ≠ some r → t.x r = s.x r) ∧
    ((∀ rs1 v, i ≠ .ctxinit rs1 v) → t.ctx = s.ctx) ∧ t.cmd = s.cmd ∧ t.ovr = s.ovr ∧ t.reads = s.reads ∧
    (t.es ≠ .halted → t.cause = s.cause ∧ t.fcmd = s.fcmd) ∧
    (t.es = .halted → t.regs = s.regs ∧ t.ctx = s.ctx ∧ t.done = s.done ∧ t.fcmd = s.cmd) ∧
    (∃ taken, s.inputs = taken ++ t.inputs) ∧ (∃ sent, t.requests = sent ++ s.requests) ∧
    (usesPrimePort i = false → usesFactorPort i = false → t.inputs = s.inputs ∧ t.requests = s.requests)

/-- Rules R31, R32: no command reads a hidden register it has not written: the hidden registers' content when a
command begins changes nothing but hidden registers.
Their values there are the
model's (logs 6, 7). -/
def Obligations.HiddenRegistersAreNeverRead : Prop :=
  ∀ (i : Instr) (s : State) (p : PowUnit) (u : SearchUnit), s.begins →
    mapNext State.blankHidden (exec i { s with pow := p, search := u }) = mapNext State.blankHidden (exec i s)

/-- Rule R82: each in-place twin is its value form with `RD = RS1`, in every effect. -/
def Obligations.InPlaceTwinsAreTheValueForms : Prop :=
  ∀ (s : State) (rs1 rs2 : Reg),
    exec (.negIp rs1) s = exec (.neg rs1 rs1) s ∧ exec (.sqrIp rs1) s = exec (.sqr rs1 rs1) s ∧
    exec (.invIp rs1) s = exec (.inv rs1 rs1) s ∧ exec (.addIp rs1 rs2) s = exec (.add rs1 rs1 rs2) s ∧
    exec (.subIp rs1 rs2) s = exec (.sub rs1 rs1 rs2) s ∧ exec (.mulIp rs1 rs2) s = exec (.mul rs1 rs1 rs2) s ∧
    exec (.powIp rs1 rs2) s = exec (.pow rs1 rs1 rs2) s

/-! ### CTXINIT (40_context.md) -/

/-- Rules R90, R91, R93: in range, the five context fields change together and the command completes; out of range it
raises `CTX_RANGE` and the context stays. -/
def Obligations.CtxinitBuildsTheContext : Prop :=
  ∀ (s : State) (rs1 : Reg) (v : Variant), s.begins →
    (2 ≤ (s.x rs1).toNat → (s.x rs1).toNat < 2 ^ 63 →
      ∃ t, exec (.ctxinit rs1 v) s = .next t ∧ t.ctx.qNat = (s.x rs1).toNat ∧
        t.ctx.logqNat = bitlen (s.x rs1).toNat ∧
        t.ctx.muNat = 2 ^ (2 * bitlen (s.x rs1).toNat) / (s.x rs1).toNat ∧ t.ctx.var = v ∧ t.ctx.valid = true ∧
        t.es = .idle ∧ t.done = true ∧ t.regs = s.regs ∧ t.cmd = s.cmd ∧ t.ovr = s.ovr ∧ t.cause = s.cause ∧
        t.fcmd = s.fcmd ∧ t.inputs = s.inputs ∧ t.reads = s.reads ∧ t.requests = s.requests) ∧
    ((s.x rs1).toNat < 2 ∨ 2 ^ 63 ≤ (s.x rs1).toNat → Faults (.ctxinit rs1 v) s .ctxRange s.inputs [])

/-- Rule R92: the context a `CTXINIT` builds holds the bit length of `q` in `LOGQ`: the `k` with `2^(k-1) <= q < 2^k`,
between 2 and 63 for a legal modulus, `j + 1` for `q = 2^j`. -/
def Obligations.LogqIsTheBitLength : Prop :=
  (∀ (q : Word) (v : Variant), 2 ≤ q.toNat → q.toNat < 2 ^ 63 →
    ∃ c, buildContext q v = .ok c ∧ c.logqNat = bitlen q.toNat) ∧
  (∀ q : Nat, 2 ≤ q → q < 2 ^ 63 →
    2 ^ (bitlen q - 1) ≤ q ∧ q < 2 ^ bitlen q ∧ 2 ≤ bitlen q ∧ bitlen q ≤ 63) ∧
  (∀ j : Nat, bitlen (2 ^ j) = j + 1)

/-! ### Additive commands (41_additive.md) -/

/-- Rules R101, R102: `NEG` and `NEG.IP` give `Q - a` when `a <= Q` (so `Q` for 0) and wrap modulo `2^64` when `a > Q`. -/
def Obligations.NegateResult : Prop :=
  ∀ (s : State) (rd rs1 : Reg), s.begins → s.ctx.valid = true →
    ∃ v : Word, Completes (.neg rd rs1) s rd v ∧ Completes (.negIp rs1) s rs1 v ∧
      v.toNat = (if (s.x rs1).toNat ≤ s.ctx.qNat then s.ctx.qNat - (s.x rs1).toNat
                 else 2 ^ 64 + s.ctx.qNat - (s.x rs1).toNat)

/-- Rules R103, R104: `ADD` and `ADD.IP`: one subtraction of `Q` iff the sum is at least `Q`; the sum modulo `Q` when it
is below `2Q`; where the sum leaves 64 bits they still complete, with some value.
That value is free (log 5). -/
def Obligations.AddResult : Prop :=
  ∀ (s : State) (rd rs1 rs2 : Reg), s.begins → s.ctx.valid = true →
    ∃ v : Word, Completes (.add rd rs1 rs2) s rd v ∧ Completes (.addIp rs1 rs2) s rs1 v ∧
      ((s.x rs1).toNat + (s.x rs2).toNat < 2 ^ 64 →
        v.toNat = (if s.ctx.qNat ≤ (s.x rs1).toNat + (s.x rs2).toNat
          then (s.x rs1).toNat + (s.x rs2).toNat - s.ctx.qNat else (s.x rs1).toNat + (s.x rs2).toNat)) ∧
      ((s.x rs1).toNat + (s.x rs2).toNat < 2 * s.ctx.qNat →
        v.toNat = ((s.x rs1).toNat + (s.x rs2).toNat) % s.ctx.qNat)

/-- Rules R105, R106: `SUB` and `SUB.IP`: `a - b`, or `(Q + a) - b` when `a < b`, on the defined domain; the difference
modulo `Q` on residues; elsewhere they still complete, with some value.
That value is free (log 5). -/
def Obligations.SubResult : Prop :=
  ∀ (s : State) (rd rs1 rs2 : Reg), s.begins → s.ctx.valid = true →
    ∃ v : Word, Completes (.sub rd rs1 rs2) s rd v ∧ Completes (.subIp rs1 rs2) s rs1 v ∧
      ((s.x rs2).toNat ≤ (s.x rs1).toNat → v.toNat = (s.x rs1).toNat - (s.x rs2).toNat) ∧
      ((s.x rs1).toNat < (s.x rs2).toNat → s.ctx.qNat + (s.x rs1).toNat < 2 ^ 64 →
        (s.x rs2).toNat ≤ s.ctx.qNat + (s.x rs1).toNat →
        v.toNat = s.ctx.qNat + (s.x rs1).toNat - (s.x rs2).toNat) ∧
      ((s.x rs1).toNat < s.ctx.qNat → (s.x rs2).toNat < s.ctx.qNat →
        v.toNat < s.ctx.qNat ∧ (v.toNat : ℤ) ≡ (s.x rs1).toNat - (s.x rs2).toNat [ZMOD s.ctx.qNat])

/-- Rule R108: the additive and subtractive group laws on residues. -/
def Obligations.AdditiveGroupLaws : Prop :=
  ∀ (c : Context) (a b : Word), a.toNat < c.qNat → b.toNat < c.qNat →
    (∃ n, negf c a = some n ∧ addf c a n = some 0 ∧ (n.toNat < c.qNat ↔ a ≠ 0)) ∧
    (∃ d, subf c a b = some d ∧ addf c b d = some a ∧ d.toNat < c.qNat) ∧
    (∃ sum, addf c a b = some sum ∧ sum.toNat < c.qNat)

/-- Rule R242: adding 0 to a negated 0 gives 0, and adding 0 leaves every residue unchanged. -/
def Obligations.AddingZeroRepairsNegatedZero : Prop :=
  ∀ c : Context, (∃ n, negf c 0 = some n ∧ n.toNat = c.qNat ∧ addf c n 0 = some 0) ∧
    ∀ a : Word, a.toNat < c.qNat → addf c a 0 = some a

/-! ### Barrett multiplication (42_barrett_mul.md) -/

/-- Rule R122 (a), (b): the quotient estimate never exceeds the quotient and is at most two below it, in both variants,
for every product below `Q^2`. -/
def Obligations.BarrettEstimateWithinTwo : Prop :=
  ∀ (c : Context) (p : Nat), c.usable → p < c.qNat ^ 2 →
    quotientEstimate c p ≤ p / c.qNat ∧ p / c.qNat ≤ quotientEstimate c p + 2 ∧
    remainderCandidate c p + quotientEstimate c p * c.qNat = p ∧
    remainderCandidate c p < 3 * c.qNat ∧ remainderCandidate c p < 2 ^ 65 ∧
    remainderCandidate c p % c.qNat = p % c.qNat

/-- Rule R122 (c): a deficit of two occurs in both variants, for primes too. -/
def Obligations.BarrettDeficitOfTwoOccurs : Prop :=
  (∃ c : Context, c.usable ∧ c.var = .a ∧ c.qNat = 491 ∧ c.qNat.Prime ∧
    483 * 490 / c.qNat = quotientEstimate c (483 * 490) + 2) ∧
  (∃ c : Context, c.usable ∧ c.var = .b ∧ c.qNat = 113 ∧ c.qNat.Prime ∧
    90 * 108 / c.qNat = quotientEstimate c (90 * 108) + 2)

/-- Rule R125: with two corrections the reduction is exact; with one, as the source's text has it, the result is the
remainder, the remainder plus `Q`, or the remainder plus `2Q - 2^64`, which needs `Q > 2^64 / 3`.
`NCORR = 1` is not installed
in the machine (log 10). -/
def Obligations.BarrettReductionResult : Prop :=
  ∀ (c : Context) (p : Nat), c.usable → p < c.qNat ^ 2 →
    barrett .two c p = p % c.qNat ∧
    (p / c.qNat ≤ quotientEstimate c p + 1 → barrett .one c p = p % c.qNat) ∧
    (p / c.qNat = quotientEstimate c p + 2 → remainderCandidate c p < 2 ^ 64 →
      barrett .one c p = p % c.qNat + c.qNat) ∧
    (p / c.qNat = quotientEstimate c p + 2 → 2 ^ 64 ≤ remainderCandidate c p →
      barrett .one c p = p % c.qNat + 2 * c.qNat - 2 ^ 64 ∧ barrett .one c p < c.qNat ∧
      barrett .one c p ≠ p % c.qNat ∧ 2 ^ 64 < 3 * c.qNat)

/-- Rules R126 to R129: `MUL`, `MUL.IP`, `SQR`, `SQR.IP` give the product modulo `Q` on residues; out of contract they
still complete, with some value.
That value is free (log 5). -/
def Obligations.MultiplyResult : Prop :=
  ∀ (s : State) (rd rs1 rs2 : Reg), s.begins → s.ctx.usable →
    (∃ v : Word, Completes (.mul rd rs1 rs2) s rd v ∧ Completes (.mulIp rs1 rs2) s rs1 v ∧
      ((s.x rs1).toNat < s.ctx.qNat → (s.x rs2).toNat < s.ctx.qNat →
        v.toNat = (s.x rs1).toNat * (s.x rs2).toNat % s.ctx.qNat)) ∧
    (∃ v : Word, Completes (.sqr rd rs1) s rd v ∧ Completes (.sqrIp rs1) s rs1 v ∧
      ((s.x rs1).toNat < s.ctx.qNat → v.toNat = (s.x rs1).toNat ^ 2 % s.ctx.qNat))

/-- Rule R131: the laws of the family on residues. -/
def Obligations.MultiplicationLaws : Prop :=
  ∀ (c : Context) (a b : Word), c.usable → a.toNat < c.qNat → b.toNat < c.qNat →
    mulf c a b = mulf c b a ∧ mulf c a 1 = some a ∧ mulf c a 0 = some 0 ∧ sqrf c a = mulf c a a ∧
    ∃ v, mulf c a b = some v ∧ v.toNat < c.qNat

/-- Rule R130: with two corrections no command tells the two variants apart: under the other variant it leaves the same
state, the variant bit apart, and no host read but that of `STATUS` shows the bit; with one correction the variants
differ (`Q = 113`), and the intermediate quotient estimates differ anyway. Derived: rule R130 speaks of `MULF` on
in-contract inputs; that the two next states agree out of contract and in the hidden registers rests on the model's
free values (logs 5, 7), and one correction is not installed in the machine (log 10). -/
def Obligations.VariantsAreIndistinguishable : Prop :=
  (∀ (i : Instr) (s : State) (v : Variant), s.ctx.usable → (∀ rs1 w, i ≠ .ctxinit rs1 w) →
    exec i { s with ctx := { s.ctx with var := v } } =
      mapNext (fun t => { t with ctx := { t.ctx with var := v } }) (exec i s)) ∧
  (∀ (s : State) (v : Variant) (idx : Index), idx ≠ 0x01 →
    ({ s with ctx := { s.ctx with var := v } } : State).hostRead idx = s.hostRead idx) ∧
  (∃ c : Context, c.usable ∧ c.qNat = 113 ∧
    barrett .one { c with var := .a } (90 * 108) = 2 ∧ barrett .one { c with var := .b } (90 * 108) = 115 ∧
    quotientEstimate { c with var := .a } (90 * 108) ≠ quotientEstimate { c with var := .b } (90 * 108))

/-! ### Exponentiation and inversion (43_pow_inv.md) -/

/-- Rules R141, R142: `POW` and `POW.IP` give `a^e mod Q` on a residue `a`, for every 64-bit `e` (1 for `e = 0`, also
when `a` is no residue); out of contract they still complete, with some value.
That value is free (logs 5, 11). -/
def Obligations.PowerResult : Prop :=
  ∀ (s : State) (rd rs1 rs2 : Reg), s.begins → s.ctx.usable →
    ∃ v : Word, Completes (.pow rd rs1 rs2) s rd v ∧ Completes (.powIp rs1 rs2) s rs1 v ∧
      ((s.x rs1).toNat < s.ctx.qNat → v.toNat = (s.x rs1).toNat ^ (s.x rs2).toNat % s.ctx.qNat) ∧
      (s.x rs2 = 0 → v = 1)

/-- Rules R145, R147, R148: `INV` and `INV.IP` give `a^(Q-2) mod Q` on a residue; it is the inverse when `Q` is prime and
`a` is not 0; 0 gives 0 for `Q >= 3`, and `Q = 2` gives 1 for every operand; never a fault. -/
def Obligations.InverseResult : Prop :=
  ∀ (s : State) (rd rs1 : Reg), s.begins → s.ctx.usable →
    ∃ v : Word, Completes (.inv rd rs1) s rd v ∧ Completes (.invIp rs1) s rs1 v ∧
      ((s.x rs1).toNat < s.ctx.qNat → v.toNat = (s.x rs1).toNat ^ (s.ctx.qNat - 2) % s.ctx.qNat) ∧
      (s.ctx.qNat.Prime → 0 < (s.x rs1).toNat → (s.x rs1).toNat < s.ctx.qNat →
        (s.x rs1).toNat * v.toNat % s.ctx.qNat = 1) ∧
      (s.x rs1 = 0 → 3 ≤ s.ctx.qNat → v = 0) ∧ (s.ctx.qNat = 2 → v = 1)

/-! ### Prime searches (44_prime_search.md) -/

/-- Rules R162, R164 to R167: a search whose first `k` candidates are answered false and whose next is answered true
completes with that candidate in `rd`, having asked once for each candidate in order.
That answers are
events, taken in one step while they are at hand, is the model's choice (logs 4, 21). -/
def Obligations.PrimeSearchCompletes : Prop :=
  ∀ (i : Instr) (s : State) (d : Direction) (rd : Reg) (first step k : Nat) (rest : List Event),
    s.begins → SearchStarts i s d rd first step → inRange d first step k →
    s.inputs = List.replicate k (.primeAnswer false) ++ .primeAnswer true :: rest →
    CompletesWith i s rd (BitVec.ofNat 64 (candidate d first step k)) rest (primeRequests d first step (k + 1))

/-- Rules R34, R248: a search whose first `k` candidates are answered false, with no further answer at hand, waits in
`RUN` with the next candidate's request outstanding, its destination not written; with `n = 0` for every `k` (R169).
The model's form of
waiting: logs 4, 21. -/
def Obligations.PrimeSearchWaits : Prop :=
  ∀ (i : Instr) (s : State) (d : Direction) (rd : Reg) (first step k : Nat) (rest : List Event),
    s.begins → SearchStarts i s d rd first step → inRange d first step k →
    s.inputs = List.replicate k (.primeAnswer false) ++ rest → primeAnswerNext rest = false →
    Waits i s (.prime (BitVec.ofNat 64 (candidate d first step k))) rest (primeRequests d first step (k + 1))

/-- Rules R161, R164 to R167: a search whose last representable candidate is answered false raises `SEARCH_RANGE` and
writes nothing.
Answers are events (logs 4, 21). -/
def Obligations.PrimeSearchRunsOutOfRange : Prop :=
  ∀ (i : Instr) (s : State) (d : Direction) (rd : Reg) (first step k : Nat) (rest : List Event),
    s.begins → SearchStarts i s d rd first step → inRange d first step k → ¬ inRange d first step (k + 1) →
    s.inputs = List.replicate (k + 1) (.primeAnswer false) ++ rest →
    Faults i s .searchRange rest (primeRequests d first step (k + 1))

/-- Rule R161: the checks at a search's start: `2n`, `2^bitlength + 1` or the first candidate not representable raises
`SEARCH_RANGE` before any request. -/
def Obligations.PrimeSearchStartChecks : Prop :=
  ∀ (s : State) (rd rs1 rs2 : Reg), s.begins →
    (2 ^ 64 ≤ 2 * (s.x rs2).toNat ∨ 64 ≤ (s.x rs1).toNat → Faults (.ffpu rd rs1 rs2) s .searchRange s.inputs []) ∧
    (2 ^ 64 ≤ 2 * (s.x rs2).toNat ∨ 2 ^ 64 ≤ (s.x rs1).toNat + 2 * (s.x rs2).toNat →
      Faults (.fnpu rd rs1 rs2) s .searchRange s.inputs []) ∧
    (2 ^ 64 ≤ 2 * (s.x rs2).toNat ∨ 64 ≤ (s.x rs1).toNat ∨
        2 ^ (s.x rs1).toNat + 1 < 2 * (s.x rs2).toNat → Faults (.ffpd rd rs1 rs2) s .searchRange s.inputs []) ∧
    (2 ^ 64 ≤ 2 * (s.x rs2).toNat ∨ (s.x rs1).toNat < 2 * (s.x rs2).toNat →
      Faults (.fnpd rd rs1 rs2) s .searchRange s.inputs [])

/-- Rule R168 (1), (2), (3) under `OA1`: with an honest collaborator, a completed search holds a prime of the
progression, every earlier member is composite, and the result is congruent to the first candidate modulo the step.
Answers are
events (logs 4, 21). -/
def Obligations.HonestSearchFindsTheFirstPrime : Prop :=
  ∀ (isPrime : Word → Bool), PrimalityHonest isPrime →
  ∀ (i : Instr) (s t : State) (d : Direction) (rd : Reg) (first step m : Nat) (rest : List Event),
    s.begins → SearchStarts i s d rd first step → inRange d first step m →
    s.inputs = answersOf isPrime d first step (m + 1) rest → exec i s = .next t → t.es = .idle →
    (∀ e ∈ rest, primeAnswerNext [e] = false) →
    (t.x rd).toNat.Prime ∧ (t.x rd).toNat ≡ first [MOD step] ∧
    ∃ k ≤ m, (t.x rd).toNat = candidate d first step k ∧ ∀ j < k, ¬ (candidate d first step j).Prime

/-- Rule R169: with `n >= 1` a search ends after fewer than `2^64 / (2n)` steps: once that many answers are at hand it
has completed or raised `SEARCH_RANGE`; with `n = 0` answers false leave it waiting for the same candidate.
Answers
are events (logs 4, 21). -/
def Obligations.PrimeSearchTermination : Prop :=
  ∀ (i : Instr) (s : State) (d : Direction) (rd : Reg) (first step m : Nat),
    s.begins → SearchStarts i s d rd first step →
    (∀ answers : List Bool, 0 < step → 2 ^ 64 ≤ answers.length * step →
      s.inputs = answers.map Event.primeAnswer →
      ∃ t, exec i s = .next t ∧ (t.es = .idle ∨ (t.es = .halted ∧ t.cause = causeCode .searchRange))) ∧
    (step = 0 → s.inputs = List.replicate m (.primeAnswer false) →
      ∃ t, exec i s = .next t ∧ t.es = .run (some (.prime (BitVec.ofNat 64 first))) ∧ t.regs = s.regs ∧
        t.done = s.done)

/-- Rules R34, R161, R162, R248: each of the four prime searches that waits goes on with the next answer. True: it
completes with `CAND`. False: it stands at the candidate one step up or down, that request sent, and takes the answers
that come next; or it raises `SEARCH_RANGE` where the step leaves `[0, 2^64)`. Whatever request is outstanding, a host
access, the engine's turn and an answer of the other port leave the command waiting; only `OVR` and the values read
tell. Answers and accesses are events (logs 1, 4, 21). -/
def Obligations.WaitingSearchResumes : Prop :=
  (∀ (s : State) (i : Instr) (d : Direction) (rd : Reg) (rest : List Event),
    s.es = .run (some (.prime s.search.cand)) → decode s.cmd = .ok i → primeSearchOf i = some (d, rd) →
    (∃ t, step { s with inputs := .primeAnswer true :: rest } = .next t ∧ t.x rd = s.search.cand ∧ t.es = .idle ∧
      t.done = true ∧ t.inputs = rest ∧ t.requests = s.requests ∧ SameButResult s t rd) ∧
    (∀ c, stepsTo d s.search.cand.toNat s.search.step.toNat c →
      step { s with inputs := .primeAnswer false :: rest } =
        (if primeAnswerNext rest then step (s.standingAt c rest) else .next (s.standingAt c rest))) ∧
    (leavesRange d s.search.cand.toNat s.search.step.toNat →
      ∃ t, step { s with inputs := .primeAnswer false :: rest } = .next t ∧ t.es = .halted ∧
        t.cause = causeCode .searchRange ∧ t.fcmd = s.cmd ∧ t.regs = s.regs ∧ t.ctx = s.ctx ∧ t.cmd = s.cmd ∧
        t.ovr = s.ovr ∧ t.done = s.done ∧ t.reads = s.reads ∧ t.inputs = rest ∧ t.requests = s.requests)) ∧
  (∀ (s : State) (r : Request) (rest : List Event), s.es = .run (some r) →
    (∀ idx, step { s with inputs := .read idx :: rest } =
      .next { s with inputs := rest, reads := s.hostRead idx :: s.reads }) ∧
    (∀ e : Event, e.isHostAccess = true → (∀ idx, e ≠ .read idx) → step { s with inputs := e :: rest } =
      .next { s with inputs := rest, ovr := s.ovr || e.isDropped }) ∧
    step { s with inputs := .engine :: rest } = .next { s with inputs := rest } ∧
    step { s with inputs := [] } = .next { s with inputs := [] } ∧
    (∀ b, (Event.primeAnswer b).answers r = false →
      step { s with inputs := .primeAnswer b :: rest } = .next { s with inputs := rest }) ∧
    (∀ fs, (Event.factorAnswer fs).answers r = false →
      step { s with inputs := .factorAnswer fs :: rest } = .next { s with inputs := rest }))

/-! ### Generator searches (45_generator_search.md) -/

/-- Rules R35, R182, R183: without an answer of the FACTOR port at hand, `FPR`, and `FGEN` with an operand that passes
its checks, send the one request `factor(Q - 1)` and wait in `RUN`.
The model's form of waiting:
logs 4, 21. -/
def Obligations.GeneratorSearchWaits : Prop :=
  ∀ (s : State) (rd rs1 : Reg), s.begins → s.ctx.usable → factorAnswerNext s.inputs = false →
    Waits (.fpr rd) s (.factor (BitVec.ofNat 64 (s.ctx.qNat - 1))) s.inputs
      [.factor (BitVec.ofNat 64 (s.ctx.qNat - 1))] ∧
    (1 ≤ (s.x rs1).toNat → 2 * (s.x rs1).toNat < 2 ^ 64 →
      Waits (.fgen rd rs1) s (.factor (BitVec.ofNat 64 (s.ctx.qNat - 1))) s.inputs
        [.factor (BitVec.ofNat 64 (s.ctx.qNat - 1))])

/-- Rules R183, R203: the operand checks of `FGEN`, before the `factor` request. -/
def Obligations.FgenOperandChecks : Prop :=
  ∀ (s : State) (rd rs1 : Reg), s.begins → s.ctx.valid = true →
    (s.x rs1 = 0 → Faults (.fgen rd rs1) s .divZero s.inputs []) ∧
    (2 ^ 64 ≤ 2 * (s.x rs1).toNat → Faults (.fgen rd rs1) s .searchRange s.inputs [])

/-- Rule R180: an answer that holds a zero prime raises `DIV_ZERO`, in `FPR` and in `FGEN`.
Answers are events (logs 4, 21). -/
def Obligations.ZeroPrimeTraps : Prop :=
  ∀ (s : State) (rd rs1 : Reg) (fs : FactorSet) (rest : List Event) (e : Nat), s.begins → s.ctx.valid = true →
    s.inputs = .factorAnswer fs :: rest → ((0 : Word), e) ∈ fs →
    Faults (.fpr rd) s .divZero rest [.factor (BitVec.ofNat 64 (s.ctx.qNat - 1))] ∧
    (1 ≤ (s.x rs1).toNat → 2 * (s.x rs1).toNat < 2 ^ 64 →
      Faults (.fgen rd rs1) s .divZero rest [.factor (BitVec.ofNat 64 (s.ctx.qNat - 1))])

/-- Rule R181 under `OA2`: with `Q` prime, `Q >= 3`, `FPR` completes with the smallest primitive root of `Q` that is at
least 2, having made exactly one `factor` request.
Answers are events (logs 4, 21). -/
def Obligations.FprFindsTheSmallestPrimitiveRoot : Prop :=
  ∀ (s : State) (rd : Reg) (fs : FactorSet) (rest : List Event), s.begins → s.ctx.usable →
    s.ctx.qNat.Prime → 3 ≤ s.ctx.qNat → s.inputs = .factorAnswer fs :: rest → FactorsOf (s.ctx.qNat - 1) fs →
    ∃ g : Word, CompletesWith (.fpr rd) s rd g rest [.factor (BitVec.ofNat 64 (s.ctx.qNat - 1))] ∧
      2 ≤ g.toNat ∧ g.toNat < s.ctx.qNat ∧ orderOf (g.toNat : ZMod s.ctx.qNat) = s.ctx.qNat - 1 ∧
      ∀ r : Nat, 2 ≤ r → r < g.toNat → orderOf (r : ZMod s.ctx.qNat) ≠ s.ctx.qNat - 1

/-- Rules R183, R185, R186 under `OA2`: for every modulus, prime or not, `FPR` completes, for `Q = 2` with the value 2;
and `FGEN` with an operand that passes its checks completes with `g0^((Q-1) div 2n) mod Q` for the `g0` that `FPR` gives,
whether `2n` divides `Q - 1` or not (for `Q = 2` with 1).
Answers are events (logs 4, 21). -/
def Obligations.GeneratorSearchEndsForEveryModulus : Prop :=
  ∀ (s : State) (rd rs1 : Reg) (fs : FactorSet) (rest : List Event), s.begins → s.ctx.usable →
    s.inputs = .factorAnswer fs :: rest → FactorsOf (s.ctx.qNat - 1) fs →
    ∃ g0, CompletesWith (.fpr rd) s rd g0 rest [.factor (BitVec.ofNat 64 (s.ctx.qNat - 1))] ∧
      (s.ctx.qNat = 2 → g0 = 2) ∧
      (1 ≤ (s.x rs1).toNat → 2 * (s.x rs1).toNat < 2 ^ 64 →
        ∃ g, CompletesWith (.fgen rd rs1) s rd g rest [.factor (BitVec.ofNat 64 (s.ctx.qNat - 1))] ∧
          g.toNat = g0.toNat ^ ((s.ctx.qNat - 1) / (2 * (s.x rs1).toNat)) % s.ctx.qNat)

/-- Rule R184 (2) under `OA2`: with `Q` prime, `Q >= 3`, `n >= 1` and `2n` dividing `Q - 1`, `FGEN` completes with an
element of order exactly `2n`, whose `n`-th power is `Q - 1`.
Answers are events (logs 4, 21). -/
def Obligations.FgenFindsARootOfUnity : Prop :=
  ∀ (s : State) (rd rs1 : Reg) (fs : FactorSet) (rest : List Event), s.begins → s.ctx.usable →
    s.ctx.qNat.Prime → 3 ≤ s.ctx.qNat → s.inputs = .factorAnswer fs :: rest → FactorsOf (s.ctx.qNat - 1) fs →
    1 ≤ (s.x rs1).toNat → 2 * (s.x rs1).toNat ∣ s.ctx.qNat - 1 →
    ∃ g : Word, CompletesWith (.fgen rd rs1) s rd g rest [.factor (BitVec.ofNat 64 (s.ctx.qNat - 1))] ∧
      g.toNat < s.ctx.qNat ∧ orderOf (g.toNat : ZMod s.ctx.qNat) = 2 * (s.x rs1).toNat ∧
      g.toNat ^ (s.x rs1).toNat % s.ctx.qNat = s.ctx.qNat - 1

/-- Rule R180: only the set of primes enters the test: two answers with the same primes, in any order and with any
multiplicities, leave the same state.
Answers are events (logs 4, 16, 21). -/
def Obligations.OnlyTheSetOfPrimesMatters : Prop :=
  ∀ (s : State) (rd rs1 : Reg) (fs fs' : FactorSet) (rest : List Event), s.begins → s.ctx.valid = true →
    (∀ p : Word, (∃ e, (p, e) ∈ fs) ↔ (∃ e, (p, e) ∈ fs')) →
    exec (.fpr rd) { s with inputs := .factorAnswer fs :: rest } =
      exec (.fpr rd) { s with inputs := .factorAnswer fs' :: rest } ∧
    (fgenCheck (s.x rs1) = .ok () →
      exec (.fgen rd rs1) { s with inputs := .factorAnswer fs :: rest } =
        exec (.fgen rd rs1) { s with inputs := .factorAnswer fs' :: rest })

/-- Rules R34, R35, R180, R183, R248: an answer that comes late does what it does at hand. (1) A `FPR` or `FGEN` that
waits for its factorization leaves, on the answer, what the same command begun there leaves with that answer at hand,
but that the begun one sends its request anew: it completes, or raises `DIV_ZERO` or `SEARCH_RANGE`, as the statements
about the begun command say. (2) A command of any kind that waits with the timeline used up leaves, on the answer to its
request, what it leaves when begun with that answer on the timeline. Answers are events (logs 4, 21). -/
def Obligations.LateAnswersResumeWhatWasBegun : Prop :=
  (∀ (s : State) (i : Instr) (m : Word) (fs : FactorSet) (rest : List Event),
    s.Inv → s.es = .run (some (.factor m)) → decode s.cmd = .ok i →
    exec i { s with es := .run none, inputs := .factorAnswer fs :: rest } =
      mapNext (fun t => { t with requests := .factor m :: t.requests })
        (step { s with inputs := .factorAnswer fs :: rest })) ∧
  (∀ (s t : State) (i : Instr) (l rest : List Event) (r : Request) (e : Event),
    decode s.cmd = .ok i → exec i { s with inputs := l } = .next t → t.es = .run (some r) → t.inputs = [] →
    e.answers r = true →
    step { t with inputs := e :: rest } = exec i { s with inputs := l ++ e :: rest })
end

