-- ==== Sys2Proof/Laws/State.lean ====
section
/-! SUPPORT. One lemma per field per named update of the state, and the reads of the data registers. -/

namespace Sys2Proof.Machine

@[simp] theorem State.setX_regs (s : State) (r : Reg) (v : Word) : (s.setX r v).regs = s.regs.set r.val v := rfl
@[simp] theorem State.setX_es (s : State) (r : Reg) (v : Word) : (s.setX r v).es = s.es := rfl
@[simp] theorem State.setX_ctx (s : State) (r : Reg) (v : Word) : (s.setX r v).ctx = s.ctx := rfl
@[simp] theorem State.setX_cmd (s : State) (r : Reg) (v : Word) : (s.setX r v).cmd = s.cmd := rfl
@[simp] theorem State.setX_done (s : State) (r : Reg) (v : Word) : (s.setX r v).done = s.done := rfl
@[simp] theorem State.setX_ovr (s : State) (r : Reg) (v : Word) : (s.setX r v).ovr = s.ovr := rfl
@[simp] theorem State.setX_cause (s : State) (r : Reg) (v : Word) : (s.setX r v).cause = s.cause := rfl
@[simp] theorem State.setX_fcmd (s : State) (r : Reg) (v : Word) : (s.setX r v).fcmd = s.fcmd := rfl
@[simp] theorem State.setX_pow (s : State) (r : Reg) (v : Word) : (s.setX r v).pow = s.pow := rfl
@[simp] theorem State.setX_search (s : State) (r : Reg) (v : Word) : (s.setX r v).search = s.search := rfl
@[simp] theorem State.setX_draws (s : State) (r : Reg) (v : Word) : (s.setX r v).draws = s.draws := rfl
@[simp] theorem State.setX_inputs (s : State) (r : Reg) (v : Word) : (s.setX r v).inputs = s.inputs := rfl
@[simp] theorem State.setX_reads (s : State) (r : Reg) (v : Word) : (s.setX r v).reads = s.reads := rfl
@[simp] theorem State.setX_requests (s : State) (r : Reg) (v : Word) : (s.setX r v).requests = s.requests := rfl

@[simp] theorem State.releaseHidden_regs (s : State) : (s.releaseHidden).regs = s.regs := rfl
@[simp] theorem State.releaseHidden_es (s : State) : (s.releaseHidden).es = s.es := rfl
@[simp] theorem State.releaseHidden_ctx (s : State) : (s.releaseHidden).ctx = s.ctx := rfl
@[simp] theorem State.releaseHidden_cmd (s : State) : (s.releaseHidden).cmd = s.cmd := rfl
@[simp] theorem State.releaseHidden_done (s : State) : (s.releaseHidden).done = s.done := rfl
@[simp] theorem State.releaseHidden_ovr (s : State) : (s.releaseHidden).ovr = s.ovr := rfl
@[simp] theorem State.releaseHidden_cause (s : State) : (s.releaseHidden).cause = s.cause := rfl
@[simp] theorem State.releaseHidden_fcmd (s : State) : (s.releaseHidden).fcmd = s.fcmd := rfl
@[simp] theorem State.releaseHidden_draws (s : State) : (s.releaseHidden).draws = s.draws + 8 := rfl
@[simp] theorem State.releaseHidden_inputs (s : State) : (s.releaseHidden).inputs = s.inputs := rfl
@[simp] theorem State.releaseHidden_reads (s : State) : (s.releaseHidden).reads = s.reads := rfl
@[simp] theorem State.releaseHidden_requests (s : State) : (s.releaseHidden).requests = s.requests := rfl

@[simp] theorem State.fatal_regs (s : State) (code : FatalCode) : (s.fatal code).regs = s.regs := rfl
@[simp] theorem State.fatal_es (s : State) (code : FatalCode) : (s.fatal code).es = .halted := rfl
@[simp] theorem State.fatal_ctx (s : State) (code : FatalCode) : (s.fatal code).ctx = s.ctx := rfl
@[simp] theorem State.fatal_cmd (s : State) (code : FatalCode) : (s.fatal code).cmd = s.cmd := rfl
@[simp] theorem State.fatal_done (s : State) (code : FatalCode) : (s.fatal code).done = s.done := rfl
@[simp] theorem State.fatal_ovr (s : State) (code : FatalCode) : (s.fatal code).ovr = s.ovr := rfl
@[simp] theorem State.fatal_cause (s : State) (code : FatalCode) : (s.fatal code).cause = causeCode code := rfl
@[simp] theorem State.fatal_fcmd (s : State) (code : FatalCode) : (s.fatal code).fcmd = s.cmd := rfl
@[simp] theorem State.fatal_draws (s : State) (code : FatalCode) : (s.fatal code).draws = s.draws + 8 := rfl
@[simp] theorem State.fatal_inputs (s : State) (code : FatalCode) : (s.fatal code).inputs = s.inputs := rfl
@[simp] theorem State.fatal_reads (s : State) (code : FatalCode) : (s.fatal code).reads = s.reads := rfl
@[simp] theorem State.fatal_requests (s : State) (code : FatalCode) : (s.fatal code).requests = s.requests := rfl

@[simp] theorem State.complete_regs (s : State) : (s.complete).regs = s.regs := rfl
@[simp] theorem State.complete_es (s : State) : (s.complete).es = .idle := rfl
@[simp] theorem State.complete_ctx (s : State) : (s.complete).ctx = s.ctx := rfl
@[simp] theorem State.complete_cmd (s : State) : (s.complete).cmd = s.cmd := rfl
@[simp] theorem State.complete_done (s : State) : (s.complete).done = true := rfl
@[simp] theorem State.complete_ovr (s : State) : (s.complete).ovr = s.ovr := rfl
@[simp] theorem State.complete_cause (s : State) : (s.complete).cause = s.cause := rfl
@[simp] theorem State.complete_fcmd (s : State) : (s.complete).fcmd = s.fcmd := rfl
@[simp] theorem State.complete_draws (s : State) : (s.complete).draws = s.draws + 8 := rfl
@[simp] theorem State.complete_inputs (s : State) : (s.complete).inputs = s.inputs := rfl
@[simp] theorem State.complete_reads (s : State) : (s.complete).reads = s.reads := rfl
@[simp] theorem State.complete_requests (s : State) : (s.complete).requests = s.requests := rfl

@[simp] theorem State.ask_regs (s : State) (r : Request) : (s.ask r).regs = s.regs := rfl
@[simp] theorem State.ask_es (s : State) (r : Request) : (s.ask r).es = .run (some r) := rfl
@[simp] theorem State.ask_ctx (s : State) (r : Request) : (s.ask r).ctx = s.ctx := rfl
@[simp] theorem State.ask_cmd (s : State) (r : Request) : (s.ask r).cmd = s.cmd := rfl
@[simp] theorem State.ask_done (s : State) (r : Request) : (s.ask r).done = s.done := rfl
@[simp] theorem State.ask_ovr (s : State) (r : Request) : (s.ask r).ovr = s.ovr := rfl
@[simp] theorem State.ask_cause (s : State) (r : Request) : (s.ask r).cause = s.cause := rfl
@[simp] theorem State.ask_fcmd (s : State) (r : Request) : (s.ask r).fcmd = s.fcmd := rfl
@[simp] theorem State.ask_pow (s : State) (r : Request) : (s.ask r).pow = s.pow := rfl
@[simp] theorem State.ask_search (s : State) (r : Request) : (s.ask r).search = s.search := rfl
@[simp] theorem State.ask_draws (s : State) (r : Request) : (s.ask r).draws = s.draws := rfl
@[simp] theorem State.ask_inputs (s : State) (r : Request) : (s.ask r).inputs = s.inputs := rfl
@[simp] theorem State.ask_reads (s : State) (r : Request) : (s.ask r).reads = s.reads := rfl
@[simp] theorem State.ask_requests (s : State) (r : Request) : (s.ask r).requests = r :: s.requests := rfl

@[simp] theorem State.loadSearch_regs (s : State) (st : Start) : (s.loadSearch st).regs = s.regs := rfl
@[simp] theorem State.loadSearch_es (s : State) (st : Start) : (s.loadSearch st).es = s.es := rfl
@[simp] theorem State.loadSearch_ctx (s : State) (st : Start) : (s.loadSearch st).ctx = s.ctx := rfl
@[simp] theorem State.loadSearch_cmd (s : State) (st : Start) : (s.loadSearch st).cmd = s.cmd := rfl
@[simp] theorem State.loadSearch_done (s : State) (st : Start) : (s.loadSearch st).done = s.done := rfl
@[simp] theorem State.loadSearch_ovr (s : State) (st : Start) : (s.loadSearch st).ovr = s.ovr := rfl
@[simp] theorem State.loadSearch_cause (s : State) (st : Start) : (s.loadSearch st).cause = s.cause := rfl
@[simp] theorem State.loadSearch_fcmd (s : State) (st : Start) : (s.loadSearch st).fcmd = s.fcmd := rfl
@[simp] theorem State.loadSearch_pow (s : State) (st : Start) : (s.loadSearch st).pow = s.pow := rfl
@[simp] theorem State.loadSearch_search (s : State) (st : Start) : (s.loadSearch st).search = { s.search with cand := BitVec.ofNat 64 st.cand, step := BitVec.ofNat 64 st.step } := rfl
@[simp] theorem State.loadSearch_draws (s : State) (st : Start) : (s.loadSearch st).draws = s.draws := rfl
@[simp] theorem State.loadSearch_inputs (s : State) (st : Start) : (s.loadSearch st).inputs = s.inputs := rfl
@[simp] theorem State.loadSearch_reads (s : State) (st : Start) : (s.loadSearch st).reads = s.reads := rfl
@[simp] theorem State.loadSearch_requests (s : State) (st : Start) : (s.loadSearch st).requests = s.requests := rfl

@[simp] theorem State.setCand_regs (s : State) (cand : Nat) : (s.setCand cand).regs = s.regs := rfl
@[simp] theorem State.setCand_es (s : State) (cand : Nat) : (s.setCand cand).es = s.es := rfl
@[simp] theorem State.setCand_ctx (s : State) (cand : Nat) : (s.setCand cand).ctx = s.ctx := rfl
@[simp] theorem State.setCand_cmd (s : State) (cand : Nat) : (s.setCand cand).cmd = s.cmd := rfl
@[simp] theorem State.setCand_done (s : State) (cand : Nat) : (s.setCand cand).done = s.done := rfl
@[simp] theorem State.setCand_ovr (s : State) (cand : Nat) : (s.setCand cand).ovr = s.ovr := rfl
@[simp] theorem State.setCand_cause (s : State) (cand : Nat) : (s.setCand cand).cause = s.cause := rfl
@[simp] theorem State.setCand_fcmd (s : State) (cand : Nat) : (s.setCand cand).fcmd = s.fcmd := rfl
@[simp] theorem State.setCand_pow (s : State) (cand : Nat) : (s.setCand cand).pow = s.pow := rfl
@[simp] theorem State.setCand_search (s : State) (cand : Nat) : (s.setCand cand).search = { s.search with cand := BitVec.ofNat 64 cand } := rfl
@[simp] theorem State.setCand_draws (s : State) (cand : Nat) : (s.setCand cand).draws = s.draws := rfl
@[simp] theorem State.setCand_inputs (s : State) (cand : Nat) : (s.setCand cand).inputs = s.inputs := rfl
@[simp] theorem State.setCand_reads (s : State) (cand : Nat) : (s.setCand cand).reads = s.reads := rfl
@[simp] theorem State.setCand_requests (s : State) (cand : Nat) : (s.setCand cand).requests = s.requests := rfl

@[simp] theorem State.loadPhi_regs (s : State) : (s.loadPhi).regs = s.regs := rfl
@[simp] theorem State.loadPhi_es (s : State) : (s.loadPhi).es = s.es := rfl
@[simp] theorem State.loadPhi_ctx (s : State) : (s.loadPhi).ctx = s.ctx := rfl
@[simp] theorem State.loadPhi_cmd (s : State) : (s.loadPhi).cmd = s.cmd := rfl
@[simp] theorem State.loadPhi_done (s : State) : (s.loadPhi).done = s.done := rfl
@[simp] theorem State.loadPhi_ovr (s : State) : (s.loadPhi).ovr = s.ovr := rfl
@[simp] theorem State.loadPhi_cause (s : State) : (s.loadPhi).cause = s.cause := rfl
@[simp] theorem State.loadPhi_fcmd (s : State) : (s.loadPhi).fcmd = s.fcmd := rfl
@[simp] theorem State.loadPhi_pow (s : State) : (s.loadPhi).pow = s.pow := rfl
@[simp] theorem State.loadPhi_search (s : State) : (s.loadPhi).search = { s.search with phi := BitVec.ofNat 64 (s.ctx.qNat - 1) } := rfl
@[simp] theorem State.loadPhi_draws (s : State) : (s.loadPhi).draws = s.draws := rfl
@[simp] theorem State.loadPhi_inputs (s : State) : (s.loadPhi).inputs = s.inputs := rfl
@[simp] theorem State.loadPhi_reads (s : State) : (s.loadPhi).reads = s.reads := rfl
@[simp] theorem State.loadPhi_requests (s : State) : (s.loadPhi).requests = s.requests := rfl

@[simp] theorem State.accept_regs (s : State) (w : Word) : (s.accept w).regs = s.regs := rfl
@[simp] theorem State.accept_es (s : State) (w : Word) : (s.accept w).es = s.es := rfl
@[simp] theorem State.accept_ctx (s : State) (w : Word) : (s.accept w).ctx = s.ctx := rfl
@[simp] theorem State.accept_cmd (s : State) (w : Word) : (s.accept w).cmd = w := rfl
@[simp] theorem State.accept_done (s : State) (w : Word) : (s.accept w).done = false := rfl
@[simp] theorem State.accept_ovr (s : State) (w : Word) : (s.accept w).ovr = s.ovr := rfl
@[simp] theorem State.accept_cause (s : State) (w : Word) : (s.accept w).cause = s.cause := rfl
@[simp] theorem State.accept_fcmd (s : State) (w : Word) : (s.accept w).fcmd = s.fcmd := rfl
@[simp] theorem State.accept_pow (s : State) (w : Word) : (s.accept w).pow = s.pow := rfl
@[simp] theorem State.accept_search (s : State) (w : Word) : (s.accept w).search = s.search := rfl
@[simp] theorem State.accept_draws (s : State) (w : Word) : (s.accept w).draws = s.draws := rfl
@[simp] theorem State.accept_inputs (s : State) (w : Word) : (s.accept w).inputs = s.inputs := rfl
@[simp] theorem State.accept_reads (s : State) (w : Word) : (s.accept w).reads = s.reads := rfl
@[simp] theorem State.accept_requests (s : State) (w : Word) : (s.accept w).requests = s.requests := rfl

@[simp] theorem State.drop_regs (s : State) : (s.drop).regs = s.regs := rfl
@[simp] theorem State.drop_es (s : State) : (s.drop).es = s.es := rfl
@[simp] theorem State.drop_ctx (s : State) : (s.drop).ctx = s.ctx := rfl
@[simp] theorem State.drop_cmd (s : State) : (s.drop).cmd = s.cmd := rfl
@[simp] theorem State.drop_done (s : State) : (s.drop).done = s.done := rfl
@[simp] theorem State.drop_ovr (s : State) : (s.drop).ovr = true := rfl
@[simp] theorem State.drop_cause (s : State) : (s.drop).cause = s.cause := rfl
@[simp] theorem State.drop_fcmd (s : State) : (s.drop).fcmd = s.fcmd := rfl
@[simp] theorem State.drop_pow (s : State) : (s.drop).pow = s.pow := rfl
@[simp] theorem State.drop_search (s : State) : (s.drop).search = s.search := rfl
@[simp] theorem State.drop_draws (s : State) : (s.drop).draws = s.draws := rfl
@[simp] theorem State.drop_inputs (s : State) : (s.drop).inputs = s.inputs := rfl
@[simp] theorem State.drop_reads (s : State) : (s.drop).reads = s.reads := rfl
@[simp] theorem State.drop_requests (s : State) : (s.drop).requests = s.requests := rfl

@[simp] theorem State.resolved_regs (s : State) (v : Option Word) : (s.resolved v).regs = s.regs := by cases v <;> rfl
@[simp] theorem State.resolved_es (s : State) (v : Option Word) : (s.resolved v).es = s.es := by cases v <;> rfl
@[simp] theorem State.resolved_ctx (s : State) (v : Option Word) : (s.resolved v).ctx = s.ctx := by cases v <;> rfl
@[simp] theorem State.resolved_cmd (s : State) (v : Option Word) : (s.resolved v).cmd = s.cmd := by cases v <;> rfl
@[simp] theorem State.resolved_done (s : State) (v : Option Word) : (s.resolved v).done = s.done := by cases v <;> rfl
@[simp] theorem State.resolved_ovr (s : State) (v : Option Word) : (s.resolved v).ovr = s.ovr := by cases v <;> rfl
@[simp] theorem State.resolved_cause (s : State) (v : Option Word) : (s.resolved v).cause = s.cause := by cases v <;> rfl
@[simp] theorem State.resolved_fcmd (s : State) (v : Option Word) : (s.resolved v).fcmd = s.fcmd := by cases v <;> rfl
@[simp] theorem State.resolved_pow (s : State) (v : Option Word) : (s.resolved v).pow = s.pow := by cases v <;> rfl
@[simp] theorem State.resolved_search (s : State) (v : Option Word) : (s.resolved v).search = s.search := by cases v <;> rfl
@[simp] theorem State.resolved_inputs (s : State) (v : Option Word) : (s.resolved v).inputs = s.inputs := by cases v <;> rfl
@[simp] theorem State.resolved_reads (s : State) (v : Option Word) : (s.resolved v).reads = s.reads := by cases v <;> rfl
@[simp] theorem State.resolved_requests (s : State) (v : Option Word) : (s.resolved v).requests = s.requests := by cases v <;> rfl

@[simp] theorem State.resetEvent_regs (s : State) : s.resetEvent.regs = State.reset.regs := rfl
@[simp] theorem State.resetEvent_es (s : State) : s.resetEvent.es = State.reset.es := rfl
@[simp] theorem State.resetEvent_ctx (s : State) : s.resetEvent.ctx = State.reset.ctx := rfl
@[simp] theorem State.resetEvent_cmd (s : State) : s.resetEvent.cmd = State.reset.cmd := rfl
@[simp] theorem State.resetEvent_done (s : State) : s.resetEvent.done = State.reset.done := rfl
@[simp] theorem State.resetEvent_ovr (s : State) : s.resetEvent.ovr = State.reset.ovr := rfl
@[simp] theorem State.resetEvent_cause (s : State) : s.resetEvent.cause = State.reset.cause := rfl
@[simp] theorem State.resetEvent_fcmd (s : State) : s.resetEvent.fcmd = State.reset.fcmd := rfl
@[simp] theorem State.resetEvent_pow (s : State) : s.resetEvent.pow = State.reset.pow := rfl
@[simp] theorem State.resetEvent_search (s : State) : s.resetEvent.search = State.reset.search := rfl
@[simp] theorem State.resetEvent_draws (s : State) : s.resetEvent.draws = s.draws := rfl
@[simp] theorem State.resetEvent_inputs (s : State) : s.resetEvent.inputs = s.inputs := rfl
@[simp] theorem State.resetEvent_reads (s : State) : s.resetEvent.reads = s.reads := rfl
@[simp] theorem State.resetEvent_requests (s : State) : s.resetEvent.requests = s.requests := rfl

/-- Reading back a data register that was written. -/
@[simp] theorem State.x_setX_same (s : State) (r : Reg) (v : Word) : (s.setX r v).x r = v := by
  simp [State.x, State.setX]

/-- Writing one data register leaves every other as it was. -/
theorem State.x_setX_other (s : State) (r r' : Reg) (v : Word) (h : r' ≠ r) : (s.setX r v).x r' = s.x r' := by
  have hne : r.val ≠ r'.val := fun e => h (Fin.ext e.symm)
  simp [State.x, State.setX, hne]

/-- A read of a data register looks at `regs` only. -/
theorem State.x_congr (s t : State) (h : t.regs = s.regs) (r : Reg) : t.x r = s.x r := by
  simp [State.x, h]

/-- Two states with the same value in every data register have the same registers. -/
theorem State.regs_ext (s t : State) (h : ∀ r, t.x r = s.x r) : t.regs = s.regs := by
  apply Vector.ext
  intro i hi
  exact h ⟨i, hi⟩

/-- Which value the destination gets. -/
@[simp] theorem State.resolve_some (s : State) (v : Word) : s.resolve (some v) = v := rfl

@[simp] theorem State.resolved_some (s : State) (v : Word) : s.resolved (some v) = s := rfl

end Sys2Proof.Machine
end

