-- ==== Sys2Proof/Laws/Ops.lean ====
section
/-! SUPPORT. What each shared operation can do, said once: finishing a command, the fatal fault, the context check,
the arithmetic forms, waiting. -/

namespace Sys2Proof.Machine

/-! ### Finishing -/

section Finish
variable (s : State) (rd : Reg) (v : Option Word)

@[simp] theorem State.finish_es : (s.finish rd v).es = .idle := rfl
@[simp] theorem State.finish_done : (s.finish rd v).done = true := rfl
@[simp] theorem State.finish_ctx : (s.finish rd v).ctx = s.ctx := by simp [State.finish]
@[simp] theorem State.finish_cmd : (s.finish rd v).cmd = s.cmd := by simp [State.finish]
@[simp] theorem State.finish_ovr : (s.finish rd v).ovr = s.ovr := by simp [State.finish]
@[simp] theorem State.finish_cause : (s.finish rd v).cause = s.cause := by simp [State.finish]
@[simp] theorem State.finish_fcmd : (s.finish rd v).fcmd = s.fcmd := by simp [State.finish]
@[simp] theorem State.finish_inputs : (s.finish rd v).inputs = s.inputs := by simp [State.finish]
@[simp] theorem State.finish_reads : (s.finish rd v).reads = s.reads := by simp [State.finish]
@[simp] theorem State.finish_requests : (s.finish rd v).requests = s.requests := by simp [State.finish]

@[simp] theorem State.finish_regs : (s.finish rd v).regs = s.regs.set rd.val (s.resolve v) := by
  simp [State.finish]

/-- The destination of a finished command holds its result. -/
@[simp] theorem State.finish_x_same : (s.finish rd v).x rd = s.resolve v := by
  simp [State.x]

/-- Every other data register is as it was. -/
theorem State.finish_x_other (r : Reg) (h : r ≠ rd) : (s.finish rd v).x r = s.x r := by
  have hne : rd.val ≠ r.val := fun e => h (Fin.ext e.symm)
  simp [State.x, hne]

/-- Finishing changes nothing but the result, the engine state, `DONE` and the hidden registers. -/
theorem State.finish_same : SameButResult s (s.finish rd v) rd :=
  ⟨fun r h => s.finish_x_other rd v r h, by simp, by simp, by simp, by simp, by simp, by simp⟩

end Finish

/-! ### What the host sees of a state, and what it does not -/

/-- Two states agree on everything but the hidden registers' content and the port's own fields. -/
structure SameShown (s t : State) : Prop where
  regs : t.regs = s.regs
  ctx : t.ctx = s.ctx
  cmd : t.cmd = s.cmd
  done : t.done = s.done
  ovr : t.ovr = s.ovr
  cause : t.cause = s.cause
  fcmd : t.fcmd = s.fcmd
  reads : t.reads = s.reads

theorem SameShown.refl (s : State) : SameShown s s := ⟨rfl, rfl, rfl, rfl, rfl, rfl, rfl, rfl⟩

theorem SameShown.trans {s t u : State} (h : SameShown s t) (k : SameShown t u) : SameShown s u :=
  ⟨k.regs.trans h.regs, k.ctx.trans h.ctx, k.cmd.trans h.cmd, k.done.trans h.done, k.ovr.trans h.ovr,
   k.cause.trans h.cause, k.fcmd.trans h.fcmd, k.reads.trans h.reads⟩

/-- A command that finishes from a state showing what `s` shows, completes in the sense of the statements. -/
theorem completesWith_of_finish {i : Instr} {s s' : State} {rd : Reg} {v : Option Word}
    {rest : List Event} {sent : List Request}
    (hx : exec i s = .next (s'.finish rd v)) (h : SameShown s s') (hi : s'.inputs = rest)
    (hr : s'.requests = sent ++ s.requests) : CompletesWith i s rd (s'.resolve v) rest sent :=
  ⟨_, hx, by simp, rfl, rfl,
   ⟨fun r hne => (s'.finish_x_other rd v r hne).trans (State.x_congr s s' h.regs r), by simp [h.ctx],
    by simp [h.cmd], by simp [h.ovr], by simp [h.cause], by simp [h.fcmd], by simp [h.reads]⟩,
   by simp [hi], by simp [hr]⟩

/-- A command that raises a fatal fault from a state showing what `s` shows. -/
theorem faults_of_fatal {i : Instr} {s s' : State} {code : FatalCode} {rest : List Event} {sent : List Request}
    (hx : exec i s = .next (s'.fatal code)) (h : SameShown s s') (hi : s'.inputs = rest)
    (hr : s'.requests = sent ++ s.requests) : Faults i s code rest sent :=
  ⟨_, hx, rfl, rfl, by simp [h.cmd], by simp [h.regs], by simp [h.ctx], by simp [h.cmd], by simp [h.ovr],
   by simp [h.done], by simp [h.reads], by simp [hi], by simp [hr]⟩

/-- A command that waits in a state showing what `s` shows. -/
theorem waits_of_run {i : Instr} {s s' : State} {r : Request} {rest : List Event} {sent : List Request}
    (hx : exec i s = .next s') (he : s'.es = .run (some r)) (h : SameShown s s') (hi : s'.inputs = rest)
    (hr : s'.requests = sent ++ s.requests) : Waits i s r rest sent :=
  ⟨_, hx, he, h.cause, h.fcmd, h.regs, h.ctx, h.cmd, h.ovr, h.done, h.reads, hi, hr⟩

/-! ### The context check -/

theorem State.withContext_valid (s : State) (body : State → State) (h : s.ctx.valid = true) :
    s.withContext body = body s := by simp [State.withContext, h]

theorem State.withContext_missing (s : State) (body : State → State) (h : s.ctx.valid = false) :
    s.withContext body = s.fatal .noCtx := by simp [State.withContext, h]

/-- Everything the context check can do. -/
theorem State.withContext_cases (s : State) (body : State → State) :
    (s.ctx.valid = true ∧ s.withContext body = body s) ∨
    (s.ctx.valid = false ∧ s.withContext body = s.fatal .noCtx) := by
  cases h : s.ctx.valid
  · exact .inr ⟨rfl, s.withContext_missing body h⟩
  · exact .inl ⟨rfl, s.withContext_valid body h⟩

/-! ### The arithmetic forms under a context -/

theorem binary_valid (f : Context → Word → Word → Option Word) (rd rs1 rs2 : Reg) (s : State)
    (h : s.ctx.valid = true) : binary f rd rs1 rs2 s = .next (s.finish rd (f s.ctx (s.x rs1) (s.x rs2))) := by
  rw [binary, State.withContext_valid _ _ h]

theorem unary_valid (f : Context → Word → Option Word) (rd rs1 : Reg) (s : State)
    (h : s.ctx.valid = true) : unary f rd rs1 s = .next (s.finish rd (f s.ctx (s.x rs1))) := by
  rw [unary, State.withContext_valid _ _ h]

theorem binaryInPlace_valid (f : Context → Word → Word → Option Word) (rs1 rs2 : Reg) (s : State)
    (h : s.ctx.valid = true) : binaryInPlace f rs1 rs2 s = .next (s.finish rs1 (f s.ctx (s.x rs1) (s.x rs2))) := by
  rw [binaryInPlace, State.withContext_valid _ _ h]

theorem unaryInPlace_valid (f : Context → Word → Option Word) (rs1 : Reg) (s : State)
    (h : s.ctx.valid = true) : unaryInPlace f rs1 s = .next (s.finish rs1 (f s.ctx (s.x rs1))) := by
  rw [unaryInPlace, State.withContext_valid _ _ h]

/-- An arithmetic command that finishes completes in the sense of the statements. -/
theorem completes_of_finish {i : Instr} {s : State} {rd : Reg} {v : Option Word}
    (hx : exec i s = .next (s.finish rd v)) : Completes i s rd (s.resolve v) :=
  completesWith_of_finish hx (SameShown.refl s) rfl rfl

/-! ### An accepted command that begins has no request outstanding -/

theorem State.begins_not_waiting {s : State} (h : s.begins) (r : Request) : s.es ≠ .run (some r) := by
  rcases h with h | h <;> simp [h]

theorem State.primeSearch_begins {s : State} (h : s.begins) (d : Direction) (rd : Reg) (code : FatalCode) :
    primeSearch d rd (.error code) s = s.fatal code := by
  rcases h with h | h <;> simp [primeSearch, h]

theorem State.primeSearch_begins_ok {s : State} (h : s.begins) (d : Direction) (rd : Reg) (st : Start) :
    primeSearch d rd (.ok st) s =
      searchLoop d rd ((s.loadSearch st).ask (.prime (BitVec.ofNat 64 st.cand))) s.inputs := by
  rcases h with h | h <;> simp [primeSearch, h]

theorem State.generatorSearch_begins {s : State} (h : s.begins) (onRoot : State → SearchUnit → State)
    (code : FatalCode) : generatorSearch (.error code) onRoot s = s.fatal code := by
  rcases h with h | h <;> simp [generatorSearch, h]

theorem State.generatorSearch_begins_ok {s : State} (h : s.begins) (onRoot : State → SearchUnit → State) :
    generatorSearch (.ok ()) onRoot s =
      awaitFactor onRoot (s.loadPhi.ask (.factor (BitVec.ofNat 64 (s.ctx.qNat - 1)))) := by
  rcases h with h | h <;> simp [generatorSearch, h]

end Sys2Proof.Machine
end

