-- ==== Sys2Proof/Laws/Search.lean ====
section
/-! SUPPORT. What the prime-search loop can do, said once, and how it walks its progression. -/

namespace Sys2Proof.Machine

/-- How far a search has come: `s'` is `s` with some answers taken, some requests sent and `CAND` moved. -/
structure SearchRan (s s' : State) : Prop where
  shown : SameShown s s'
  pow : s'.pow = s.pow
  draws : s'.draws = s.draws
  step : s'.search.step = s.search.step
  waiting : s.es = .run (some (.prime s.search.cand)) → s'.es = .run (some (.prime s'.search.cand))
  running : (∃ r, s.es = .run (some r)) → ∃ r, s'.es = .run (some r)
  requests : ∃ sent, s'.requests = sent ++ s.requests

theorem SearchRan.refl (s : State) : SearchRan s s :=
  ⟨SameShown.refl s, rfl, rfl, rfl, id, id, [], rfl⟩

theorem SearchRan.trans {s t u : State} (h : SearchRan s t) (k : SearchRan t u) : SearchRan s u := by
  obtain ⟨a, ha⟩ := h.requests
  obtain ⟨b, hb⟩ := k.requests
  exact ⟨h.shown.trans k.shown, k.pow.trans h.pow, k.draws.trans h.draws, k.step.trans h.step,
    fun e => k.waiting (h.waiting e), fun e => k.running (h.running e), b ++ a, by rw [hb, ha, List.append_assoc]⟩

/-- One step of the progression and its request. -/
theorem SearchRan.ask (s : State) (cand : Nat) :
    SearchRan s ((s.setCand cand).ask (.prime (BitVec.ofNat 64 cand))) :=
  ⟨⟨rfl, rfl, rfl, rfl, rfl, rfl, rfl, rfl⟩, rfl, rfl, rfl, fun _ => rfl, fun _ => ⟨_, rfl⟩, [_], rfl⟩

/-- Taking answers off the timeline. -/
theorem SearchRan.inputs {s s' : State} (h : SearchRan s s') (rest : List Event) :
    SearchRan s { s' with inputs := rest } :=
  ⟨⟨h.shown.regs, h.shown.ctx, h.shown.cmd, h.shown.done, h.shown.ovr, h.shown.cause, h.shown.fcmd, h.shown.reads⟩,
   h.pow, h.draws, h.step, h.waiting, h.running, h.requests⟩

/-- Everything the search loop can do: after some answers it finishes with `CAND`, raises `SEARCH_RANGE`, or waits. -/
theorem searchLoop_cases (d : Direction) (rd : Reg) (events : List Event) (s : State) :
    ∃ s', SearchRan s s' ∧ (∃ taken, events = taken ++ s'.inputs) ∧
      (searchLoop d rd s events = s'.finish rd (some s'.search.cand) ∨
       searchLoop d rd s events = s'.fatal .searchRange ∨
       (searchLoop d rd s events = s' ∧ primeAnswerNext s'.inputs = false)) := by
  induction events generalizing s with
  | nil => exact ⟨_, (SearchRan.refl s).inputs [], ⟨[], rfl⟩, .inr (.inr ⟨by simp [searchLoop], rfl⟩)⟩
  | cons e rest ih =>
    cases e with
    | primeAnswer b =>
      cases b with
      | true => exact ⟨_, (SearchRan.refl s).inputs rest, ⟨[_], rfl⟩, .inl (by simp [searchLoop])⟩
      | false =>
        cases hm : moveCand d s.search.cand.toNat s.search.step.toNat with
        | error code =>
          have hc : code = .searchRange := by
            cases d <;> simp only [moveCand] at hm <;> split at hm <;> cases hm <;> rfl
          exact ⟨_, (SearchRan.refl s).inputs rest, ⟨[_], rfl⟩, .inr (.inl (by simp [searchLoop, hm, hc]))⟩
        | ok cand =>
          obtain ⟨s', hr, ⟨taken, ht⟩, hc⟩ := ih ((s.setCand cand).ask (.prime (BitVec.ofNat 64 cand)))
          refine ⟨s', (SearchRan.ask s cand).trans hr, ⟨.primeAnswer false :: taken, by simp [← ht]⟩, ?_⟩
          simpa [searchLoop, hm] using hc
    | write _ _ | command _ | read _ | reset | engine | factorAnswer _ =>
      exact ⟨_, (SearchRan.refl s).inputs _, ⟨[], rfl⟩, .inr (.inr ⟨by simp [searchLoop], rfl⟩)⟩

/-- An event that is no answer leaves the search waiting. -/
theorem searchLoop_waits (d : Direction) (rd : Reg) (s : State) (events : List Event)
    (h : primeAnswerNext events = false) : searchLoop d rd s events = { s with inputs := events } := by
  cases events with
  | nil => simp [searchLoop]
  | cons e rest => cases e <;> simp_all [searchLoop, primeAnswerNext]

/-- The loop reads the events it is given, not the timeline field of its state. -/
theorem searchLoop_inputs (d : Direction) (rd : Reg) (s : State) (old events : List Event) :
    searchLoop d rd { s with inputs := old } events = searchLoop d rd s events := by
  induction events generalizing s old with
  | nil => simp [searchLoop]
  | cons e rest ih =>
    cases e with
    | primeAnswer b =>
      cases b with
      | true => simp [searchLoop]
      | false =>
        cases hm : moveCand d s.search.cand.toNat s.search.step.toNat with
        | error code => simp [searchLoop, hm]
        | ok cand =>
          simp only [searchLoop, hm]
          exact ih ((s.setCand cand).ask (.prime (BitVec.ofNat 64 cand))) old
    | write | command | read | reset | engine | factorAnswer => simp [searchLoop]

/-- Where the loop has used up its events and still waits, it goes on with more events as if they had been there. -/
theorem searchLoop_append (d : Direction) (rd : Reg) (l more : List Event) (s t : State) (r : Request)
    (h : searchLoop d rd s l = t) (he : t.es = .run (some r)) (hi : t.inputs = []) :
    searchLoop d rd s (l ++ more) = searchLoop d rd t more := by
  induction l generalizing s with
  | nil =>
    rw [searchLoop_waits d rd s [] rfl] at h
    rw [← h]
    exact (searchLoop_inputs d rd s [] more).symm
  | cons e l ih =>
    cases e with
    | primeAnswer b =>
      cases b with
      | true => simp only [searchLoop] at h; rw [← h] at he; cases he
      | false =>
        cases hm : moveCand d s.search.cand.toNat s.search.step.toNat with
        | error code => simp only [searchLoop, hm] at h; rw [← h] at he; cases he
        | ok cand =>
          simp only [searchLoop, hm] at h
          simp only [List.cons_append, searchLoop, hm]
          exact ih _ h
    | write | command | read | reset | engine | factorAnswer =>
      rw [searchLoop_waits d rd s _ rfl] at h; rw [← h] at hi; cases hi

/-- One step of the progression inside `[0, 2^64)`. -/
theorem moveCand_stepsTo {d : Direction} {cand step c : Nat} (h : stepsTo d cand step c) :
    moveCand d cand step = .ok c := by
  cases d
  · obtain ⟨rfl, h⟩ : c = cand + step ∧ c < 2 ^ 64 := h
    rw [moveCand, if_neg (by omega)]
  · have h : c + step = cand := h
    simp only [moveCand, if_neg (show ¬ cand < step by omega), Nat.sub_eq_of_eq_add h.symm]

/-- A step that leaves `[0, 2^64)`. -/
theorem moveCand_leavesRange {d : Direction} {cand step : Nat} (h : leavesRange d cand step) :
    moveCand d cand step = .error .searchRange := by
  cases d <;> exact if_pos h

/-- Inside its range the progression moves one step. -/
theorem moveCand_inRange {d : Direction} {first step j : Nat} (h : inRange d first step (j + 1)) :
    moveCand d (candidate d first step j) step = .ok (candidate d first step (j + 1)) := by
  cases d
  · have h' : first + (j + 1) * step < 2 ^ 64 := h
    have : ¬ 2 ^ 64 ≤ first + j * step + step := by rw [Nat.add_mul] at h'; omega
    rw [moveCand, candidate, if_neg this, candidate, Nat.add_mul, Nat.one_mul, Nat.add_assoc]
  · have h' : (j + 1) * step ≤ first := h.1
    have : ¬ first - j * step < step := by rw [Nat.add_mul] at h'; omega
    simp [moveCand, candidate, this, Nat.add_mul, Nat.sub_sub]

/-- At its end the progression raises `SEARCH_RANGE`. -/
theorem moveCand_outOfRange {d : Direction} {first step j : Nat} (h : inRange d first step j)
    (h' : ¬ inRange d first step (j + 1)) : moveCand d (candidate d first step j) step = .error .searchRange := by
  cases d
  · have : 2 ^ 64 ≤ first + j * step + step := by
      have : ¬ first + (j + 1) * step < 2 ^ 64 := h'
      rw [Nat.add_mul] at this; omega
    rw [moveCand, candidate, if_pos this]
  · have : first - j * step < step := by
      have h1 : j * step ≤ first := h.1
      have h2 : ¬ ((j + 1) * step ≤ first ∧ first < 2 ^ 64) := h'
      have h3 := h.2
      rw [Nat.add_mul] at h2; omega
    simp [moveCand, candidate, this]

theorem inRange_mono {d : Direction} {first step j k : Nat} (h : inRange d first step k) (hjk : j ≤ k) :
    inRange d first step j := by
  have hm : j * step ≤ k * step := Nat.mul_le_mul_right _ hjk
  cases d
  · have h' : first + k * step < 2 ^ 64 := h
    show first + j * step < 2 ^ 64
    omega
  · exact ⟨hm.trans h.1, h.2⟩

theorem candidate_lt {d : Direction} {first step k : Nat} (h : inRange d first step k) :
    candidate d first step k < 2 ^ 64 := by
  cases d
  · exact h
  · have := h.2
    show first - k * step < 2 ^ 64
    omega

/-- Where a search stands at the `j`-th member of its progression, its request for it outstanding. -/
structure StandsAt (d : Direction) (first step j : Nat) (base : List Request) (s : State) : Prop where
  cand : s.search.cand = BitVec.ofNat 64 (candidate d first step j)
  stepReg : s.search.step.toNat = step
  es : s.es = .run (some (.prime s.search.cand))
  requests : s.requests = primeRequests d first step (j + 1) ++ base

/-- Answers false move a search along its progression. -/
theorem searchLoop_falses (d : Direction) (rd : Reg) (first step : Nat) (base : List Request) (rest : List Event)
    (k j : Nat) (s : State) (hs : StandsAt d first step j base s) (hr : inRange d first step (j + k)) :
    ∃ s', searchLoop d rd s (List.replicate k (.primeAnswer false) ++ rest) = searchLoop d rd s' rest ∧
      StandsAt d first step (j + k) base s' ∧ SameShown s s' := by
  induction k generalizing j s with
  | zero => exact ⟨s, by simp, by simpa using hs, SameShown.refl s⟩
  | succ k ih =>
    have hlt : candidate d first step j < 2 ^ 64 := candidate_lt (inRange_mono hr (by omega))
    have hm : moveCand d s.search.cand.toNat s.search.step.toNat = .ok (candidate d first step (j + 1)) := by
      rw [hs.cand, hs.stepReg, BitVec.toNat_ofNat, Nat.mod_eq_of_lt hlt]
      exact moveCand_inRange (inRange_mono hr (by omega))
    obtain ⟨s', h1, h2, h3⟩ := ih (j + 1)
      ((s.setCand (candidate d first step (j + 1))).ask (.prime (BitVec.ofNat 64 (candidate d first step (j + 1)))))
      ⟨rfl, hs.stepReg, rfl, by simp [primeRequests, hs.requests]⟩ (by rwa [Nat.add_assoc, Nat.add_comm 1 k])
    refine ⟨s', ?_, by rwa [Nat.add_assoc, Nat.add_comm 1 k] at h2, (SearchRan.ask s _).shown.trans h3⟩
    simp only [List.replicate_succ, List.cons_append, searchLoop, hm]
    exact h1

end Sys2Proof.Machine
end

