-- ==== Sys2Proof/Laws/Exec.lean ====
section
/-! SUPPORT. One lemma per command: what `exec` answers, in terms of the shared operations, under the condition in
which the command runs. -/

namespace Sys2Proof.Machine

/-! ### Arithmetic commands with a context -/

theorem exec_neg (rd rs1 : Reg) (s : State) (h : s.ctx.valid = true) :
    exec (.neg rd rs1) s = .next (s.finish rd (negf s.ctx (s.x rs1))) :=
  unary_valid negf rd rs1 s h

theorem exec_negIp (rs1 : Reg) (s : State) (h : s.ctx.valid = true) :
    exec (.negIp rs1) s = .next (s.finish rs1 (negf s.ctx (s.x rs1))) :=
  unaryInPlace_valid negf rs1 s h

theorem exec_add (rd rs1 rs2 : Reg) (s : State) (h : s.ctx.valid = true) :
    exec (.add rd rs1 rs2) s = .next (s.finish rd (addf s.ctx (s.x rs1) (s.x rs2))) :=
  binary_valid addf rd rs1 rs2 s h

theorem exec_addIp (rs1 rs2 : Reg) (s : State) (h : s.ctx.valid = true) :
    exec (.addIp rs1 rs2) s = .next (s.finish rs1 (addf s.ctx (s.x rs1) (s.x rs2))) :=
  binaryInPlace_valid addf rs1 rs2 s h

theorem exec_sub (rd rs1 rs2 : Reg) (s : State) (h : s.ctx.valid = true) :
    exec (.sub rd rs1 rs2) s = .next (s.finish rd (subf s.ctx (s.x rs1) (s.x rs2))) :=
  binary_valid subf rd rs1 rs2 s h

theorem exec_subIp (rs1 rs2 : Reg) (s : State) (h : s.ctx.valid = true) :
    exec (.subIp rs1 rs2) s = .next (s.finish rs1 (subf s.ctx (s.x rs1) (s.x rs2))) :=
  binaryInPlace_valid subf rs1 rs2 s h

theorem exec_mul (rd rs1 rs2 : Reg) (s : State) (h : s.ctx.valid = true) :
    exec (.mul rd rs1 rs2) s = .next (s.finish rd (mulf s.ctx (s.x rs1) (s.x rs2))) :=
  binary_valid mulf rd rs1 rs2 s h

theorem exec_mulIp (rs1 rs2 : Reg) (s : State) (h : s.ctx.valid = true) :
    exec (.mulIp rs1 rs2) s = .next (s.finish rs1 (mulf s.ctx (s.x rs1) (s.x rs2))) :=
  binaryInPlace_valid mulf rs1 rs2 s h

theorem exec_sqr (rd rs1 : Reg) (s : State) (h : s.ctx.valid = true) :
    exec (.sqr rd rs1) s = .next (s.finish rd (sqrf s.ctx (s.x rs1))) :=
  unary_valid sqrf rd rs1 s h

theorem exec_sqrIp (rs1 : Reg) (s : State) (h : s.ctx.valid = true) :
    exec (.sqrIp rs1) s = .next (s.finish rs1 (sqrf s.ctx (s.x rs1))) :=
  unaryInPlace_valid sqrf rs1 s h

theorem exec_pow (rd rs1 rs2 : Reg) (s : State) (h : s.ctx.valid = true) :
    exec (.pow rd rs1 rs2) s = .next (s.finish rd (powf s.ctx (s.x rs1) (s.x rs2))) :=
  binary_valid powf rd rs1 rs2 s h

theorem exec_powIp (rs1 rs2 : Reg) (s : State) (h : s.ctx.valid = true) :
    exec (.powIp rs1 rs2) s = .next (s.finish rs1 (powf s.ctx (s.x rs1) (s.x rs2))) :=
  binaryInPlace_valid powf rs1 rs2 s h

theorem exec_inv (rd rs1 : Reg) (s : State) (h : s.ctx.valid = true) :
    exec (.inv rd rs1) s = .next (s.finish rd (invf s.ctx (s.x rs1))) :=
  unary_valid invf rd rs1 s h

theorem exec_invIp (rs1 : Reg) (s : State) (h : s.ctx.valid = true) :
    exec (.invIp rs1) s = .next (s.finish rs1 (invf s.ctx (s.x rs1))) :=
  unaryInPlace_valid invf rs1 s h

/-! ### Construction -/

theorem exec_ctxinit_ok (rs1 : Reg) (v : Variant) (s : State) (c : Context) (h : buildContext (s.x rs1) v = .ok c) :
    exec (.ctxinit rs1 v) s = .next { s with ctx := c }.complete := by
  simp only [exec, execCtxinit, h]

theorem exec_ctxinit_error (rs1 : Reg) (v : Variant) (s : State) (code : FatalCode)
    (h : buildContext (s.x rs1) v = .error code) : exec (.ctxinit rs1 v) s = .next (s.fatal code) := by
  simp only [exec, execCtxinit, h]

/-! ### Prime searches that begin -/

/-- A search whose start passes its checks stands at the first member of its progression, the request sent. -/
def beginSearch (s : State) (st : Start) : State :=
  (s.loadSearch st).ask (.prime (BitVec.ofNat 64 st.cand))

theorem beginSearch_standsAt (s : State) (d : Direction) (first step : Nat) (h : step < 2 ^ 64) :
    StandsAt d first step 0 s.requests (beginSearch s ⟨first, step⟩) := by
  have hc : candidate d first step 0 = first := by cases d <;> simp [candidate]
  refine ⟨by rw [hc]; rfl, ?_, rfl, by rw [primeRequests, hc]; rfl⟩
  show (BitVec.ofNat 64 step).toNat = step
  rw [BitVec.toNat_ofNat, Nat.mod_eq_of_lt h]

theorem beginSearch_shown (s : State) (st : Start) : SameShown s (beginSearch s st) :=
  ⟨rfl, rfl, rfl, rfl, rfl, rfl, rfl, rfl⟩

/-- The start of each search, as the statements name it. -/
theorem exec_search {i : Instr} {s : State} {d : Direction} {rd : Reg} {first step : Nat}
    (h : SearchStarts i s d rd first step) (hb : s.begins) :
    exec i s = .next (searchLoop d rd (beginSearch s ⟨first, step⟩) s.inputs) ∧ step < 2 ^ 64 := by
  cases h with
  | ffpu =>
    rename_i rs1 rs2 hn hu
    have h1 : startFirstUp (s.x rs1) (s.x rs2) = .ok ⟨2 ^ (s.x rs1).toNat + 1, 2 * (s.x rs2).toNat⟩ := by
      simp only [startFirstUp, stepf, basef, if_neg (Nat.not_le.mpr hn), if_neg (Nat.not_le.mpr hu)]
      rfl
    refine ⟨?_, hn⟩
    simp only [exec, execFfpu]
    rw [h1, State.primeSearch_begins_ok hb]
    rfl
  | fnpu =>
    rename_i rs1 rs2 hn hu
    have h1 : startNextUp (s.x rs1) (s.x rs2) =
        .ok ⟨(s.x rs1).toNat + 2 * (s.x rs2).toNat, 2 * (s.x rs2).toNat⟩ := by
      simp only [startNextUp, stepf, if_neg (Nat.not_le.mpr hn)]
      simp only [Bind.bind, Except.bind, moveCand, if_neg (Nat.not_le.mpr hu)]
      rfl
    refine ⟨?_, hn⟩
    simp only [exec, execFnpu]
    rw [h1, State.primeSearch_begins_ok hb]
    rfl
  | ffpd =>
    rename_i rs1 rs2 hn hu hb'
    have h1 : startFirstDown (s.x rs1) (s.x rs2) =
        .ok ⟨2 ^ (s.x rs1).toNat + 1 - 2 * (s.x rs2).toNat, 2 * (s.x rs2).toNat⟩ := by
      simp only [startFirstDown, stepf, basef, if_neg (Nat.not_le.mpr hn), if_neg (Nat.not_le.mpr hu)]
      simp only [Bind.bind, Except.bind, moveCand, if_neg (Nat.not_lt.mpr hb')]
      rfl
    refine ⟨?_, hn⟩
    simp only [exec, execFfpd]
    rw [h1, State.primeSearch_begins_ok hb]
    rfl
  | fnpd =>
    rename_i rs1 rs2 hn hu
    have h1 : startNextDown (s.x rs1) (s.x rs2) =
        .ok ⟨(s.x rs1).toNat - 2 * (s.x rs2).toNat, 2 * (s.x rs2).toNat⟩ := by
      simp only [startNextDown, stepf, if_neg (Nat.not_le.mpr hn)]
      simp only [Bind.bind, Except.bind, moveCand, if_neg (Nat.not_lt.mpr hu)]
      rfl
    refine ⟨?_, hn⟩
    simp only [exec, execFnpd]
    rw [h1, State.primeSearch_begins_ok hb]
    rfl

/-! ### Searches that wait -/

/-- A prime search that waits goes on with the events of the timeline. -/
theorem exec_resumed {i : Instr} {s : State} {d : Direction} {rd : Reg} {r : Request}
    (hi : primeSearchOf i = some (d, rd)) (he : s.es = .run (some r)) :
    exec i s = .next (searchLoop d rd s s.inputs) := by
  cases i <;> cases hi <;> simp only [exec, execFfpu, execFnpu, execFfpd, execFnpd, primeSearch, he]

theorem stepf_error {n : Word} {code : FatalCode} (h : stepf n = .error code) : code = .searchRange := by
  unfold stepf at h
  split at h <;> cases h
  rfl

theorem basef_error {u : Word} {code : FatalCode} (h : basef u = .error code) : code = .searchRange := by
  unfold basef at h
  split at h <;> cases h
  rfl

theorem moveCand_error {d : Direction} {cand step : Nat} {code : FatalCode}
    (h : moveCand d cand step = .error code) : code = .searchRange := by
  cases d <;> simp only [moveCand] at h <;> split at h <;> cases h <;> rfl

/-- What a sequence of checks fails with, one of them fails with. -/
theorem bind_error {α β : Type} {x : Except FatalCode α} {f : α → Except FatalCode β} {code : FatalCode}
    (h : (x >>= f) = .error code) : x = .error code ∨ ∃ a, x = .ok a ∧ f a = .error code := by
  cases x with
  | error c => cases h; exact .inl rfl
  | ok a => exact .inr ⟨a, rfl, h⟩

/-- The checks at the start of a search fail with `SEARCH_RANGE` only. -/
theorem startFirstUp_error {u n : Word} {code : FatalCode} (h : startFirstUp u n = .error code) :
    code = .searchRange := by
  rcases bind_error h with h | ⟨_, _, h⟩
  · exact stepf_error h
  · rcases bind_error h with h | ⟨_, _, h⟩
    · exact basef_error h
    · cases h

theorem startNextUp_error {u n : Word} {code : FatalCode} (h : startNextUp u n = .error code) :
    code = .searchRange := by
  rcases bind_error h with h | ⟨_, _, h⟩
  · exact stepf_error h
  · rcases bind_error h with h | ⟨_, _, h⟩
    · exact moveCand_error h
    · cases h

theorem startFirstDown_error {u n : Word} {code : FatalCode} (h : startFirstDown u n = .error code) :
    code = .searchRange := by
  rcases bind_error h with h | ⟨_, _, h⟩
  · exact stepf_error h
  · rcases bind_error h with h | ⟨_, _, h⟩
    · exact basef_error h
    · rcases bind_error h with h | ⟨_, _, h⟩
      · exact moveCand_error h
      · cases h

theorem startNextDown_error {u n : Word} {code : FatalCode} (h : startNextDown u n = .error code) :
    code = .searchRange := by
  rcases bind_error h with h | ⟨_, _, h⟩
  · exact stepf_error h
  · rcases bind_error h with h | ⟨_, _, h⟩
    · exact moveCand_error h
    · cases h

/-! ### Generator searches that begin -/

/-- The factorization request sent. -/
def beginFactor (s : State) : State := s.loadPhi.ask (.factor (BitVec.ofNat 64 (s.ctx.qNat - 1)))

theorem beginFactor_shown (s : State) : SameShown s (beginFactor s) := ⟨rfl, rfl, rfl, rfl, rfl, rfl, rfl, rfl⟩

theorem exec_fpr (rd : Reg) (s : State) (h : s.ctx.valid = true) (hb : s.begins) :
    exec (.fpr rd) s = .next (awaitFactor (fun s u => s.finish rd (some u.root)) (beginFactor s)) := by
  simp only [exec, execFpr]
  rw [State.withContext_valid _ _ h, State.generatorSearch_begins_ok hb]
  rfl

theorem exec_fgen (rd rs1 : Reg) (s : State) (h : s.ctx.valid = true) (hb : s.begins)
    (hc : fgenCheck (s.x rs1) = .ok ()) :
    exec (.fgen rd rs1) s = .next (awaitFactor (fun s u =>
      s.finish rd (powf s.ctx u.root (u.loadGexp (s.x rs1)).gexp)) (beginFactor s)) := by
  simp only [exec, execFgen]
  rw [State.withContext_valid _ _ h, hc, State.generatorSearch_begins_ok hb]
  rfl

theorem exec_fgen_error (rd rs1 : Reg) (s : State) (h : s.ctx.valid = true) (hb : s.begins) (code : FatalCode)
    (hc : fgenCheck (s.x rs1) = .error code) : exec (.fgen rd rs1) s = .next (s.fatal code) := by
  simp only [exec, execFgen]
  rw [State.withContext_valid _ _ h, hc, State.generatorSearch_begins hb]

theorem fgenCheck_ok {n : Word} (h1 : 1 ≤ n.toNat) (h2 : 2 * n.toNat < 2 ^ 64) : fgenCheck n = .ok () := by
  have h0 : n ≠ 0 := by rintro rfl; simp at h1
  rw [fgenCheck, if_neg h0, if_neg (Nat.not_le.mpr h2)]

/-- With no answer at hand the engine keeps waiting. -/
theorem awaitFactor_waits (onRoot : State → SearchUnit → State) (s : State)
    (h : factorAnswerNext s.inputs = false) : awaitFactor onRoot s = s := by
  unfold awaitFactor
  split
  · next heq => rw [heq] at h; cases h
  · rfl

/-- With the answer at hand it goes on. -/
theorem awaitFactor_answer (onRoot : State → SearchUnit → State) (s : State) (fs : FactorSet) (rest : List Event)
    (h : s.inputs = .factorAnswer fs :: rest) :
    awaitFactor onRoot s = (match primitiveRoot s.ctx { s.search with fset := fs } with
      | .error code => { s with inputs := rest }.fatal code
      | .ok u => onRoot { s with inputs := rest, search := u } u) := by
  unfold awaitFactor
  generalize s.inputs = l at h ⊢
  subst h
  rfl

/-- The candidate loop changes `ROOT` only. -/
theorem rootLoop_ok {c : Context} {n : Nat} {u v : SearchUnit} (h : rootLoop c n u = .ok v) :
    v = { u with root := v.root } := by
  induction n generalizing u with
  | zero => cases h
  | succ n ih =>
    unfold rootLoop at h
    split at h
    · cases h; rfl
    · split at h
      · cases h
      · split at h
        · cases h; rfl
        · rw [ih h]

/-- The candidate loop fails with `SEARCH_RANGE` only. -/
theorem rootLoop_error {c : Context} {n : Nat} {u : SearchUnit} {code : FatalCode}
    (h : rootLoop c n u = .error code) : code = .searchRange := by
  induction n generalizing u with
  | zero => cases h; rfl
  | succ n ih =>
    unfold rootLoop at h
    split at h
    · cases h
    · split at h
      · cases h; rfl
      · split at h
        · cases h
        · exact ih h

/-- The primitive-root function fails with `DIV_ZERO` or `SEARCH_RANGE` only. -/
theorem primitiveRoot_error {c : Context} {u : SearchUnit} {code : FatalCode}
    (h : primitiveRoot c u = .error code) : code = .divZero ∨ code = .searchRange := by
  unfold primitiveRoot at h
  split at h
  · cases h; exact .inl rfl
  · exact .inr (rootLoop_error h)

end Sys2Proof.Machine
end

