-- ==== Sys2Proof/Laws/HostPort.lean ====
section
/-! SUPPORT. Everything a write to the host port can do, said once: the issue step's three answers (rule R81), the
accepted, dropped and ignored writes (rule R53). -/

namespace Sys2Proof.Machine

/-- An illegal value halts the engine at once. -/
theorem State.issue_illegal (s : State) {w : Word} {reason : Illegal} (h : decode w = .error reason) :
    s.issue w = (s.accept w).fatal .illegalCmd := by
  simp only [State.issue, h]

/-- A command without the context it needs halts the engine at once. -/
theorem State.issue_noCtx (s : State) {w : Word} {i : Instr} (h : decode w = .ok i) (hn : i.needsContext = true)
    (hv : s.ctx.valid = false) : s.issue w = (s.accept w).fatal .noCtx := by
  simp only [State.issue, h]
  rw [if_pos hn]
  exact State.withContext_missing _ _ hv

/-- Every other command is in progress. -/
theorem State.issue_ok (s : State) {w : Word} {i : Instr} (h : decode w = .ok i)
    (hv : i.needsContext = true → s.ctx.valid = true) : s.issue w = { s.accept w with es := .run none } := by
  simp only [State.issue, h]
  split
  · next hn => exact State.withContext_valid _ _ (hv hn)
  · rfl

/-- Everything the issue step can answer. -/
theorem State.issue_cases (s : State) (w : Word) :
    (∃ code, s.issue w = (s.accept w).fatal code ∧
      ((code = .illegalCmd ∧ ∃ reason, decode w = .error reason) ∨
       (code = .noCtx ∧ ∃ i, decode w = .ok i ∧ i.needsContext = true ∧ s.ctx.valid = false))) ∨
    (∃ i, decode w = .ok i ∧ (i.needsContext = true → s.ctx.valid = true) ∧
      s.issue w = { s.accept w with es := .run none }) := by
  cases hd : decode w with
  | error reason => exact .inl ⟨_, s.issue_illegal hd, .inl ⟨rfl, reason, rfl⟩⟩
  | ok i =>
    by_cases h : i.needsContext = true ∧ s.ctx.valid = false
    · exact .inl ⟨_, s.issue_noCtx hd h.1 h.2, .inr ⟨rfl, i, rfl, h⟩⟩
    · have hv : i.needsContext = true → s.ctx.valid = true := fun hn => by
        cases hv : s.ctx.valid
        · exact (h ⟨hn, hv⟩).elim
        · rfl
      exact .inr ⟨i, rfl, hv, s.issue_ok hd hv⟩

/-- A write to `CMD` of an idle engine issues. -/
theorem State.hostWrite_cmd (s : State) (v : Word) (h : s.es = .idle) : s.hostWrite 0 v = s.issue v := by
  simp [State.hostWrite, h]

/-- A write to a data register of an idle engine. -/
theorem State.hostWrite_reg (s : State) (idx : Index) (v : Word) (r : Reg) (hi : idx.toNat = 8 + r.val)
    (h : s.es = .idle) : s.hostWrite idx v = s.setX r v := by
  have h0 : idx ≠ 0 := by rintro rfl; simp at hi; omega
  have hr : (⟨idx.toNat - 8, by omega⟩ : Reg) = r := by ext; simp; omega
  rw [State.hostWrite, if_neg h0, dif_pos (by omega), if_pos h, hr]

/-- A write that an engine which is not idle drops. -/
theorem State.hostWrite_dropped (s : State) (idx : Index) (v : Word)
    (hi : idx = 0 ∨ (8 ≤ idx.toNat ∧ idx.toNat < 16)) (h : s.es ≠ .idle) : s.hostWrite idx v = s.drop := by
  rcases hi with rfl | hi
  · rw [State.hostWrite, if_pos rfl, if_neg h]
  · have h0 : idx ≠ 0 := by rintro rfl; simp at hi
    rw [State.hostWrite, if_neg h0, dif_pos hi, if_neg h]

/-- A write to any other index is ignored. -/
theorem State.hostWrite_ignored (s : State) (idx : Index) (v : Word) (h0 : idx ≠ 0)
    (hi : ¬ (8 ≤ idx.toNat ∧ idx.toNat < 16)) : s.hostWrite idx v = s := by
  rw [State.hostWrite, if_neg h0, dif_neg hi]

end Sys2Proof.Machine
end

