-- ==== Sys2Proof/Laws/Outcome.lean ====
section
/-! SUPPORT. Everything a command can do, said once: it finishes, builds the context, raises a fault or waits, and
what it has done before that. Invariants and frames follow from this without unfolding `exec`. -/

namespace Sys2Proof.Machine

/-- The outstanding request, if any, belongs to the command. -/
def State.fits (s : State) (i : Instr) : Prop :=
  match s.es with
  | .run (some (.prime x)) => usesPrimePort i = true ∧ x = s.search.cand
  | .run (some (.factor m)) => usesFactorPort i = true ∧ m = s.search.phi ∧ m.toNat = s.ctx.qNat - 1 ∧ operandPassed i s
  | _ => True

theorem State.fits_of_begins {s : State} (h : s.begins) (i : Instr) : s.fits i := by
  rcases h with h | h <;> simp [State.fits, h]

/-- What a command may have done before it ends or waits: taken answers, sent requests, moved hidden registers. -/
structure RanTo (i : Instr) (s s' : State) : Prop where
  shown : SameShown s s'
  taken : ∃ events, s.inputs = events ++ s'.inputs
  sent : ∃ requests, s'.requests = requests ++ s.requests
  alone : usesPrimePort i = false → usesFactorPort i = false → s' = s

theorem RanTo.refl (i : Instr) (s : State) : RanTo i s s :=
  ⟨SameShown.refl s, ⟨[], rfl⟩, ⟨[], rfl⟩, fun _ _ => rfl⟩

/-- The four ways a command leaves the machine. -/
inductive Outcome (i : Instr) (s : State) : State → Prop
  /-- it finishes with a result in its destination -/
  | finished (s' : State) (rd : Reg) (v : Option Word) (hr : RanTo i s s') (hd : destOf i = some rd)
      (hv : i.needsContext = true → s.ctx.valid = true) : Outcome i s (s'.finish rd v)
  /-- it builds a context -/
  | built (rs1 : Reg) (v : Variant) (c : Context) (hi : i = .ctxinit rs1 v) (hc : buildContext (s.x rs1) v = .ok c) :
      Outcome i s { s with ctx := c }.complete
  /-- it raises a fatal fault -/
  | faulted (s' : State) (code : FatalCode) (hr : RanTo i s s') (hm : mayRaise i s code) : Outcome i s (s'.fatal code)
  /-- it waits for a collaborator -/
  | waits (s' : State) (r : Request) (hr : RanTo i s s') (he : s'.es = .run (some r)) (hf : s.fits i → s'.fits i)
      (hu : usesPrimePort i = true ∨ usesFactorPort i = true) (hv : i.needsContext = true → s.ctx.valid = true) :
      Outcome i s s'

theorem Outcome.noCtx {i : Instr} {s : State} (hn : i.needsContext = true) (hv : s.ctx.valid = false) :
    Outcome i s (s.fatal .noCtx) :=
  .faulted s .noCtx (RanTo.refl i s) (.inl ⟨rfl, hn, hv⟩)

/-- An arithmetic form under the context check. -/
theorem outcome_withContext {i : Instr} {s : State} {rd : Reg} {g : State → Option Word}
    (hn : i.needsContext = true) (hd : destOf i = some rd) :
    Outcome i s (s.withContext fun s => s.finish rd (g s)) := by
  rcases s.withContext_cases (fun s => s.finish rd (g s)) with ⟨hv, h⟩ | ⟨hv, h⟩
  · rw [h]
    exact .finished s rd (g s) (RanTo.refl i s) hd fun _ => hv
  · rw [h]
    exact .noCtx hn hv

/-- The search loop from a state whose request is sent. -/
theorem outcome_searchLoop {i : Instr} {s s1 : State} {d : Direction} {rd : Reg}
    (hu : usesPrimePort i = true) (hn : i.needsContext = false) (hd : destOf i = some rd) (hr : SameShown s s1)
    (hs : ∃ requests, s1.requests = requests ++ s.requests) (hw : ∃ r, s1.es = .run (some r))
    (hf : s.fits i → s1.es = .run (some (.prime s1.search.cand))) :
    Outcome i s (searchLoop d rd s1 s.inputs) := by
  obtain ⟨s', hran, htaken, hc⟩ := searchLoop_cases d rd s.inputs s1
  obtain ⟨a, ha⟩ := hs
  obtain ⟨b, hb⟩ := hran.requests
  have hto : RanTo i s s' :=
    ⟨hr.trans hran.shown, htaken, ⟨b ++ a, by rw [hb, ha, List.append_assoc]⟩, fun h => by rw [hu] at h; cases h⟩
  have hno : i.needsContext = true → s.ctx.valid = true := fun h => by rw [hn] at h; cases h
  rcases hc with h | h | ⟨h, _⟩
  · rw [h]; exact .finished s' rd _ hto hd hno
  · rw [h]; exact .faulted s' _ hto (.inr (.inr (.inl ⟨rfl, .inl hu⟩)))
  · obtain ⟨r, hr'⟩ := hran.running hw
    rw [h]
    refine .waits s' r hto hr' (fun hfit => ?_) (.inl hu) hno
    rw [State.fits, hran.waiting (hf hfit)]
    exact ⟨hu, rfl⟩

/-- A prime search, begun or resumed. -/
theorem outcome_primeSearch {i : Instr} {s : State} {d : Direction} {rd : Reg} {start : Except FatalCode Start}
    (hu : usesPrimePort i = true) (hnf : usesFactorPort i = false) (hn : i.needsContext = false)
    (hd : destOf i = some rd) (hstart : ∀ code, start = .error code → code = .searchRange) :
    Outcome i s (primeSearch d rd start s) := by
  unfold primeSearch
  split
  · next r he =>
    refine outcome_searchLoop hu hn hd (SameShown.refl s) ⟨[], rfl⟩ ⟨r, he⟩ fun hfit => ?_
    rw [State.fits, he] at hfit
    cases r with
    | prime x => exact hfit.2 ▸ he
    | factor m => rw [hnf] at hfit; cases hfit.1
  · cases start with
    | error code =>
      rw [hstart code rfl]
      exact .faulted s _ (RanTo.refl i s) (.inr (.inr (.inl ⟨rfl, .inl hu⟩)))
    | ok st => exact outcome_searchLoop hu hn hd (beginSearch_shown s st) ⟨[_], rfl⟩ ⟨_, rfl⟩ fun _ => rfl

/-- The wait for the factorization, and what follows it. -/
theorem outcome_awaitFactor {i : Instr} {s s1 : State} {rd : Reg} {result : State → SearchUnit → Option Word}
    (hu : usesFactorPort i = true) (hd : destOf i = some rd) (hv : s.ctx.valid = true) (hr : SameShown s s1)
    (hi : s1.inputs = s.inputs) (hs : ∃ requests, s1.requests = requests ++ s.requests)
    (hw : ∃ r, s1.es = .run (some r)) (hf : s.fits i → s1.fits i) :
    Outcome i s (awaitFactor (fun t u => t.finish rd (result t u)) s1) := by
  unfold awaitFactor
  split
  · next fs rest heq =>
    have hto : ∀ u, RanTo i s { s1 with inputs := rest, search := u } := fun u =>
      ⟨⟨hr.regs, hr.ctx, hr.cmd, hr.done, hr.ovr, hr.cause, hr.fcmd, hr.reads⟩, ⟨[_], by rw [← hi]; exact heq⟩, hs,
       fun _ h => by rw [hu] at h; cases h⟩
    split
    · next code hc =>
      refine .faulted _ code (hto s1.search) ?_
      rcases primitiveRoot_error hc with rfl | rfl
      · exact .inr (.inr (.inr ⟨rfl, hu⟩))
      · exact .inr (.inr (.inl ⟨rfl, .inr hu⟩))
    · next u hc => exact .finished _ rd _ (hto u) hd fun _ => hv
  · obtain ⟨r, hr'⟩ := hw
    exact .waits s1 r ⟨hr, ⟨[], by rw [hi]; rfl⟩, hs, fun _ h => by rw [hu] at h; cases h⟩ hr' hf (.inr hu) fun _ => hv

/-- A generator search, begun or resumed. The request `factor(Q - 1)` carries `Q - 1` itself: `Q` has 63 bits. -/
theorem outcome_generatorSearch {i : Instr} {s : State} {rd : Reg} {check : Except FatalCode Unit}
    {result : State → SearchUnit → Option Word} (hu : usesFactorPort i = true) (hd : destOf i = some rd)
    (hv : s.ctx.valid = true) (hcheck : ∀ code, check = .error code → code = .searchRange ∨ code = .divZero)
    (hop : check = .ok () → operandPassed i s) :
    Outcome i s (generatorSearch check (fun t u => t.finish rd (result t u)) s) := by
  unfold generatorSearch
  split
  · next r he => exact outcome_awaitFactor hu hd hv (SameShown.refl s) rfl ⟨[], rfl⟩ ⟨r, he⟩ id
  · cases check with
    | error code =>
      refine .faulted s code (RanTo.refl i s) ?_
      rcases hcheck code rfl with rfl | rfl
      · exact .inr (.inr (.inl ⟨rfl, .inr hu⟩))
      · exact .inr (.inr (.inr ⟨rfl, hu⟩))
    | ok _ =>
      refine outcome_awaitFactor hu hd hv (beginFactor_shown s) rfl ⟨[_], rfl⟩ ⟨_, rfl⟩ fun _ => ⟨hu, rfl, ?_, hop rfl⟩
      have hq : s.ctx.qNat < 2 ^ 63 := s.ctx.q.isLt
      rw [BitVec.toNat_ofNat, Nat.mod_eq_of_lt (by omega)]
      rfl

theorem fgenCheck_passed {n : Word} (h : fgenCheck n = .ok ()) : 1 ≤ n.toNat ∧ 2 * n.toNat < 2 ^ 64 := by
  unfold fgenCheck at h
  split at h
  · cases h
  · next h0 =>
    split at h
    · cases h
    · next h1 => exact ⟨Nat.one_le_iff_ne_zero.mpr fun e => h0 (BitVec.eq_of_toNat_eq e), Nat.not_le.mp h1⟩

theorem fgenCheck_error {n : Word} {code : FatalCode} (h : fgenCheck n = .error code) :
    code = .searchRange ∨ code = .divZero := by
  unfold fgenCheck at h
  split at h
  · cases h; exact .inr rfl
  · split at h <;> cases h
    exact .inl rfl

/-- What `exec` answers, whatever the command and the state. -/
theorem exec_outcome (i : Instr) (s : State) : ∃ t, exec i s = .next t ∧ Outcome i s t := by
  cases i with
  | ctxinit rs1 v =>
    cases h : buildContext (s.x rs1) v with
    | error code =>
      refine ⟨_, exec_ctxinit_error rs1 v s code h, .faulted s code (RanTo.refl _ s) (.inr (.inl ⟨?_, rs1, v, rfl⟩))⟩
      unfold buildContext at h
      split at h <;> cases h
      rfl
    | ok c => exact ⟨_, exec_ctxinit_ok rs1 v s c h, .built rs1 v c rfl h⟩
  | neg | add | sub | mul | sqr | pow | inv => exact ⟨_, rfl, outcome_withContext rfl rfl⟩
  | negIp | addIp | subIp | mulIp | sqrIp | powIp | invIp => exact ⟨_, rfl, outcome_withContext rfl rfl⟩
  | ffpu => exact ⟨_, rfl, outcome_primeSearch rfl rfl rfl rfl fun _ => startFirstUp_error⟩
  | fnpu => exact ⟨_, rfl, outcome_primeSearch rfl rfl rfl rfl fun _ => startNextUp_error⟩
  | ffpd => exact ⟨_, rfl, outcome_primeSearch rfl rfl rfl rfl fun _ => startFirstDown_error⟩
  | fnpd => exact ⟨_, rfl, outcome_primeSearch rfl rfl rfl rfl fun _ => startNextDown_error⟩
  | fpr rd =>
    refine ⟨_, rfl, ?_⟩
    rcases s.withContext_cases (generatorSearch (.ok ()) fun s u => s.finish rd (some u.root)) with ⟨hv, h⟩ | ⟨hv, h⟩
    · rw [h]; exact outcome_generatorSearch (result := fun _ u => some u.root) rfl rfl hv (fun _ h => nomatch h) fun _ _ _ h => nomatch h
    · rw [h]; exact .noCtx rfl hv
  | fgen rd rs1 =>
    refine ⟨_, rfl, ?_⟩
    rcases s.withContext_cases (generatorSearch (fgenCheck (s.x rs1)) fun t u =>
        t.finish rd (powf t.ctx (u.loadGexp (t.x rs1)).root (u.loadGexp (t.x rs1)).gexp)) with ⟨hv, h⟩ | ⟨hv, h⟩
    · rw [h]; exact outcome_generatorSearch rfl rfl hv (fun _ => fgenCheck_error) fun hc _ _ hi => by
        cases hi; exact fgenCheck_passed hc
    · rw [h]; exact .noCtx rfl hv

end Sys2Proof.Machine
end

