-- ==== Sys2Proof/Laws/PerInstr.lean ====
section
/-! SUPPORT. What holds of each command as syntax: its encoding passes every check of rule R75 and carries its own
operation code in the field `OP` (rules R71, R74). -/

namespace Sys2Proof

/-- The field `OP` of a value laid out from fields (rule R72). -/
theorem Fields.toWord_op (f : Fields) : f.toWord.extractLsb' 0 8 = f.op := by
  ext k hk
  rw [BitVec.getElem_extractLsb', Nat.zero_add]
  exact BitVec.getLsbD_append.trans (by rw [if_pos hk, BitVec.getLsbD_eq_getElem hk])

/-- The encoding of a command is legal and selects the command's own operation code. -/
def Laws.EncodingIsLegal.Statement (i : Instr) : Prop :=
  i.wellFormed = true ∧ (encode i).extractLsb' 0 8 = i.op

theorem Laws.EncodingIsLegal.ctxinit (rs1 : Reg) (v : Variant) : Laws.EncodingIsLegal.Statement (.ctxinit rs1 v) :=
  ⟨by cases v <;> rfl, Fields.toWord_op _⟩

theorem Laws.EncodingIsLegal.neg (rd rs1 : Reg) : Laws.EncodingIsLegal.Statement (.neg rd rs1) :=
  ⟨rfl, Fields.toWord_op _⟩

theorem Laws.EncodingIsLegal.add (rd rs1 rs2 : Reg) : Laws.EncodingIsLegal.Statement (.add rd rs1 rs2) :=
  ⟨rfl, Fields.toWord_op _⟩

theorem Laws.EncodingIsLegal.sub (rd rs1 rs2 : Reg) : Laws.EncodingIsLegal.Statement (.sub rd rs1 rs2) :=
  ⟨rfl, Fields.toWord_op _⟩

theorem Laws.EncodingIsLegal.mul (rd rs1 rs2 : Reg) : Laws.EncodingIsLegal.Statement (.mul rd rs1 rs2) :=
  ⟨rfl, Fields.toWord_op _⟩

theorem Laws.EncodingIsLegal.sqr (rd rs1 : Reg) : Laws.EncodingIsLegal.Statement (.sqr rd rs1) :=
  ⟨rfl, Fields.toWord_op _⟩

theorem Laws.EncodingIsLegal.pow (rd rs1 rs2 : Reg) : Laws.EncodingIsLegal.Statement (.pow rd rs1 rs2) :=
  ⟨rfl, Fields.toWord_op _⟩

theorem Laws.EncodingIsLegal.inv (rd rs1 : Reg) : Laws.EncodingIsLegal.Statement (.inv rd rs1) :=
  ⟨rfl, Fields.toWord_op _⟩

theorem Laws.EncodingIsLegal.negIp (rs1 : Reg) : Laws.EncodingIsLegal.Statement (.negIp rs1) :=
  ⟨rfl, Fields.toWord_op _⟩

theorem Laws.EncodingIsLegal.addIp (rs1 rs2 : Reg) : Laws.EncodingIsLegal.Statement (.addIp rs1 rs2) :=
  ⟨rfl, Fields.toWord_op _⟩

theorem Laws.EncodingIsLegal.subIp (rs1 rs2 : Reg) : Laws.EncodingIsLegal.Statement (.subIp rs1 rs2) :=
  ⟨rfl, Fields.toWord_op _⟩

theorem Laws.EncodingIsLegal.mulIp (rs1 rs2 : Reg) : Laws.EncodingIsLegal.Statement (.mulIp rs1 rs2) :=
  ⟨rfl, Fields.toWord_op _⟩

theorem Laws.EncodingIsLegal.sqrIp (rs1 : Reg) : Laws.EncodingIsLegal.Statement (.sqrIp rs1) :=
  ⟨rfl, Fields.toWord_op _⟩

theorem Laws.EncodingIsLegal.powIp (rs1 rs2 : Reg) : Laws.EncodingIsLegal.Statement (.powIp rs1 rs2) :=
  ⟨rfl, Fields.toWord_op _⟩

theorem Laws.EncodingIsLegal.invIp (rs1 : Reg) : Laws.EncodingIsLegal.Statement (.invIp rs1) :=
  ⟨rfl, Fields.toWord_op _⟩

theorem Laws.EncodingIsLegal.ffpu (rd rs1 rs2 : Reg) : Laws.EncodingIsLegal.Statement (.ffpu rd rs1 rs2) :=
  ⟨rfl, Fields.toWord_op _⟩

theorem Laws.EncodingIsLegal.fnpu (rd rs1 rs2 : Reg) : Laws.EncodingIsLegal.Statement (.fnpu rd rs1 rs2) :=
  ⟨rfl, Fields.toWord_op _⟩

theorem Laws.EncodingIsLegal.ffpd (rd rs1 rs2 : Reg) : Laws.EncodingIsLegal.Statement (.ffpd rd rs1 rs2) :=
  ⟨rfl, Fields.toWord_op _⟩

theorem Laws.EncodingIsLegal.fnpd (rd rs1 rs2 : Reg) : Laws.EncodingIsLegal.Statement (.fnpd rd rs1 rs2) :=
  ⟨rfl, Fields.toWord_op _⟩

theorem Laws.EncodingIsLegal.fpr (rd : Reg) : Laws.EncodingIsLegal.Statement (.fpr rd) :=
  ⟨rfl, Fields.toWord_op _⟩

theorem Laws.EncodingIsLegal.fgen (rd rs1 : Reg) : Laws.EncodingIsLegal.Statement (.fgen rd rs1) :=
  ⟨rfl, Fields.toWord_op _⟩

end Sys2Proof
end

