-- ==== Sys2Proof/Laws/Run.lean ====
section
/-! SUPPORT. Running the machine several steps, one step at a time. -/

namespace Sys2Proof.Machine

theorem run_next (n : Nat) {s t : State} (h : step s = .next t) :
    Sys2Proof.core.run (n + 1) s = Sys2Proof.core.run n t := by
  have h' : Sys2Proof.core.step s = .next t := h
  simp only [Host.Core.run, h']

theorem run_fault (n : Nat) {s : State} {r : Fault} (h : step s = .fault r) :
    Sys2Proof.core.run (n + 1) s = .fault r := by
  have h' : Sys2Proof.core.step s = .fault r := h
  simp only [Host.Core.run, h']

theorem run_refused (n : Nat) {s : State} {r : Refusal} (h : step s = .refused r) :
    Sys2Proof.core.run (n + 1) s = .refused r := by
  have h' : Sys2Proof.core.step s = .refused r := h
  simp only [Host.Core.run, h']

/-- One step run is the step. -/
theorem run_one (s : State) : Sys2Proof.core.run 1 s = step s := by
  cases h : step s with
  | next t => rw [run_next 0 h]; rfl
  | fault r => exact run_fault 0 h
  | refused r => exact run_refused 0 h

end Sys2Proof.Machine
end

