-- ==== Sys2Proof/Tests/Slice0.lean ====
section
/-! SUPPORT. The model's own tests: the well-formedness smoke tests, decoding of written-out words, one or two small
steps per command with values from 95_test_vectors.md, and for each statement a witness of its hypotheses. -/

namespace Sys2Proof.Tests

open Sys2Proof.Machine

/-! ### Helpers -/

/-- The context `CTXINIT` builds for `q` (rules R92 to R94). -/
def contextOf (q : Nat) (v : Variant) : Context :=
  ⟨BitVec.ofNat 63 q, BitVec.ofNat 7 (bitlen q), BitVec.ofNat 65 (2 ^ (2 * bitlen q) / q), v, true⟩

/-- An idle engine with a context, `x[1]`, `x[2]` and a timeline. -/
def ready (c : Context) (x1 x2 : Nat) (inputs : List Event) : State :=
  { (State.reset.setX 1 (BitVec.ofNat 64 x1)).setX 2 (BitVec.ofNat 64 x2) with ctx := c, inputs := inputs }

/-- A data register after a step that has a next state. -/
def reg? (o : Result) (r : Reg) : Option Word :=
  match o with
  | .next t => some (t.x r)
  | _ => none

/-- `STATUS`, `CAUSE` and `FCMD` after a step that has a next state. -/
def flags? (o : Result) : Option (Word × Word × Word) :=
  match o with
  | .next t => some (t.hostRead 0x01, t.hostRead 0x02, t.hostRead 0x07)
  | _ => none

/-- `ES` after a step that has a next state. -/
def es? (o : Result) : Option EngineState :=
  match o with
  | .next t => some t.es
  | _ => none

/-- The context after a step that has a next state. -/
def ctx? (o : Result) : Option Context :=
  match o with
  | .next t => some t.ctx
  | _ => none

/-- Answers of the PRIME port: `k` times false, then true. -/
def primeAfter (k : Nat) : List Event := List.replicate k (.primeAnswer false) ++ [.primeAnswer true]

/-! ### Well-formedness: an ill-formed term for each check of rule R75 and of rule R35 -/

theorem test_upperHalf_refused : (Fields.mk 0x21 3 1 2 0 0 1).upperHalfZero = false := by decide
theorem test_reservedBits_refused : (Fields.mk 0x21 3 1 2 0 1 0).reservedZero = false := by decide
theorem test_unknownOp_refused : (Fields.mk 0x27 3 1 2 0 0 0).opKnown = false := by decide
theorem test_unusedV_refused : (Fields.mk 0x21 3 1 2 1 0 0).unusedZero = false := by decide
theorem test_unusedRs2_refused : (Fields.mk 0x20 2 1 2 0 0 0).unusedZero = false := by decide
theorem test_unusedRs1_refused : (Fields.mk 0x48 3 1 0 0 0 0).unusedZero = false := by decide
theorem test_unusedRd_refused : (Fields.mk 0x30 1 1 0 0 0 0).unusedZero = false := by decide
theorem test_checks_named : (Fields.mk 0x21 3 1 2 0 0 1).illegal? = some .upperHalf ∧
    (Fields.mk 0x21 3 1 2 0 1 0).illegal? = some .reservedBits ∧
    (Fields.mk 0x27 3 1 2 0 0 0).illegal? = some .unknownOp ∧
    (Fields.mk 0x20 2 1 2 0 0 0).illegal? = some .unusedField ∧
    (Fields.mk 0x21 3 1 2 0 0 0).wellFormed = true := by decide
theorem test_multiplicity_refused : factorSetWellFormed [(2, 0)] = false ∧ factorSetWellFormed [(2, 64)] = false ∧
    factorSetWellFormed [(2, 63), (3, 1)] = true := by decide

/-! ### Decoding: words written out field by field (rule R72: `V` 17, `RS2` 16..14, `RS1` 13..11, `RD` 10..8, `OP`) -/

/-- vector C3: V=1, RS2=000, RS1=111, RD=000, OP=0001_0000 -/
theorem test_decode_ctxinit : decode 0b100011100000010000 = .ok (.ctxinit 7 .b) := by decide
/-- vector C8: V=0, RS2=000, RS1=001, RD=010, OP=0010_0000 -/
theorem test_decode_neg : decode 0b000000101000100000 = .ok (.neg 2 1) := by decide
/-- vector C4: V=0, RS2=010, RS1=001, RD=011, OP=0010_0001 -/
theorem test_decode_add : decode 0b001000101100100001 = .ok (.add 3 1 2) := by decide
/-- vectors C5, C6, C7 -/
theorem test_decode_sub_mul_pow : decode 0x8B22 = .ok (.sub 3 1 2) ∧ decode 0x8B23 = .ok (.mul 3 1 2) ∧
    decode 0x8B25 = .ok (.pow 3 1 2) := by decide
/-- vectors C9, C10 -/
theorem test_decode_sqr_inv : decode 0x0A24 = .ok (.sqr 2 1) ∧ decode 0x0A26 = .ok (.inv 2 1) := by decide
/-- vector I4: V=0, RS2=010, RS1=001, RD=000, OP=0011_0011 -/
theorem test_decode_mulIp : decode 0b001000100000110011 = .ok (.mulIp 1 2) := by decide
/-- vectors I1, I5, I7 -/
theorem test_decode_inPlace_one : decode 0x0830 = .ok (.negIp 1) ∧ decode 0x0834 = .ok (.sqrIp 1) ∧
    decode 0x0836 = .ok (.invIp 1) := by decide
/-- vectors I2, I3, I6 -/
theorem test_decode_inPlace_two : decode 0x8831 = .ok (.addIp 1 2) ∧ decode 0x8832 = .ok (.subIp 1 2) ∧
    decode 0x8835 = .ok (.powIp 1 2) := by decide
/-- vector C11: V=0, RS2=010, RS1=001, RD=011, OP=0100_0000 to 0100_0011 -/
theorem test_decode_primeSearch : decode 0b001000101101000000 = .ok (.ffpu 3 1 2) ∧
    decode 0x8B41 = .ok (.fnpu 3 1 2) ∧ decode 0x8B42 = .ok (.ffpd 3 1 2) ∧
    decode 0x8B43 = .ok (.fnpd 3 1 2) := by decide
/-- vectors C12, C13: RD=011, OP=0100_1000; RS1=001, RD=010, OP=0100_1001 -/
theorem test_decode_generatorSearch : decode 0b000000001101001000 = .ok (.fpr 3) ∧
    decode 0b000000101001001001 = .ok (.fgen 2 1) := by decide
/-- vectors C15 to C24 -/
theorem test_decode_illegal : decode 0 = .error .unknownOp ∧ decode 0x27 = .error .unknownOp ∧
    decode 0x8B20 = .error .unusedField ∧ decode 0x20021 = .error .unusedField ∧
    decode 0x40021 = .error .reservedBits ∧ decode 0x100000021 = .error .upperHalf ∧
    decode 0x8348 = .error .unusedField ∧ decode 0x0930 = .error .unusedField ∧
    decode 0x0110 = .error .unusedField ∧ decode 0x37 = .error .unknownOp := by decide
/-- rule R78: the pseudo-instructions -/
theorem test_pseudo : (Pseudo.ctxinitA 0).expand = .ctxinit 0 .a ∧ (Pseudo.ctxinitB 0).expand = .ctxinit 0 .b ∧
    (Pseudo.ctxinitPlain 0).expand = .ctxinit 0 .a := by decide
theorem test_tableWord : decodeTableWord 32 0x8B21 = some (.add 3 1 2) ∧ decodeTableWord 32 0 = none := by decide

/-! ### One step per command (Q = 17, `x[1] = 5`, `x[2] = 6` unless said) -/

/-- vectors X5, X10 -/
theorem test_ctxinit : ctx? (exec (.ctxinit 1 .a) (ready Context.none 17 0 [])) = some (contextOf 17 .a) ∧
    ctx? (exec (.ctxinit 1 .b) (ready Context.none (2 ^ 62) 0 [])) =
      some ⟨0x4000000000000000, 63, 0x10000000000000000, .b, true⟩ := by decide
/-- vectors X1, X11 -/
theorem test_ctxinit_range : flags? (step (ready Context.none 0 0 [.command 0x810])) = some (4, 1, 0x810) ∧
    flags? (step (ready Context.none (2 ^ 63) 0 [.command 0x810])) = some (4, 1, 0x810) := by decide
/-- vectors A1, A6 -/
theorem test_neg : reg? (exec (.neg 3 1) (ready (contextOf 17 .a) 0 0 [])) 3 = some 17 ∧
    reg? (exec (.neg 3 1) (ready (contextOf 17 .a) 18 0 [])) 3 = some 0xFFFFFFFFFFFFFFFF := by decide
/-- vectors A7, A9 -/
theorem test_add : reg? (exec (.add 3 1 2) (ready (contextOf 17 .a) 5 6 [])) 3 = some 11 ∧
    reg? (exec (.add 3 1 2) (ready (contextOf 17 .a) 16 1 [])) 3 = some 0 := by decide
/-- vectors A14, A20 -/
theorem test_sub : reg? (exec (.sub 3 1 2) (ready (contextOf 17 .a) 5 6 [])) 3 = some 16 ∧
    reg? (exec (.sub 3 1 2) (ready (contextOf 17 .a) 3 17 [])) 3 = some 3 := by decide
/-- vectors M8, M13 -/
theorem test_mul : reg? (exec (.mul 3 1 2) (ready (contextOf 491 .a) 483 490 [])) 3 = some 8 ∧
    reg? (exec (.mul 3 1 2)
      (ready (contextOf 0x7FFFFFF88CE377B5 .b) 0x7FFFFFF85C87207A 0x7FFFFFF86642FC86 [])) 3 =
        some 0x074C05EE85BD5CD5 := by decide
/-- rule R125's witness rows with one correction -/
theorem test_one_correction : barrett .one (contextOf 491 .a) (483 * 490) = 499 ∧
    barrett .one (contextOf 0x7FFFFFF88CE377B5 .a) (0x7FFFFFF85C87207A * 0x7FFFFFF86642FC86) =
      0x074C05DF9F844C3F := by decide
/-- vector M17 -/
theorem test_sqr : reg? (exec (.sqr 3 1) (ready (contextOf (2 ^ 63 - 25) .a) 0x0123456789ABCDEF 0 [])) 3 =
    some 0x5CE69C1F9318D2D2 := by decide
/-- vectors E1, E9 -/
theorem test_pow : reg? (exec (.pow 3 1 2) (ready (contextOf 17 .a) 3 5 [])) 3 = some 5 ∧
    reg? (exec (.pow 3 1 2) (ready (contextOf 17 .a) 17 0 [])) 3 = some 1 := by decide
/-- vectors E16, E19 -/
theorem test_inv : reg? (exec (.inv 3 1) (ready (contextOf 17 .a) 5 0 [])) 3 = some 7 ∧
    reg? (exec (.inv 3 1) (ready (contextOf 2 .a) 0 0 [])) 3 = some 1 := by decide
/-- vector I1 -/
theorem test_negIp : reg? (step (ready (contextOf 17 .a) 5 6 [.command 0x0830])) 1 = some 12 := by decide
/-- vectors I2, I8 -/
theorem test_addIp : reg? (step (ready (contextOf 17 .a) 5 6 [.command 0x8831])) 1 = some 11 ∧
    reg? (step (ready (contextOf 17 .a) 5 6 [.command 0x4831])) 1 = some 10 := by decide
/-- vector I3 -/
theorem test_subIp : reg? (step (ready (contextOf 17 .a) 5 6 [.command 0x8832])) 1 = some 16 := by decide
/-- vector I4 -/
theorem test_mulIp : reg? (step (ready (contextOf 17 .a) 5 6 [.command 0x8833])) 1 = some 13 := by decide
/-- vector I5 -/
theorem test_sqrIp : reg? (step (ready (contextOf 17 .a) 5 6 [.command 0x0834])) 1 = some 8 := by decide
/-- vectors I6, I9 -/
theorem test_powIp : reg? (step (ready (contextOf 17 .a) 5 6 [.command 0x8835])) 1 = some 2 ∧
    reg? (step (ready (contextOf 17 .a) 5 6 [.command 0x9035])) 2 = some 8 := by decide
/-- vector I7 -/
theorem test_invIp : reg? (step (ready (contextOf 17 .a) 5 6 [.command 0x0836])) 1 = some 7 := by decide
/-- vectors F8, F15 -/
theorem test_ffpu : reg? (exec (.ffpu 3 1 2) (ready Context.none 3 4 (primeAfter 1))) 3 = some 17 ∧
    flags? (step (ready Context.none 64 8 [.command 0x8B40])) = some (4, 4, 0x8B40) := by decide
/-- vectors F2, F19 -/
theorem test_fnpu : reg? (exec (.fnpu 3 1 2) (ready Context.none 65537 8 (primeAfter 4))) 3 = some 65617 ∧
    flags? (step (ready Context.none 0xFFFFFFFFFFFFFFFF 1 [.command 0x8B41])) = some (4, 4, 0x8B41) := by decide
/-- vectors F9, F17 -/
theorem test_ffpd : reg? (exec (.ffpd 3 1 2) (ready Context.none 5 4 (primeAfter 1))) 3 = some 17 ∧
    flags? (step (ready Context.none 3 8 [.command 0x8B42])) = some (4, 4, 0x8B42) := by decide
/-- vectors F4, F18 -/
theorem test_fnpd : reg? (exec (.fnpd 3 1 2) (ready Context.none 65521 8 (primeAfter 7))) 3 = some 65393 ∧
    flags? (step (ready Context.none 7 8 [.command 0x8B43])) = some (4, 4, 0x8B43) := by decide
/-- vectors G1, G16 -/
theorem test_fpr : reg? (exec (.fpr 3) (ready (contextOf 17 .a) 0 0 [.factorAnswer [(2, 4)]])) 3 = some 3 ∧
    flags? (step (ready (contextOf 17 .a) 0 0 [.command 0x348, .factorAnswer [(17, 1)]])) =
      some (0xC, 4, 0x348) := by decide
/-- vectors G2, G11 -/
theorem test_fgen : reg? (exec (.fgen 2 1) (ready (contextOf 17 .a) 2 0 [.factorAnswer [(2, 4)]])) 2 = some 13 ∧
    reg? (exec (.fgen 2 1) (ready (contextOf 17 .a) 3 0 [.factorAnswer [(2, 4)]])) 2 = some 9 := by decide

/-! ### Host port and faults -/

/-- vectors H1, H10: `STATUS` after a completed command -/
theorem test_status : State.reset.hostRead 0x01 = 0 ∧
    flags? (step (ready Context.none 0 0 (.command 0x8B40 :: primeAfter 0))) = some (2, 0, 0) := by decide
/-- vectors H8, H9 -/
theorem test_faults : flags? (step (ready Context.none 0 0 [.command 0x8B21])) = some (4, 3, 0x8B21) ∧
    flags? (step (ready Context.none 0 0 [.write 0 0x20021])) = some (4, 2, 0x20021) := by decide
/-- vector H5 on a search that waits: the write is dropped, `STATUS` = 0x21 -/
theorem test_dropped : flags? (step { ready Context.none 3 0 [.write 8 7] with es := .run (some (.prime 9)) }) =
    some (0x21, 0, 0) := by decide

/-! ### Witnesses: for each statement with hypotheses, a concrete state and operands that meet all of them -/

/-- An engine in `RUN` on `ADD R3, R1, R2`, modulo 17. -/
def running : State := { ready (contextOf 17 .a) 5 6 [] with es := .run none, cmd := 0x8B21 }

/-- An engine in `RUN` on `FFPU R3, R1, R2` that waits for the answer about 9. -/
def searching : State :=
  { ready Context.none 3 4 [] with
    es := .run (some (.prime 9)), cmd := 0x8B40, search := ⟨9, 8, 0, 0, 0, []⟩, requests := [.prime 9] }

/-- A halted engine: `ADD` without a context (vector H8). -/
def halted : State := ((ready Context.none 5 6 []).accept 0x8B21).fatal .noCtx

/-- The context of a modulus in range is usable when its three numbers are those of rule R24. -/
theorem usable_contextOf (q : Nat) (v : Variant)
    (h : 2 ≤ (contextOf q .a).qNat ∧ (contextOf q .a).logqNat = bitlen (contextOf q .a).qNat ∧
      (contextOf q .a).muNat = 2 ^ (2 * bitlen (contextOf q .a).qNat) / (contextOf q .a).qNat) :
    (contextOf q v).usable := by
  have hv : (contextOf q v).valid = true := rfl
  refine ⟨hv, ?_⟩
  rw [Context.wellFormed, if_pos hv]
  exact h

theorem usable_17 (v : Variant) : (contextOf 17 v).usable := usable_contextOf 17 v (by decide)

/-- The boundary moduli 2, `2^62` and `2^63 - 1`. -/
theorem witness_ContextBounds : (contextOf 17 .a).usable ∧ (contextOf 2 .b).usable ∧ (contextOf (2 ^ 62) .a).usable ∧
    (contextOf (2 ^ 63 - 1) .b).usable :=
  ⟨usable_17 .a, usable_contextOf _ _ (by decide), usable_contextOf _ _ (by decide), usable_contextOf _ _ (by decide)⟩

theorem begins_ready (c : Context) (x1 x2 : Nat) (inputs : List Event) : (ready c x1 x2 inputs).begins := .inl rfl

theorem witness_DecodeReadsEncode : (Instr.add 3 1 2).wellFormed = true ∧ (Instr.ctxinit 7 .b).wellFormed = true := by
  decide

theorem witness_LegalWordIsItsEncoding : decode 0x23810 = .ok (.ctxinit 7 .b) ∧ decode 0x8B21 = .ok (.add 3 1 2) := by
  decide

theorem witness_IllegalExactlyByTheFields : (ready Context.none 5 6 []).es = .idle ∧
    decode 0x20021 = .error .unusedField := by decide

theorem witness_StepRunsTheDecodedCommand :
    (ready (contextOf 17 .a) 5 6 [.command 0x8B21]).es = .idle ∧
    (ready (contextOf 17 .a) 5 6 [.command 0x8B21]).inputs = [.command 0x8B21] ∧
    decode 0x8B21 = .ok (.add 3 1 2) ∧ decodeTableWord 32 0x8B21 = some (.add 3 1 2) := by decide

theorem witness_RunningEngineRunsItsCommand : running.es = .run none ∧ decode running.cmd = .ok (.add 3 1 2) := by
  decide

theorem witness_MergedRunIsIssueThenEngine : (ready (contextOf 17 .a) 5 6 []).es = .idle := by decide

/-- One word for each of the three clauses: illegal, without its context, legal. -/
theorem witness_IssueStepAnswers : (ready Context.none 5 6 []).es = .idle ∧ decode 0x20021 = .error .unusedField ∧
    decode 0x8B21 = .ok (.add 3 1 2) ∧ (Instr.add 3 1 2).needsContext = true ∧
    (ready Context.none 5 6 []).ctx.valid = false ∧
    decode 0x8B40 = .ok (.ffpu 3 1 2) ∧ (Instr.ffpu 3 1 2).needsContext = false := by decide

theorem witness_HostAccessesDoNotDisturbARun : running.es = .run none ∧
    ∀ e ∈ [Event.write 0x09 7, .command 0x8B21, .read 0x01, .write 0x10 1], e.isHostAccess = true := by decide

/-- Each clause at the ends of its index range. -/
theorem witness_HostWriteIsAcceptedDroppedOrIgnored : State.reset.es = .idle ∧ running.es ≠ .idle ∧
    (0x08 : Index).toNat = 8 + (0 : Reg).val ∧ (0x0F : Index).toNat = 8 + (7 : Reg).val ∧
    (8 ≤ (0x08 : Index).toNat ∧ (0x08 : Index).toNat ≤ 15) ∧ (8 ≤ (0x0F : Index).toNat ∧ (0x0F : Index).toNat ≤ 15) ∧
    ((0x01 : Index) ≠ 0 ∧ ¬ (8 ≤ (0x01 : Index).toNat ∧ (0x01 : Index).toNat ≤ 15)) ∧
    ((0x07 : Index) ≠ 0 ∧ ¬ (8 ≤ (0x07 : Index).toNat ∧ (0x07 : Index).toNat ≤ 15)) ∧
    ((0x10 : Index) ≠ 0 ∧ ¬ (8 ≤ (0x10 : Index).toNat ∧ (0x10 : Index).toNat ≤ 15)) ∧
    ((0x3F : Index) ≠ 0 ∧ ¬ (8 ≤ (0x3F : Index).toNat ∧ (0x3F : Index).toNat ≤ 15)) := by decide

theorem witness_HostReadMap : 0x10 ≤ (0x10 : Index).toNat ∧ 0x10 ≤ (0x3F : Index).toNat := by decide

/-- An engine that waits for an answer meets the invariant: its command and its request belong together. -/
theorem searching_inv : searching.Inv := by
  refine ⟨rfl, (fun h => by cases h), fun _ => ⟨rfl, rfl⟩, (fun h => by cases h), fun request h => ?_⟩
  cases h
  exact ⟨.ffpu 3 1 2, by decide, (fun h => by cases h), rfl, rfl⟩

/-- A halted engine meets the invariant. -/
theorem halted_inv : halted.Inv :=
  ⟨rfl, (fun h => by cases h), fun h => (h rfl).elim, fun _ => ⟨⟨.noCtx, rfl⟩, rfl⟩, fun _ h => by cases h⟩

theorem witness_EveryStepKeepsTheInvariant : searching.Inv ∧ step searching = .next searching :=
  ⟨searching_inv, rfl⟩

theorem witness_NoStepStops : searching.Inv ∧ halted.Inv := ⟨searching_inv, halted_inv⟩

theorem witness_StatusFlagsExcludeEachOther : halted.Inv ∧ searching.Inv ∧ searching.isFatal = false :=
  ⟨halted_inv, searching_inv, by decide⟩

/-- A write to the last data register and one to the index after it; reset. -/
theorem witness_OnlyResetLeavesHalted : halted.es = .halted ∧
    { halted with inputs := [.reset] }.es = .halted ∧ Event.isDropped (.write 0x0F 7) = true ∧
    Event.isDropped (.write 0x10 7) = false := ⟨rfl, rfl, by decide, by decide⟩

theorem witness_NoContextTraps : (ready Context.none 5 6 []).begins ∧ (Instr.fgen 2 1).needsContext = true ∧
    (ready Context.none 5 6 []).ctx.valid = false := ⟨begins_ready _ _ _ _, rfl, rfl⟩

/-- One command for each cause a decoded command raises; a step from a state that is not halted to one that is. -/
theorem witness_WhoRaisesWhat :
    es? (exec (.add 3 1 2) (ready Context.none 5 6 [])) = some .halted ∧
    es? (exec (.ctxinit 1 .a) (ready Context.none 1 0 [])) = some .halted ∧
    es? (exec (.fnpd 3 1 2) (ready Context.none 7 8 [])) = some .halted ∧
    es? (exec (.fgen 2 1) (ready (contextOf 17 .a) 0 0 [])) = some .halted ∧
    (ready Context.none 5 6 [.command 0]).es ≠ .halted ∧
    es? (step (ready Context.none 5 6 [.command 0])) = some .halted := by decide

theorem witness_ArithmeticIsTotal : (ready (contextOf 17 .a) 17 17 []).begins ∧
    (ready (contextOf 17 .a) 17 17 []).ctx.valid = true ∧ (Instr.mul 3 1 2).needsContext = true ∧
    usesFactorPort (.mul 3 1 2) = false ∧ destOf (.mul 3 1 2) = some 3 :=
  ⟨begins_ready _ _ _ _, rfl, rfl, rfl, rfl⟩

/-- A command that completes and one that faults. -/
theorem witness_CommandFrame : es? (exec (.add 3 1 2) (ready (contextOf 17 .a) 5 6 [])) = some .idle ∧
    es? (exec (.add 3 1 2) (ready Context.none 5 6 [])) = some .halted ∧ destOf (.add 3 1 2) ≠ some 1 := by decide

theorem witness_HiddenRegistersAreNeverRead : running.begins := .inr rfl

/-- Each clause at the ends of its range: 2 and `2^63 - 1`, 1 and `2^63`. -/
theorem witness_CtxinitBuildsTheContext : (ready Context.none 2 0 []).begins ∧
    (2 ≤ ((ready Context.none 2 0 []).x 1).toNat ∧ ((ready Context.none 2 0 []).x 1).toNat < 2 ^ 63) ∧
    (2 ≤ ((ready Context.none (2 ^ 63 - 1) 0 []).x 1).toNat ∧
      ((ready Context.none (2 ^ 63 - 1) 0 []).x 1).toNat < 2 ^ 63) ∧
    ((ready Context.none 1 0 []).x 1).toNat < 2 ∧ 2 ^ 63 ≤ ((ready Context.none (2 ^ 63) 0 []).x 1).toNat :=
  ⟨begins_ready _ _ _ _, by decide, by decide, by decide, by decide⟩

/-- The smallest and the largest legal modulus. -/
theorem witness_LogqIsTheBitLength : (2 ≤ (2 : Word).toNat ∧ (2 : Word).toNat < 2 ^ 63) ∧
    (2 ≤ (0x7FFFFFFFFFFFFFFF : Word).toNat ∧ (0x7FFFFFFFFFFFFFFF : Word).toNat < 2 ^ 63) := by decide

/-- An operand `Q` and an operand `Q + 1`. -/
theorem witness_NegateResult : (ready (contextOf 17 .a) 17 18 []).begins ∧
    (ready (contextOf 17 .a) 17 18 []).ctx.valid = true ∧
    ((ready (contextOf 17 .a) 17 18 []).x 1).toNat ≤ (contextOf 17 .a).qNat ∧
    ¬ ((ready (contextOf 17 .a) 17 18 []).x 2).toNat ≤ (contextOf 17 .a).qNat :=
  ⟨begins_ready _ _ _ _, by decide, by decide, by decide⟩

/-- The sums `2^64 - 1` and `2Q - 1`. -/
theorem witness_AddResult : (ready (contextOf 17 .a) 17 16 []).begins ∧
    (ready (contextOf 17 .a) 17 16 []).ctx.valid = true ∧
    ((ready (contextOf 17 .a) 17 16 []).x 1).toNat + ((ready (contextOf 17 .a) 17 16 []).x 2).toNat <
      2 * (contextOf 17 .a).qNat ∧
    ((ready (contextOf 17 .a) (2 ^ 64 - 2) 1 []).x 1).toNat +
      ((ready (contextOf 17 .a) (2 ^ 64 - 2) 1 []).x 2).toNat < 2 ^ 64 :=
  ⟨begins_ready _ _ _ _, by decide, by decide, by decide⟩

/-- `a = b`, `a < b` with `b = Q + a`, and two residues. -/
theorem witness_SubResult : (ready (contextOf 17 .a) 5 6 []).begins ∧
    (ready (contextOf 17 .a) 5 6 []).ctx.valid = true ∧
    ((ready (contextOf 17 .a) 5 5 []).x 2).toNat ≤ ((ready (contextOf 17 .a) 5 5 []).x 1).toNat ∧
    (((ready (contextOf 17 .a) 5 22 []).x 1).toNat < ((ready (contextOf 17 .a) 5 22 []).x 2).toNat ∧
      (contextOf 17 .a).qNat + ((ready (contextOf 17 .a) 5 22 []).x 1).toNat < 2 ^ 64 ∧
      ((ready (contextOf 17 .a) 5 22 []).x 2).toNat ≤
        (contextOf 17 .a).qNat + ((ready (contextOf 17 .a) 5 22 []).x 1).toNat) ∧
    (((ready (contextOf 17 .a) 5 16 []).x 1).toNat < (contextOf 17 .a).qNat ∧
      ((ready (contextOf 17 .a) 5 16 []).x 2).toNat < (contextOf 17 .a).qNat) :=
  ⟨begins_ready _ _ _ _, by decide, by decide, by decide, by decide⟩

theorem witness_AdditiveGroupLaws : (0 : Word).toNat < (contextOf 17 .a).qNat ∧
    (16 : Word).toNat < (contextOf 17 .a).qNat := by decide

theorem witness_AddingZeroRepairsNegatedZero : (16 : Word).toNat < (contextOf 17 .a).qNat := by decide

theorem witness_BarrettEstimateWithinTwo : (contextOf 17 .a).usable ∧ 17 ^ 2 - 1 < (contextOf 17 .a).qNat ^ 2 :=
  ⟨usable_17 .a, by decide⟩

/-- The three cases of rule R125 with one correction: M1 (`Q = 17`), M8 and M13. -/
theorem witness_BarrettReductionResult :
    (contextOf 491 .a).usable ∧ 483 * 490 < (contextOf 491 .a).qNat ^ 2 ∧
    30 / (contextOf 491 .a).qNat ≤ quotientEstimate (contextOf 491 .a) 30 + 1 ∧
    (483 * 490 / (contextOf 491 .a).qNat = quotientEstimate (contextOf 491 .a) (483 * 490) + 2 ∧
      remainderCandidate (contextOf 491 .a) (483 * 490) < 2 ^ 64) ∧
    (contextOf 0x7FFFFFF88CE377B5 .a).usable ∧
    0x7FFFFFF85C87207A * 0x7FFFFFF86642FC86 < (contextOf 0x7FFFFFF88CE377B5 .a).qNat ^ 2 ∧
    (0x7FFFFFF85C87207A * 0x7FFFFFF86642FC86 / (contextOf 0x7FFFFFF88CE377B5 .a).qNat =
      quotientEstimate (contextOf 0x7FFFFFF88CE377B5 .a) (0x7FFFFFF85C87207A * 0x7FFFFFF86642FC86) + 2 ∧
      2 ^ 64 ≤ remainderCandidate (contextOf 0x7FFFFFF88CE377B5 .a) (0x7FFFFFF85C87207A * 0x7FFFFFF86642FC86)) :=
  ⟨usable_contextOf _ _ (by decide), by decide, by decide, by decide, usable_contextOf _ _ (by decide), by decide,
   by decide⟩

theorem witness_MultiplyResult : (ready (contextOf 17 .b) 16 16 []).begins ∧ (contextOf 17 .b).usable ∧
    ((ready (contextOf 17 .b) 16 16 []).x 1).toNat < (contextOf 17 .b).qNat ∧
    ((ready (contextOf 17 .b) 16 16 []).x 2).toNat < (contextOf 17 .b).qNat :=
  ⟨begins_ready _ _ _ _, usable_17 .b, by decide, by decide⟩

theorem witness_MultiplicationLaws : (contextOf 17 .a).usable ∧ (16 : Word).toNat < (contextOf 17 .a).qNat ∧
    (5 : Word).toNat < (contextOf 17 .a).qNat := ⟨usable_17 .a, by decide, by decide⟩

theorem witness_VariantsAreIndistinguishable : (ready (contextOf 17 .a) 5 6 []).ctx.usable ∧
    (∀ rs1 w, Instr.mul 3 1 2 ≠ .ctxinit rs1 w) ∧ (0x03 : Index) ≠ 0x01 :=
  ⟨usable_17 .a, fun _ _ h => (nomatch h), by decide⟩

/-- A residue with the largest exponent, and exponent 0. -/
theorem witness_PowerResult : (ready (contextOf 17 .a) 16 (2 ^ 64 - 1) []).begins ∧
    (ready (contextOf 17 .a) 16 (2 ^ 64 - 1) []).ctx.usable ∧
    ((ready (contextOf 17 .a) 16 (2 ^ 64 - 1) []).x 1).toNat < (contextOf 17 .a).qNat ∧
    (ready (contextOf 17 .a) 17 0 []).x 2 = 0 := ⟨begins_ready _ _ _ _, usable_17 .a, by decide, by decide⟩

/-- A nonzero residue of a prime modulus, the operand 0, the modulus 2. -/
theorem witness_InverseResult : (ready (contextOf 17 .a) 16 0 []).begins ∧ (contextOf 17 .a).usable ∧
    (contextOf 17 .a).qNat.Prime ∧ 0 < ((ready (contextOf 17 .a) 16 0 []).x 1).toNat ∧
    ((ready (contextOf 17 .a) 16 0 []).x 1).toNat < (contextOf 17 .a).qNat ∧
    ((ready (contextOf 17 .a) 0 0 []).x 1 = 0 ∧ 3 ≤ (contextOf 17 .a).qNat) ∧ (contextOf 2 .b).qNat = 2 :=
  ⟨begins_ready _ _ _ _, usable_17 .a, (by norm_num : Nat.Prime 17), by decide, by decide, by decide, by decide⟩

/-- Vectors F8, F2, F9, F4: one search for each way to start. -/
theorem witness_PrimeSearchCompletes :
    (ready Context.none 3 4 (primeAfter 1)).begins ∧
    SearchStarts (.ffpu 3 1 2) (ready Context.none 3 4 (primeAfter 1)) .up 3 9 8 ∧ inRange .up 9 8 1 ∧
    (ready Context.none 3 4 (primeAfter 1)).inputs =
      List.replicate 1 (.primeAnswer false) ++ .primeAnswer true :: [] ∧
    SearchStarts (.fnpu 3 1 2) (ready Context.none 65537 8 (primeAfter 4)) .up 3 65553 16 ∧
    SearchStarts (.ffpd 3 1 2) (ready Context.none 5 4 (primeAfter 1)) .down 3 25 8 ∧ inRange .down 25 8 1 ∧
    SearchStarts (.fnpd 3 1 2) (ready Context.none 65521 8 (primeAfter 7)) .down 3 65505 16 :=
  ⟨begins_ready _ _ _ _, .ffpu _ 3 1 2 (by decide) (by decide), by simp [inRange], rfl,
   .fnpu _ 3 1 2 (by decide) (by decide), .ffpd _ 3 1 2 (by decide) (by decide) (by decide), by simp [inRange],
   .fnpd _ 3 1 2 (by decide) (by decide)⟩

theorem witness_PrimeSearchWaits : (ready Context.none 3 4 [.primeAnswer false, .read 1]).begins ∧
    SearchStarts (.ffpu 3 1 2) (ready Context.none 3 4 [.primeAnswer false, .read 1]) .up 3 9 8 ∧
    inRange .up 9 8 1 ∧
    (ready Context.none 3 4 [.primeAnswer false, .read 1]).inputs =
      List.replicate 1 (.primeAnswer false) ++ [.read 1] ∧ primeAnswerNext [.read 1] = false :=
  ⟨begins_ready _ _ _ _, .ffpu _ 3 1 2 (by decide) (by decide), by simp [inRange], rfl, rfl⟩

/-- Vector F20: 9 and 1 answered false, and no candidate below 1. -/
theorem witness_PrimeSearchRunsOutOfRange :
    (ready Context.none 4 4 [.primeAnswer false, .primeAnswer false]).begins ∧
    SearchStarts (.ffpd 3 1 2) (ready Context.none 4 4 [.primeAnswer false, .primeAnswer false]) .down 3 9 8 ∧
    inRange .down 9 8 1 ∧ ¬ inRange .down 9 8 2 ∧
    (ready Context.none 4 4 [.primeAnswer false, .primeAnswer false]).inputs =
      List.replicate (1 + 1) (.primeAnswer false) ++ [] :=
  ⟨begins_ready _ _ _ _, .ffpd _ 3 1 2 (by decide) (by decide) (by decide), by simp [inRange], by simp [inRange], rfl⟩

/-- Vectors F15, F16, F19, F17, F18, at the first operand each check refuses. -/
theorem witness_PrimeSearchStartChecks : (ready Context.none 64 8 []).begins ∧
    64 ≤ ((ready Context.none 64 8 []).x 1).toNat ∧
    2 ^ 64 ≤ 2 * ((ready Context.none 16 (2 ^ 63) []).x 2).toNat ∧
    2 ^ 64 ≤ ((ready Context.none (2 ^ 64 - 2) 1 []).x 1).toNat + 2 * ((ready Context.none (2 ^ 64 - 2) 1 []).x 2).toNat ∧
    2 ^ ((ready Context.none 3 5 []).x 1).toNat + 1 < 2 * ((ready Context.none 3 5 []).x 2).toNat ∧
    ((ready Context.none 15 8 []).x 1).toNat < 2 * ((ready Context.none 15 8 []).x 2).toNat :=
  ⟨begins_ready _ _ _ _, by decide, by decide, by decide, by decide, by decide⟩

/-- The honest collaborator exists: primality is decidable. -/
def isPrimeHonest (x : Word) : Bool := decide x.toNat.Prime

theorem isPrimeHonest_honest : PrimalityHonest isPrimeHonest := fun x => by simp [isPrimeHonest]

/-- `FFPU` from 17 (vector F7): the collaborator answers true, the search completes. -/
theorem witness_HonestSearchFindsTheFirstPrime : PrimalityHonest isPrimeHonest ∧
    (ready Context.none 4 8 (answersOf isPrimeHonest .up 17 16 (0 + 1) [])).begins ∧
    SearchStarts (.ffpu 3 1 2) (ready Context.none 4 8 (answersOf isPrimeHonest .up 17 16 (0 + 1) [])) .up 3 17 16 ∧
    inRange .up 17 16 0 ∧
    ∃ t, exec (.ffpu 3 1 2) (ready Context.none 4 8 (answersOf isPrimeHonest .up 17 16 (0 + 1) [])) = .next t ∧
      t.es = .idle := by
  have h : isPrimeHonest (BitVec.ofNat 64 17) = true := decide_eq_true (by norm_num : Nat.Prime 17)
  have ha : answersOf isPrimeHonest .up 17 16 (0 + 1) [] = [.primeAnswer true] := by
    show [Event.primeAnswer (isPrimeHonest (BitVec.ofNat 64 17))] = _
    rw [h]
  refine ⟨isPrimeHonest_honest, begins_ready _ _ _ _, .ffpu _ 3 1 2 ?_ ?_, by simp [inRange], ?_⟩ <;> rw [ha]
  · decide
  · decide
  · exact ⟨_, rfl, rfl⟩

/-- A step of `2^63` and two answers; a step of 0. -/
theorem witness_PrimeSearchTermination :
    (ready Context.none 5 (2 ^ 62) [.primeAnswer false, .primeAnswer false]).begins ∧
    SearchStarts (.ffpu 3 1 2) (ready Context.none 5 (2 ^ 62) [.primeAnswer false, .primeAnswer false]) .up 3 33
      (2 ^ 63) ∧
    2 ^ 64 ≤ [false, false].length * 2 ^ 63 ∧
    (ready Context.none 5 (2 ^ 62) [.primeAnswer false, .primeAnswer false]).inputs =
      [false, false].map Event.primeAnswer ∧
    SearchStarts (.ffpu 3 1 2) (ready Context.none 3 0 [.primeAnswer false, .primeAnswer false]) .up 3 9 0 ∧
    (ready Context.none 3 0 [.primeAnswer false, .primeAnswer false]).inputs =
      List.replicate 2 (.primeAnswer false) :=
  ⟨begins_ready _ _ _ _, .ffpu _ 3 1 2 (by decide) (by decide), by decide, rfl,
   .ffpu _ 3 1 2 (by decide) (by decide), rfl⟩

/-- An engine in `RUN` on the prime search `cmd` that waits for the answer about `cand`. -/
def searchingAt (cmd cand step : Nat) (inputs : List Event) : State :=
  { searching with
    es := .run (some (.prime (BitVec.ofNat 64 cand))), cmd := BitVec.ofNat 64 cmd, inputs := inputs
    search := ⟨BitVec.ofNat 64 cand, BitVec.ofNat 64 step, 0, 0, 0, []⟩ }

/-- An engine in `RUN` on the generator search `cmd`, modulo 17, that waits for the factors of 16; `R1` holds `n`. -/
def factoring (cmd n : Nat) : State :=
  { ready (contextOf 17 .a) n 0 [] with
    es := .run (some (.factor 16)), cmd := BitVec.ofNat 64 cmd, search := ⟨0, 0, 0, 16, 0, []⟩
    requests := [.factor 16] }

/-- The four searches, a step that stays in the range and one that leaves it at each end; both kinds of request. -/
theorem witness_WaitingSearchResumes :
    (searchingAt 0x8B41 (2 ^ 64 - 9) 8 []).es = .run (some (.prime (searchingAt 0x8B41 (2 ^ 64 - 9) 8 []).search.cand)) ∧
    (decode 0x8B40 = .ok (.ffpu 3 1 2) ∧ decode 0x8B41 = .ok (.fnpu 3 1 2) ∧ decode 0x8B42 = .ok (.ffpd 3 1 2) ∧
      decode 0x8B43 = .ok (.fnpd 3 1 2)) ∧
    (primeSearchOf (.ffpu 3 1 2) = some (.up, 3) ∧ primeSearchOf (.fnpu 3 1 2) = some (.up, 3) ∧
      primeSearchOf (.ffpd 3 1 2) = some (.down, 3) ∧ primeSearchOf (.fnpd 3 1 2) = some (.down, 3)) ∧
    (stepsTo .up (2 ^ 64 - 9) 8 (2 ^ 64 - 1) ∧ leavesRange .up (2 ^ 64 - 8) 8) ∧
    (stepsTo .down 8 8 0 ∧ leavesRange .down 7 8) ∧
    ((Event.write 0 0).isHostAccess = true ∧ ∀ idx, Event.write 0 0 ≠ .read idx) ∧
    (factoring 0x348 0).es = .run (some (.factor 16)) ∧
    (Event.primeAnswer true).answers (.factor 16) = false ∧ (Event.factorAnswer []).answers (.prime 9) = false :=
  ⟨rfl, by decide, by decide, ⟨⟨rfl, by decide⟩, Nat.le_refl _⟩, ⟨rfl, Nat.lt_succ_self 7⟩,
   ⟨rfl, fun _ h => nomatch h⟩, rfl, rfl, rfl⟩

/-- `FNPD` that waits on 8 with step 8, answered false (rules R161, R167): the next candidate is 0. -/
theorem test_downResumes : es? (step (searchingAt 0x8B43 8 8 [.primeAnswer false])) = some (.run (some (.prime 0))) := by
  decide

/-- `FFPD` that waits on 7 with step 8, answered false: `SEARCH_RANGE`, code 4 (rules R161, R166, R201). -/
theorem test_downLeavesRange : es? (step (searchingAt 0x8B42 7 8 [.primeAnswer false])) = some .halted := by decide

/-- `n = 1` and `n = 2^63 - 1`. -/
theorem witness_GeneratorSearchWaits : (ready (contextOf 17 .a) 1 0 []).begins ∧ (contextOf 17 .a).usable ∧
    factorAnswerNext (ready (contextOf 17 .a) 1 0 []).inputs = false ∧
    (1 ≤ ((ready (contextOf 17 .a) 1 0 []).x 1).toNat ∧ 2 * ((ready (contextOf 17 .a) 1 0 []).x 1).toNat < 2 ^ 64) ∧
    2 * ((ready (contextOf 17 .a) (2 ^ 63 - 1) 0 []).x 1).toNat < 2 ^ 64 :=
  ⟨begins_ready _ _ _ _, usable_17 .a, by decide, by decide, by decide⟩

/-- Vectors G13, G14. -/
theorem witness_FgenOperandChecks : (ready (contextOf 17 .a) 0 0 []).begins ∧
    (ready (contextOf 17 .a) 0 0 []).ctx.valid = true ∧ (ready (contextOf 17 .a) 0 0 []).x 1 = 0 ∧
    2 ^ 64 ≤ 2 * ((ready (contextOf 17 .a) (2 ^ 63) 0 []).x 1).toNat :=
  ⟨begins_ready _ _ _ _, by decide, by decide, by decide⟩

/-- Vector G17. -/
theorem witness_ZeroPrimeTraps : (ready (contextOf 17 .a) 1 0 [.factorAnswer [(0, 1)]]).begins ∧
    (ready (contextOf 17 .a) 1 0 [.factorAnswer [(0, 1)]]).ctx.valid = true ∧
    (ready (contextOf 17 .a) 1 0 [.factorAnswer [(0, 1)]]).inputs = .factorAnswer [(0, 1)] :: [] ∧
    ((0 : Word), 1) ∈ [((0 : Word), 1)] ∧
    (1 ≤ ((ready (contextOf 17 .a) 1 0 [.factorAnswer [(0, 1)]]).x 1).toNat ∧
      2 * ((ready (contextOf 17 .a) 1 0 [.factorAnswer [(0, 1)]]).x 1).toNat < 2 ^ 64) :=
  ⟨begins_ready _ _ _ _, by decide, rfl, by decide, by decide⟩

/-- The answer to 16 = 2^4 is the set {(2, 4)} (vector G1). -/
theorem factorsOf_16 : FactorsOf 16 [(2, 4)] := by
  intro p e
  constructor
  · intro h
    have h' : (p, e) = ((2 : Word), 4) := by simpa using h
    obtain ⟨rfl, rfl⟩ := Prod.mk.inj h'
    exact ⟨(by norm_num : Nat.Prime 2), by decide, by decide, by decide⟩
  · rintro ⟨hp, h1, h2, h3⟩
    have hp2 : p.toNat = 2 := by
      have hd : p.toNat ∣ 2 ^ 4 := (dvd_pow_self _ (by omega)).trans h2
      exact (Nat.prime_dvd_prime_iff_eq hp Nat.prime_two).1 (hp.dvd_of_dvd_pow hd)
    have hpw : p = 2 := BitVec.eq_of_toNat_eq hp2
    have he : e = 4 := by
      rw [hp2] at h2 h3
      have h4 : e ≤ 4 := (Nat.pow_dvd_pow_iff_le_right (by omega)).1 (show 2 ^ e ∣ 2 ^ 4 from h2)
      have h5 : ¬ e + 1 ≤ 4 := fun h => h3 (show 2 ^ (e + 1) ∣ 2 ^ 4 from Nat.pow_dvd_pow 2 h)
      omega
    rw [hpw, he]
    simp

/-- Modulo 17, `n = 8`: the hypotheses of the four statements about a search that gets its answer. -/
theorem witness_FprFindsTheSmallestPrimitiveRoot :
    (ready (contextOf 17 .a) 8 0 [.factorAnswer [(2, 4)]]).begins ∧
    (ready (contextOf 17 .a) 8 0 [.factorAnswer [(2, 4)]]).ctx.usable ∧ (contextOf 17 .a).qNat.Prime ∧
    3 ≤ (contextOf 17 .a).qNat ∧
    (ready (contextOf 17 .a) 8 0 [.factorAnswer [(2, 4)]]).inputs = .factorAnswer [(2, 4)] :: [] ∧
    FactorsOf ((contextOf 17 .a).qNat - 1) [(2, 4)] :=
  ⟨begins_ready _ _ _ _, usable_17 .a, (by norm_num : Nat.Prime 17), by decide, rfl, factorsOf_16⟩

theorem witness_GeneratorSearchEndsForEveryModulus :
    (ready (contextOf 17 .a) 3 0 [.factorAnswer [(2, 4)]]).begins ∧
    (ready (contextOf 17 .a) 3 0 [.factorAnswer [(2, 4)]]).ctx.usable ∧
    (ready (contextOf 17 .a) 3 0 [.factorAnswer [(2, 4)]]).inputs = .factorAnswer [(2, 4)] :: [] ∧
    FactorsOf ((contextOf 17 .a).qNat - 1) [(2, 4)] ∧
    (1 ≤ ((ready (contextOf 17 .a) 3 0 [.factorAnswer [(2, 4)]]).x 1).toNat ∧
      2 * ((ready (contextOf 17 .a) 3 0 [.factorAnswer [(2, 4)]]).x 1).toNat < 2 ^ 64) ∧ (contextOf 2 .a).qNat = 2 :=
  ⟨begins_ready _ _ _ _, usable_17 .a, rfl, factorsOf_16, by decide, by decide⟩

theorem witness_FgenFindsARootOfUnity :
    (ready (contextOf 17 .a) 8 0 [.factorAnswer [(2, 4)]]).begins ∧
    (ready (contextOf 17 .a) 8 0 [.factorAnswer [(2, 4)]]).ctx.usable ∧ (contextOf 17 .a).qNat.Prime ∧
    3 ≤ (contextOf 17 .a).qNat ∧
    (ready (contextOf 17 .a) 8 0 [.factorAnswer [(2, 4)]]).inputs = .factorAnswer [(2, 4)] :: [] ∧
    FactorsOf ((contextOf 17 .a).qNat - 1) [(2, 4)] ∧
    1 ≤ ((ready (contextOf 17 .a) 8 0 [.factorAnswer [(2, 4)]]).x 1).toNat ∧
    2 * ((ready (contextOf 17 .a) 8 0 [.factorAnswer [(2, 4)]]).x 1).toNat ∣ (contextOf 17 .a).qNat - 1 :=
  ⟨begins_ready _ _ _ _, usable_17 .a, (by norm_num : Nat.Prime 17), by decide, rfl, factorsOf_16, by decide, by decide⟩

/-- Two answers with the primes 2 and 3, in another order, with other multiplicities and one pair twice. -/
theorem witness_OnlyTheSetOfPrimesMatters : (ready (contextOf 97 .a) 8 0 []).begins ∧
    (ready (contextOf 97 .a) 8 0 []).ctx.valid = true ∧
    (∀ p : Word, (∃ e, (p, e) ∈ [((2 : Word), 5), (3, 1)]) ↔ (∃ e, (p, e) ∈ [((3 : Word), 2), (2, 1), (3, 1)])) ∧
    fgenCheck ((ready (contextOf 97 .a) 8 0 []).x 1) = .ok () := by
  refine ⟨begins_ready _ _ _ _, rfl, fun p => ?_, by decide⟩
  constructor
  · rintro ⟨e, h⟩
    simp at h
    rcases h with ⟨rfl, _⟩ | ⟨rfl, _⟩
    · exact ⟨1, by simp⟩
    · exact ⟨2, by simp⟩
  · rintro ⟨e, h⟩
    simp at h
    rcases h with ⟨rfl, _⟩ | ⟨rfl, _⟩ | ⟨rfl, _⟩
    · exact ⟨1, by simp⟩
    · exact ⟨5, by simp⟩
    · exact ⟨1, by simp⟩

/-- An engine that waits for the factors of 16 meets the invariant: `FPR`, and `FGEN` at the ends of its operand. -/
theorem factoring_fpr_inv : (factoring 0x348 0).Inv := by
  refine ⟨(usable_17 .a).2, (fun h => by cases h), fun _ => ⟨rfl, rfl⟩, (fun h => by cases h), fun request h => ?_⟩
  cases h
  exact ⟨.fpr 3, by decide, fun _ => rfl, rfl, rfl, by decide, fun _ _ h => nomatch h⟩

theorem factoring_fgen_inv (n : Nat) (h1 : 1 ≤ n) (h2 : 2 * n < 2 ^ 64) : (factoring 0xA49 n).Inv := by
  refine ⟨(usable_17 .a).2, (fun h => by cases h), fun _ => ⟨rfl, rfl⟩, (fun h => by cases h), fun request h => ?_⟩
  cases h
  refine ⟨.fgen 2 1, (by decide : decode 0xA49 = .ok (.fgen 2 1)), fun _ => rfl, rfl, rfl, rfl, fun rd rs1 h => ?_⟩
  cases h
  show 1 ≤ (BitVec.ofNat 64 n).toNat ∧ 2 * (BitVec.ofNat 64 n).toNat < 2 ^ 64
  rw [BitVec.toNat_ofNat, Nat.mod_eq_of_lt (by omega)]
  exact ⟨h1, h2⟩

/-- (1) `FPR`, and `FGEN` with `n = 1` and `n = 2^63 - 1`; (2) `FGEN` begun with no event, `FFPU` begun with one. -/
theorem witness_LateAnswersResumeWhatWasBegun :
    ((factoring 0x348 0).Inv ∧ (factoring 0xA49 1).Inv ∧ (factoring 0xA49 (2 ^ 63 - 1)).Inv) ∧
    (factoring 0xA49 1).es = .run (some (.factor 16)) ∧
    (decode (factoring 0x348 0).cmd = .ok (.fpr 3) ∧ decode (factoring 0xA49 1).cmd = .ok (.fgen 2 1)) ∧
    (∃ t, exec (.fgen 2 1) { factoring 0xA49 8 with es := .run none, inputs := [] } = .next t ∧
      t.es = .run (some (.factor 16)) ∧ t.inputs = [] ∧ (Event.factorAnswer [(2, 4)]).answers (.factor 16) = true) ∧
    (∃ t, exec (.ffpu 3 1 2) { searching with es := .run none, inputs := [.primeAnswer false] } = .next t ∧
      t.es = .run (some (.prime 17)) ∧ t.inputs = [] ∧ (Event.primeAnswer true).answers (.prime 17) = true) :=
  ⟨⟨factoring_fpr_inv, factoring_fgen_inv 1 (by decide) (by decide), factoring_fgen_inv _ (by decide) (by decide)⟩,
   rfl, by decide, ⟨_, rfl, rfl, rfl, rfl⟩, ⟨_, rfl, rfl, rfl, rfl⟩⟩

/-- A late answer (vector G1): `FPR R3` modulo 17 waits, is told 16 = 2^4, and completes with 3. -/
theorem test_fprResumes : es? (step { factoring 0x348 0 with inputs := [.factorAnswer [(2, 4)]] }) = some .idle ∧
    reg? (step { factoring 0x348 0 with inputs := [.factorAnswer [(2, 4)]] }) 3 = some 3 := by decide

end Sys2Proof.Tests
end

section
/-! The `STATUS` register bit by bit (rule R26) and the outputs that copy three of its bits (rule R33). -/

namespace Sys2Proof.Machine

/-- `BUSY` says that a command is in progress. -/
theorem State.busy_iff (s : State) : s.busy = true ↔ ∃ r, s.es = .run r := by
  unfold State.busy
  split
  · next r h => simp [h]
  · next h => simpa using h

/-- `FATAL` says that the engine has halted. -/
theorem State.isFatal_iff (s : State) : s.isFatal = true ↔ s.es = .halted := by
  unfold State.isFatal
  split
  · next h => simp [h]
  · next h => simpa using h

/-- `VAR` says that the context is of variant B. -/
theorem State.varBit_iff (s : State) : s.varBit = true ↔ s.ctx.var = .b := by
  unfold State.varBit
  split
  · next h => simp [h]
  · next h => simp [h]

/-- A flag appended below a word is bit 0. -/
theorem getLsbD_append_flag_zero {n : Nat} (w : BitVec n) (b : Bool) :
    (w ++ BitVec.ofBool b).getLsbD 0 = b := by
  rw [BitVec.getLsbD_append, if_pos Nat.one_pos]
  simp

/-- Below an appended flag, the word's own bits stand one place higher. -/
theorem getLsbD_append_flag_succ {n : Nat} (w : BitVec n) (b : Bool) (k : Nat) :
    (w ++ BitVec.ofBool b).getLsbD (k + 1) = w.getLsbD k := by
  rw [BitVec.getLsbD_append, if_neg (by omega), Nat.add_sub_cancel]

/-- The flags of `STATUS`, bit 0 first, and 0 above them. -/
theorem State.statusWord_getLsbD (s : State) (k : Nat) :
    s.statusWord.getLsbD k = [s.busy, s.done, s.isFatal, s.ctx.valid, s.varBit, s.ovr].getD k false := by
  unfold State.statusWord
  match k with
  | 0 | 1 | 2 | 3 | 4 | 5 => simp only [getLsbD_append_flag_succ, getLsbD_append_flag_zero]; rfl
  | k + 6 => simp [getLsbD_append_flag_succ]

/-- A host read at index 0x01 is `STATUS`. -/
theorem State.hostRead_status (s : State) : s.hostRead 0x01 = s.statusWord := rfl

/-- Settles O14: each bit read is the flag at its place in `STATUS`, and the outputs are those flags themselves. -/
theorem statusBits : Obligations.StatusBits := by
  intro s
  simp only [State.hostRead_status, State.statusWord_getLsbD]
  exact ⟨s.busy_iff, rfl, s.isFatal_iff, rfl, s.varBit_iff, rfl,
    fun k hk => List.getD_eq_default _ _ hk, rfl, rfl, rfl⟩

end Sys2Proof.Machine
end

section
/-! The field checks of rule R75 against the rows of rule R74: a value selects a row of the opcode map exactly when
its fields pass every check, the row being the one of its operation code. -/

namespace Sys2Proof

/-! ### The fields of a value (rule R71) -/

/-- A value is determined by its fields: they cover all 64 bits. -/
theorem Fields.toWord_ofWord (w : Word) : (Fields.ofWord w).toWord = w := by
  ext k hk
  simp only [Fields.toWord, Fields.ofWord, ← BitVec.getLsbD_eq_getElem, BitVec.getLsbD_append,
    BitVec.getLsbD_extractLsb']
  grind

/-- Two values with the same fields are the same value. -/
theorem Fields.ofWord_inj {w w' : Word} : Fields.ofWord w = Fields.ofWord w' ↔ w = w' :=
  ⟨fun h => by rw [← Fields.toWord_ofWord w, h, Fields.toWord_ofWord], congrArg _⟩

/-- Masking a value masks each of its fields. -/
theorem Fields.ofWord_and (w m : Word) : Fields.ofWord (w &&& m) =
    ⟨(ofWord w).op &&& (ofWord m).op, (ofWord w).rd &&& (ofWord m).rd, (ofWord w).rs1 &&& (ofWord m).rs1,
      (ofWord w).rs2 &&& (ofWord m).rs2, (ofWord w).v &&& (ofWord m).v, (ofWord w).z &&& (ofWord m).z,
      (ofWord w).hi &&& (ofWord m).hi⟩ := by
  simp only [Fields.ofWord, BitVec.extractLsb'_and]

/-! ### The formats (rule R72) -/

/-- The formats that use the field `RD`. -/
def Format.usesRd : Format → Bool
  | .r3 | .r2 | .r1 => true
  | .i2 | .i1 | .c => false

/-- The formats that use the field `RS1`. -/
def Format.usesRs1 : Format → Bool
  | .r3 | .r2 | .i2 | .i1 | .c => true
  | .r1 => false

/-- The formats that use the field `RS2`. -/
def Format.usesRs2 : Format → Bool
  | .r3 | .i2 => true
  | .r2 | .r1 | .i1 | .c => false

/-- The format that uses the field `V`. -/
def Format.usesV : Format → Bool
  | .c => true
  | .r3 | .r2 | .r1 | .i2 | .i1 => false

/-- The mask of a format: every bit but those of the operand fields it uses. -/
def Format.mask : Format → Word
  | .r3 => 0xFFFFFFFFFFFE00FF
  | .r2 => 0xFFFFFFFFFFFFC0FF
  | .r1 => 0xFFFFFFFFFFFFF8FF
  | .i2 => 0xFFFFFFFFFFFE07FF
  | .i1 => 0xFFFFFFFFFFFFC7FF
  | .c => 0xFFFFFFFFFFFDC7FF

/-- Every field that the format does not use is zero. -/
structure Fields.Fits (f : Fields) (fmt : Format) : Prop where
  rd : fmt.usesRd = false → f.rd = 0
  rs1 : fmt.usesRs1 = false → f.rs1 = 0
  rs2 : fmt.usesRs2 = false → f.rs2 = 0
  v : fmt.usesV = false → f.v = 0

/-- A byte written into a wider word leaves every field above bit 7 zero. -/
theorem extractLsb'_setWidth_eq_zero (op : BitVec 8) {start : Nat} (n : Nat) (h : 8 ≤ start) :
    (op.setWidth 64).extractLsb' start n = 0 := by
  ext k hk
  have hbit : op.getLsbD (start + k) = false := BitVec.getLsbD_of_ge _ _ (by omega)
  simp [BitVec.getElem_extractLsb', BitVec.getLsbD_setWidth, hbit]

/-- The fields of an operation code alone. -/
theorem Fields.ofWord_setWidth (op : BitVec 8) : Fields.ofWord (op.setWidth 64) = ⟨op, 0, 0, 0, 0, 0, 0⟩ := by
  have hop : (op.setWidth 64).extractLsb' 0 8 = op := by
    ext k hk
    simp [BitVec.getElem_extractLsb', hk, Nat.lt_trans hk]
  simp only [Fields.ofWord, hop, extractLsb'_setWidth_eq_zero op _ (by decide : 8 ≤ 8),
    extractLsb'_setWidth_eq_zero op _ (by decide : 8 ≤ 11), extractLsb'_setWidth_eq_zero op _ (by decide : 8 ≤ 14),
    extractLsb'_setWidth_eq_zero op _ (by decide : 8 ≤ 17), extractLsb'_setWidth_eq_zero op _ (by decide : 8 ≤ 18),
    extractLsb'_setWidth_eq_zero op _ (by decide : 8 ≤ 32)]

/-- A field masked with all ones or with all zeros, and compared with zero. -/
theorem and_maskBits_eq_zero {n : Nat} (x : BitVec n) (used : Bool) :
    x &&& (if used then 0 else BitVec.allOnes n) = 0 ↔ (used = false → x = 0) := by
  cases used <;> simp

/-- The fields of a format's mask: no bit of an operand field the format uses, every bit of the others. -/
theorem Format.ofWord_mask (fmt : Format) : Fields.ofWord fmt.mask =
    ⟨BitVec.allOnes 8, if fmt.usesRd then 0 else BitVec.allOnes 3, if fmt.usesRs1 then 0 else BitVec.allOnes 3,
      if fmt.usesRs2 then 0 else BitVec.allOnes 3, if fmt.usesV then 0 else BitVec.allOnes 1,
      BitVec.allOnes 14, BitVec.allOnes 32⟩ := by
  cases fmt <;> decide

/-- What a format's mask keeps of a value is an operation code alone iff the fields outside the format are zero. -/
theorem Format.and_mask_eq_iff (fmt : Format) (op : BitVec 8) (w : Word) :
    w &&& fmt.mask = op.setWidth 64 ↔ (Fields.ofWord w).op = op ∧ (Fields.ofWord w).hi = 0 ∧
      (Fields.ofWord w).z = 0 ∧ (Fields.ofWord w).Fits fmt := by
  rw [← Fields.ofWord_inj, Fields.ofWord_setWidth, Fields.ofWord_and, fmt.ofWord_mask]
  simp only [Fields.mk.injEq, and_maskBits_eq_zero, BitVec.and_allOnes]
  exact ⟨fun ⟨hop, hrd, hrs1, hrs2, hv, hz, hhi⟩ => ⟨hop, hhi, hz, hrd, hrs1, hrs2, hv⟩,
    fun ⟨hop, hhi, hz, hrd, hrs1, hrs2, hv⟩ => ⟨hop, hrd, hrs1, hrs2, hv, hz, hhi⟩⟩

/-! ### The checks of rule R75 -/

/-- A value does not fit a format iff a field the format does not use is nonzero. -/
theorem Fields.not_fits_iff (f : Fields) (fmt : Format) : ¬ f.Fits fmt ↔
    (f.rs2 ≠ 0 ∧ fmt.usesRs2 = false) ∨ (f.rs1 ≠ 0 ∧ fmt.usesRs1 = false) ∨
    (f.rd ≠ 0 ∧ fmt.usesRd = false) ∨ (f.v ≠ 0 ∧ fmt.usesV = false) := by
  constructor
  · intro h
    by_contra hnone
    simp only [not_or, not_and, ne_eq, not_imp_not] at hnone
    obtain ⟨hrs2, hrs1, hrd, hv⟩ := hnone
    exact h ⟨hrd, hrs1, hrs2, hv⟩
  · rintro (⟨hne, hu⟩ | ⟨hne, hu⟩ | ⟨hne, hu⟩ | ⟨hne, hu⟩) ⟨hrd, hrs1, hrs2, hv⟩
    · exact hne (hrs2 hu)
    · exact hne (hrs1 hu)
    · exact hne (hrd hu)
    · exact hne (hv hu)

/-- The check of the unused fields, for an operation code that has a format. -/
theorem Fields.unusedZero_iff {f : Fields} {fmt : Format} (h : formatOfOp f.op = some fmt) :
    f.unusedZero = true ↔ f.Fits fmt := by
  simp only [Fields.unusedZero, h]
  constructor
  · intro hz
    constructor <;> cases fmt <;> simp_all [Format.usesRd, Format.usesRs1, Format.usesRs2, Format.usesV]
  · rintro ⟨hrd, hrs1, hrs2, hv⟩
    cases fmt <;> simp_all [Format.usesRd, Format.usesRs1, Format.usesRs2, Format.usesV]

/-- A value is a legal command iff each of the four checks passes. -/
theorem Fields.wellFormed_iff_checks (f : Fields) : f.wellFormed = true ↔
    f.upperHalfZero = true ∧ f.reservedZero = true ∧ f.opKnown = true ∧ f.unusedZero = true := by
  unfold Fields.wellFormed Fields.illegal?
  split
  · next hhi => simp_all
  · split
    · next hz => simp_all
    · split
      · next hop => simp_all
      · split
        · next hunused => simp_all
        · simp_all

/-- A value is a legal command iff nothing stands outside the operation code and the fields its format uses. -/
theorem Fields.wellFormed_iff (f : Fields) : f.wellFormed = true ↔
    f.hi = 0 ∧ f.z = 0 ∧ ∃ fmt, formatOfOp f.op = some fmt ∧ f.Fits fmt := by
  rw [f.wellFormed_iff_checks, Fields.upperHalfZero, Fields.reservedZero, beq_iff_eq, beq_iff_eq, Fields.opKnown]
  cases h : formatOfOp f.op with
  | none => simp
  | some fmt => simp [Fields.unusedZero_iff h]

/-! ### The operation codes (rule R74) -/

/-- The operation code of a row: the low byte of its match. -/
def Row.op (r : Row) : BitVec 8 := r.pattern.extractLsb' 0 8

/-- A row's match is its operation code alone, and its mask is the mask of the format of that code. -/
theorem opcodeMap_row : ∀ row ∈ opcodeMap,
    row.pattern = row.op.setWidth 64 ∧ (formatOfOp row.op).map Format.mask = some row.mask := by
  decide

/-- The codes that have a format are the 21 of the opcode map. -/
theorem formatOfOp_isSome_iff : ∀ op : BitVec 8, (formatOfOp op).isSome = true ↔
    op ∈ ([0x10, 0x20, 0x21, 0x22, 0x23, 0x24, 0x25, 0x26, 0x30, 0x31, 0x32, 0x33, 0x34, 0x35, 0x36,
      0x40, 0x41, 0x42, 0x43, 0x48, 0x49] : List (BitVec 8)) := by
  decide

/-- Every code that has a format has a row. -/
theorem exists_row_of_formatOfOp : ∀ op : BitVec 8, (formatOfOp op).isSome = true → ∃ row ∈ opcodeMap, row.op = op := by
  decide

/-- Which codes leave an operand field unused, field by field. -/
theorem unusedFields_of_formatOfOp : ∀ op : BitVec 8, ∀ fmt ∈ formatOfOp op,
    (fmt.usesRs2 = false ↔
      op ∈ ([0x10, 0x20, 0x24, 0x26, 0x49, 0x48, 0x30, 0x34, 0x36] : List (BitVec 8))) ∧
    (fmt.usesRs1 = false ↔ op = 0x48) ∧
    (fmt.usesRd = false ↔ op ∈ ([0x10, 0x30, 0x31, 0x32, 0x33, 0x34, 0x35, 0x36] : List (BitVec 8))) ∧
    (fmt.usesV = false ↔ op ≠ 0x10) := by
  decide

/-! ### Decoding -/

/-- A row selects the well-formed values with its operation code. -/
theorem Row.selects_iff {row : Row} (h : row ∈ opcodeMap) (w : Word) :
    row.selects w = true ↔ (Fields.ofWord w).wellFormed = true ∧ (Fields.ofWord w).op = row.op := by
  obtain ⟨hpattern, hmask⟩ := opcodeMap_row row h
  obtain ⟨fmt, hfmt, hmask⟩ := Option.map_eq_some_iff.mp hmask
  rw [Row.selects, beq_iff_eq, hpattern, ← hmask, fmt.and_mask_eq_iff, Fields.wellFormed_iff]
  constructor
  · rintro ⟨hop, hhi, hz, hfits⟩
    exact ⟨⟨hhi, hz, fmt, hop ▸ hfmt, hfits⟩, hop⟩
  · rintro ⟨⟨hhi, hz, fmt', hfmt', hfits⟩, hop⟩
    rw [hop, hfmt, Option.some.injEq] at hfmt'
    exact ⟨hop, hhi, hz, hfmt' ▸ hfits⟩

/-- A value decodes to no command iff no row selects it. -/
theorem decode_error_iff_not_selects (w : Word) :
    (∃ reason, decode w = .error reason) ↔ ∀ row ∈ opcodeMap, ¬ row.selects w = true := by
  rw [← List.find?_eq_none, decode]
  cases opcodeMap.find? (·.selects w) <;> simp

/-- Rule R75's two readings agree: no row of rule R74 matches iff a check of the fields fails. -/
theorem decode_error_iff_not_wellFormed (w : Word) :
    (∃ reason, decode w = .error reason) ↔ ¬ (Fields.ofWord w).wellFormed = true := by
  rw [decode_error_iff_not_selects]
  constructor
  · intro hnone hw
    obtain ⟨-, -, fmt, hfmt, -⟩ := (Fields.wellFormed_iff _).mp hw
    obtain ⟨row, hmem, hop⟩ := exists_row_of_formatOfOp _ (Option.isSome_of_eq_some hfmt)
    exact hnone row hmem ((Row.selects_iff hmem w).mpr ⟨hw, hop.symm⟩)
  · exact fun hw row hmem hsel => hw ((Row.selects_iff hmem w).mp hsel).1

/-- The check that fails, spelled out by the codes that leave each field unused (rule R75). -/
theorem Fields.not_wellFormed_iff (f : Fields) : ¬ f.wellFormed = true ↔
    (f.hi ≠ 0 ∨ f.z ≠ 0 ∨
     f.op ∉ ([0x10, 0x20, 0x21, 0x22, 0x23, 0x24, 0x25, 0x26, 0x30, 0x31, 0x32, 0x33, 0x34, 0x35, 0x36,
       0x40, 0x41, 0x42, 0x43, 0x48, 0x49] : List (BitVec 8)) ∨
     (f.rs2 ≠ 0 ∧ f.op ∈ ([0x10, 0x20, 0x24, 0x26, 0x49, 0x48, 0x30, 0x34, 0x36] : List (BitVec 8))) ∨
     (f.rs1 ≠ 0 ∧ f.op = 0x48) ∨
     (f.rd ≠ 0 ∧ f.op ∈ ([0x10, 0x30, 0x31, 0x32, 0x33, 0x34, 0x35, 0x36] : List (BitVec 8))) ∨
     (f.v ≠ 0 ∧ f.op ≠ 0x10)) := by
  rw [f.wellFormed_iff, ← formatOfOp_isSome_iff]
  cases h : formatOfOp f.op with
  | none => simp
  | some fmt =>
    obtain ⟨hrs2, hrs1, hrd, hv⟩ := unusedFields_of_formatOfOp f.op fmt h
    simp only [← hrs2, ← hrs1, ← hrd, ← hv, Option.some.injEq, exists_eq_left', Option.isSome_some,
      not_and_or, f.not_fits_iff, not_true_eq_false, false_or]

end Sys2Proof

namespace Sys2Proof.Machine

/-- A host write that is next on the timeline is the whole step. -/
theorem step_write (s : State) (idx : Index) (v : Word) (rest : List Event) :
    step { s with inputs := .write idx v :: rest } = .next ({ s with inputs := rest }.hostWrite idx v) := rfl

/-- An idle engine answers an illegal value written to `CMD` with `ILLEGAL_CMD` in the same step (rules R75, R81). -/
theorem step_write_illegal {s : State} {w : Word} {reason : Illegal} (rest : List Event) (hidle : s.es = .idle)
    (hw : decode w = .error reason) : step { s with inputs := .write 0 w :: rest } =
      .next (({ s with inputs := rest }.accept w).fatal .illegalCmd) := by
  rw [step_write, State.hostWrite_cmd { s with inputs := rest } w hidle, State.issue_illegal _ hw]

/-- Settles O3: no row selects a value exactly when a check of its fields fails; `w = 0` has an operation code outside
the map; the issue step of an illegal value is the fault itself. -/
theorem illegalExactlyByTheFields : Obligations.IllegalExactlyByTheFields := by
  refine ⟨fun w => ?_, ?_, fun s w reason rest hidle hw => ?_⟩
  · exact (decode_error_iff_not_wellFormed w).trans (Fields.not_wellFormed_iff (Fields.ofWord w))
  · exact ⟨.unknownOp, by decide⟩
  · exact ⟨_, step_write_illegal rest hidle hw, rfl, rfl, rfl, rfl, rfl⟩

end Sys2Proof.Machine
end

section
/-! The in-place twins (rule R82). -/

namespace Sys2Proof.Machine

/-- Format I1 is format R2 with `RD = RS1`, whatever the result rule. -/
theorem unaryInPlace_eq_unary (f : Context → Word → Option Word) (rs1 : Reg) (s : State) :
    unaryInPlace f rs1 s = unary f rs1 rs1 s := rfl

/-- Format I2 is format R3 with `RD = RS1`, whatever the result rule. -/
theorem binaryInPlace_eq_binary (f : Context → Word → Word → Option Word) (rs1 rs2 : Reg) (s : State) :
    binaryInPlace f rs1 rs2 s = binary f rs1 rs1 rs2 s := rfl

/-- Settles O30: a twin and its value form share their result rule, and their operand forms are the same. -/
theorem inPlaceTwinsAreTheValueForms : Obligations.InPlaceTwinsAreTheValueForms := by
  intro s rs1 rs2
  exact ⟨unaryInPlace_eq_unary negf rs1 s, unaryInPlace_eq_unary sqrf rs1 s, unaryInPlace_eq_unary invf rs1 s,
    binaryInPlace_eq_binary addf rs1 rs2 s, binaryInPlace_eq_binary subf rs1 rs2 s,
    binaryInPlace_eq_binary mulf rs1 rs2 s, binaryInPlace_eq_binary powf rs1 rs2 s⟩

end Sys2Proof.Machine
end

section
/-! The bit length (rule R7) and what `CTXINIT` keeps of it in `LOGQ` (rule R92). -/

namespace Sys2Proof.Machine

/-- The bit length against a power of two; its bounds and its values all follow from this equivalence. -/
theorem lt_bitlen_iff {k n : Nat} : k < bitlen n ↔ 2 ^ k ≤ n := by
  unfold bitlen
  split
  · next h => simp [h]
  · next h => rw [Nat.lt_succ_iff, Nat.le_log2 h]

theorem bitlen_le_iff {k n : Nat} : bitlen n ≤ k ↔ n < 2 ^ k := by
  rw [← not_lt, lt_bitlen_iff, not_le]

theorem lt_two_pow_bitlen (n : Nat) : n < 2 ^ bitlen n := bitlen_le_iff.mp le_rfl

theorem bitlen_pos {n : Nat} (h : 1 ≤ n) : 0 < bitlen n := lt_bitlen_iff.mpr h

theorem two_pow_bitlen_pred_le {n : Nat} (h : 1 ≤ n) : 2 ^ (bitlen n - 1) ≤ n :=
  lt_bitlen_iff.mp (Nat.sub_one_lt_of_lt (bitlen_pos h))

/-- A legal modulus has at least two bits. -/
theorem two_le_bitlen {q : Nat} (h : 2 ≤ q) : 2 ≤ bitlen q := lt_bitlen_iff.mpr h

theorem bitlen_two_pow (j : Nat) : bitlen (2 ^ j) = j + 1 :=
  le_antisymm (bitlen_le_iff.mpr (Nat.pow_lt_pow_succ Nat.one_lt_two)) (lt_bitlen_iff.mpr le_rfl)

/-- The seven bits of `LOGQ` hold the bit length of a legal modulus without loss. -/
theorem buildContext_logqNat (q : Word) (v : Variant) (hlow : 2 ≤ q.toNat) (hhigh : q.toNat < 2 ^ 63) :
    ∃ c, buildContext q v = .ok c ∧ c.logqNat = bitlen q.toNat := by
  have hbits : bitlen q.toNat < 2 ^ 7 := (bitlen_le_iff.mpr hhigh).trans_lt (by decide)
  exact ⟨_, if_neg (by omega), (BitVec.toNat_ofNat _ _).trans (Nat.mod_eq_of_lt hbits)⟩

/-- Settles O32: `LOGQ` is wide enough for the bit length, whose bounds are instances of `lt_bitlen_iff`. -/
theorem logqIsTheBitLength : Obligations.LogqIsTheBitLength := by
  refine ⟨buildContext_logqNat, fun q hlow hhigh => ⟨?_, ?_, ?_, ?_⟩, bitlen_two_pow⟩
  · exact two_pow_bitlen_pred_le (by omega)
  · exact lt_two_pow_bitlen q
  · exact two_le_bitlen hlow
  · exact bitlen_le_iff.mpr hhigh

end Sys2Proof.Machine
end

section
/-! The result rules of `NEG`, `ADD` and `SUB` as arithmetic on natural numbers (rules R101, R103, R105), and the
group laws on residues that follow (rule R108). -/

namespace Sys2Proof.Machine

theorem some_ofNat_eq_some_iff {x : Nat} (h : x < 2 ^ 64) {v : Word} :
    some (BitVec.ofNat 64 x) = some v ↔ v.toNat = x := by
  rw [Option.some_inj, ← BitVec.toNat_inj, BitVec.toNat_ofNat, Nat.mod_eq_of_lt h, eq_comm]

/-- A natural number below `2^64` is the value of some word. -/
theorem exists_word_toNat {x : Nat} (h : x < 2 ^ 64) : ∃ v : Word, v.toNat = x :=
  ⟨BitVec.ofNat 64 x, (some_ofNat_eq_some_iff h).mp rfl⟩

/-- The field `CTX.Q` is 63 bits wide, so a sum of two residues never leaves 64 bits. -/
theorem Context.qNat_lt (c : Context) : c.qNat < 2 ^ 63 := c.q.isLt

/-! ### What each result rule gives -/

theorem negf_eq_some_iff {c : Context} {a v : Word} :
    negf c a = some v ↔ v.toNat = if a.toNat ≤ c.qNat then c.qNat - a.toNat else 2 ^ 64 + c.qNat - a.toNat := by
  have hq := c.qNat_lt
  have ha := a.isLt
  unfold negf
  rw [some_ofNat_eq_some_iff (Nat.mod_lt _ (by decide))]
  split <;> omega

theorem addf_eq_some_iff {c : Context} {a b v : Word} :
    addf c a b = some v ↔ a.toNat + b.toNat < 2 ^ 64 ∧
      v.toNat = if c.qNat ≤ a.toNat + b.toNat then a.toNat + b.toNat - c.qNat else a.toNat + b.toNat := by
  unfold addf
  by_cases hwide : 2 ^ 64 ≤ a.toNat + b.toNat
  · simp only [if_pos hwide, hwide.not_gt, reduceCtorEq, false_and]
  · have hlt : a.toNat + b.toNat < 2 ^ 64 := not_le.mp hwide
    simp only [if_neg hwide, hlt, true_and]
    split
    · exact some_ofNat_eq_some_iff (by omega)
    · exact some_ofNat_eq_some_iff hlt

theorem subf_eq_some_iff {c : Context} {a b v : Word} :
    subf c a b = some v ↔ (b.toNat ≤ a.toNat ∧ v.toNat = a.toNat - b.toNat) ∨
      (a.toNat < b.toNat ∧ b.toNat ≤ c.qNat + a.toNat ∧ c.qNat + a.toNat < 2 ^ 64 ∧
        v.toNat = c.qNat + a.toNat - b.toNat) := by
  have ha := a.isLt
  unfold subf
  split
  · next hle =>
    rw [some_ofNat_eq_some_iff (by omega)]
    omega
  · next hlt =>
    split
    · next hout =>
      simp only [reduceCtorEq, false_iff]
      omega
    · next hin =>
      rw [some_ofNat_eq_some_iff (by omega)]
      omega

/-! ### The laws of rule R108 -/

section

variable {c : Context} {a b : Word}

/-- Rule R108 (1): the negation `Q - a` is an additive inverse; it is `Q`, no residue, for 0 only. -/
theorem addf_negf_residue (ha : a.toNat < c.qNat) :
    ∃ n, negf c a = some n ∧ addf c a n = some 0 ∧ (n.toNat < c.qNat ↔ a ≠ 0) := by
  have hq := c.qNat_lt
  obtain ⟨n, hn⟩ := exists_word_toNat (x := c.qNat - a.toNat) (by omega)
  have hsum : a.toNat + n.toNat = c.qNat := by omega
  refine ⟨n, negf_eq_some_iff.mpr ?_, addf_eq_some_iff.mpr ⟨by omega, ?_⟩, ?_⟩
  · rw [if_pos ha.le, hn]
  · simp [hsum]
  · have hzero : a = 0 ↔ a.toNat = 0 := BitVec.toNat_inj.symm
    rw [ne_eq, hzero]
    omega

/-- Rule R108 (2): the difference is a residue, and adding it to `b` gives back `a`. -/
theorem addf_subf_residue (ha : a.toNat < c.qNat) (hb : b.toNat < c.qNat) :
    ∃ d, subf c a b = some d ∧ addf c b d = some a ∧ d.toNat < c.qNat := by
  have hq := c.qNat_lt
  rcases le_or_gt b.toNat a.toNat with hle | hlt
  · obtain ⟨d, hd⟩ := exists_word_toNat (x := a.toNat - b.toNat) (by omega)
    have hsum : b.toNat + d.toNat = a.toNat := by omega
    refine ⟨d, subf_eq_some_iff.mpr (.inl ⟨hle, hd⟩), addf_eq_some_iff.mpr ⟨by omega, ?_⟩, by omega⟩
    rw [hsum, if_neg ha.not_ge]
  · obtain ⟨d, hd⟩ := exists_word_toNat (x := c.qNat + a.toNat - b.toNat) (by omega)
    have hsum : b.toNat + d.toNat = c.qNat + a.toNat := by omega
    refine ⟨d, subf_eq_some_iff.mpr (.inr ⟨hlt, by omega, by omega, hd⟩),
      addf_eq_some_iff.mpr ⟨by omega, ?_⟩, by omega⟩
    rw [hsum, if_pos (Nat.le_add_right _ _), Nat.add_sub_cancel_left]

/-- Rule R108 (3): a sum below `2Q` needs at most one subtraction of `Q`. -/
theorem addf_residue (ha : a.toNat < c.qNat) (hb : b.toNat < c.qNat) :
    ∃ sum, addf c a b = some sum ∧ sum.toNat < c.qNat := by
  have hq := c.qNat_lt
  obtain ⟨sum, hsum⟩ := exists_word_toNat
    (x := if c.qNat ≤ a.toNat + b.toNat then a.toNat + b.toNat - c.qNat else a.toNat + b.toNat) (by split <;> omega)
  refine ⟨sum, addf_eq_some_iff.mpr ⟨by omega, hsum⟩, ?_⟩
  rw [hsum]
  split <;> omega

end

/-- Settles O36: the three laws, each from the value its result rule gives on residues. -/
theorem additiveGroupLaws : Obligations.AdditiveGroupLaws := fun _ _ _ ha hb =>
  ⟨addf_negf_residue ha, addf_subf_residue ha hb, addf_residue ha hb⟩

end Sys2Proof.Machine
end

section
/-! The fault entry (rules R201, R204) and the state it leads to: what the host and the collaborators can still do to an
engine that has halted (rule R205). -/

namespace Sys2Proof.Machine

/-! ### The fault entry -/

/-- After a fault `busy` is low, `fatal` is high, and `done` is what it was (rules R33, R204). -/
theorem State.fatal_outputs (s : State) (code : FatalCode) : (s.fatal code).outputs = ⟨false, s.done, true⟩ := rfl

/-- Settles O24: the fields of `State.fatal` one by one; the cause is a code of rule R201 for each of the five faults. -/
theorem fatalEntryRecordsCauseAndCommand : Obligations.FatalEntryRecordsCauseAndCommand := by
  intro s code
  refine ⟨s.fatal_es code, s.fatal_fcmd code, ?_, s.fatal_done code, s.fatal_regs code, s.fatal_ctx code,
    s.fatal_ovr code, s.fatal_cmd code, s.fatal_inputs code, s.fatal_reads code, s.fatal_requests code,
    s.fatal_outputs code⟩
  rw [s.fatal_cause code]
  cases code <;> rfl

/-! ### One step by the timeline -/

/-- A step takes the next event of the timeline. -/
theorem step_of_inputs_cons {s : State} {e : Event} {rest : List Event} (h : s.inputs = e :: rest) :
    step s = handle s e rest := by
  rw [step, advance, h]

/-- On an empty timeline a step is the engine's turn. -/
theorem step_of_inputs_nil {s : State} (h : s.inputs = []) : step s = engineTurn s := by
  rw [step, advance, h]

/-! ### Host accesses to an engine that is not idle (rules R52, R53) -/

/-- The values the host gets from an event: one for a read, none for anything else. -/
def Event.valuesRead (s : State) : Event → List Word
  | .read idx => [s.hostRead idx]
  | .write _ _ | .command _ | .reset | .engine | .primeAnswer _ | .factorAnswer _ => []

/-- The writes that are dropped are those to `CMD` and to the data registers. -/
theorem Event.isDropped_write_iff {idx : Index} {v : Word} :
    (Event.write idx v).isDropped = true ↔ idx = 0 ∨ (8 ≤ idx.toNat ∧ idx.toNat < 16) := by
  simp [Event.isDropped, ← BitVec.toNat_inj]

/-- A write to an engine that is not idle changes at most `OVR`. -/
theorem State.hostWrite_of_not_idle {s : State} (idx : Index) (v : Word) (h : s.es ≠ .idle) :
    s.hostWrite idx v = { s with ovr := s.ovr || (Event.write idx v).isDropped } := by
  by_cases hd : idx = 0 ∨ (8 ≤ idx.toNat ∧ idx.toNat < 16)
  · rw [s.hostWrite_dropped idx v hd h, Event.isDropped_write_iff.mpr hd, Bool.or_true]
    rfl
  · obtain ⟨h0, hreg⟩ := not_or.mp hd
    rw [s.hostWrite_ignored idx v h0 hreg, Bool.eq_false_iff.mpr (mt Event.isDropped_write_iff.mp hd), Bool.or_false]

/-- A host access to an engine that is not idle sets `OVR` if it is dropped, gives the value if it is a read, and does
nothing else. -/
theorem handle_hostAccess_of_not_idle {s : State} {e : Event} (rest : List Event) (he : e.isHostAccess = true)
    (h : s.es ≠ .idle) : handle s e rest =
      .next { s with inputs := rest, ovr := s.ovr || e.isDropped, reads := e.valuesRead s ++ s.reads } := by
  cases e with
  | write idx v => exact congrArg _ (State.hostWrite_of_not_idle (s := { s with inputs := rest }) idx v h)
  | command v =>
    have hrun : runCommand { s with inputs := rest } v = .next { s with inputs := rest }.drop := if_neg h
    rw [handle, hrun, Event.isDropped, Bool.or_true]
    rfl
  | read idx =>
    rw [Event.isDropped, Bool.or_false]
    rfl
  | reset | engine | primeAnswer b | factorAnswer fs => cases he

/-! ### Reset -/

/-- Every data register is 0 after reset (rule R37). -/
theorem State.reset_x (r : Reg) : State.reset.x r = 0 := Vector.getElem_replicate r.isLt

/-- After reset every host index reads 0 (rules R37, R231). -/
theorem State.reset_hostRead (idx : Index) : State.reset.hostRead idx = 0 := by
  unfold State.hostRead
  split
  case h_9 =>
    split
    · exact State.reset_x _
    · rfl
  all_goals rfl

/-- The host reads after the reset event what it reads of the reset state: no read shows the model's own fields. -/
theorem State.resetEvent_hostRead (s : State) (idx : Index) : s.resetEvent.hostRead idx = State.reset.hostRead idx := rfl

/-! ### `HALTED` (rule R205) -/

section
variable {s : State} (hs : s.es = .halted)
include hs

/-- A halted engine does nothing in its turn. -/
theorem engineTurn_of_halted : engineTurn s = .next s := by
  rw [engineTurn, hs]

/-- Nobody waits for a PRIME answer in `HALTED`. -/
theorem primeArrives_of_halted (popped : State) : primeArrives s popped = .next popped := by
  rw [primeArrives, hs]

/-- Nobody waits for a FACTOR answer in `HALTED`. -/
theorem factorArrives_of_halted (popped : State) : factorArrives s popped = .next popped := by
  rw [factorArrives, hs]

/-- Every event but reset leaves a halted engine as it is, but for `OVR` and the values read. -/
theorem handle_of_halted {e : Event} (rest : List Event) (he : e ≠ .reset) : handle s e rest =
    .next { s with inputs := rest, ovr := s.ovr || e.isDropped, reads := e.valuesRead s ++ s.reads } := by
  cases e with
  | write | command | read => exact handle_hostAccess_of_not_idle rest rfl (by simp [hs])
  | reset => exact absurd rfl he
  | engine =>
    rw [Event.isDropped, Bool.or_false]
    exact engineTurn_of_halted (s := { s with inputs := rest }) hs
  | primeAnswer b =>
    rw [Event.isDropped, Bool.or_false]
    exact primeArrives_of_halted hs _
  | factorAnswer fs =>
    rw [Event.isDropped, Bool.or_false]
    exact factorArrives_of_halted hs _

end

/-- Settles O23, by the head of the timeline: no event gives the engine its turn, which does nothing; reset clears; every
other event changes only `OVR` and the values read. -/
theorem onlyResetLeavesHalted : Obligations.OnlyResetLeavesHalted := by
  intro s hs
  cases hi : s.inputs with
  | nil =>
    refine ⟨s, (step_of_inputs_nil hi).trans (engineTurn_of_halted hs), .inr ?_⟩
    exact ⟨hs, rfl, rfl, rfl, rfl, rfl, rfl, rfl, nofun, nofun⟩
  | cons e rest =>
    by_cases he : e = .reset
    · subst he
      refine ⟨_, step_of_inputs_cons hi, .inl ⟨rest, rfl, rfl, rfl, rfl, rfl, fun idx => ?_⟩⟩
      rw [State.resetEvent_hostRead, State.reset_hostRead]
    · refine ⟨_, (step_of_inputs_cons hi).trans (handle_of_halted hs rest he), .inr ?_⟩
      refine ⟨hs, rfl, rfl, rfl, rfl, rfl, rfl, rfl, ?_, ?_⟩
      · rintro _ _ ⟨⟩
        exact ⟨rfl, rfl⟩
      · rintro _ _ ⟨⟩
        rfl

end Sys2Proof.Machine
end

section
/-! Reset (rules R230, R232) and the negated 0 that adding 0 repairs (rule R242). -/

namespace Sys2Proof.Machine

/-! ### The reset event, and answers that come too late for it -/

/-- A reset that is next on the timeline is the whole step, whatever the engine was doing. -/
theorem step_reset (s : State) (rest : List Event) :
    step { s with inputs := .reset :: rest } = .next { s with inputs := rest }.resetEvent := rfl

/-- A PRIME answer is discarded by an engine that waits for none (rules R37, R232). -/
theorem step_primeAnswer_discarded {s : State} (h : ∀ x, s.es ≠ .run (some (.prime x))) (b : Bool)
    (more : List Event) : step { s with inputs := .primeAnswer b :: more } = .next { s with inputs := more } := by
  rw [step_of_inputs_cons rfl, handle, primeArrives]
  split
  · next x hx => exact absurd hx (h x)
  · rfl

/-- A FACTOR answer is discarded by an engine that waits for none (rules R37, R232). -/
theorem step_factorAnswer_discarded {s : State} (h : ∀ m, s.es ≠ .run (some (.factor m))) (fs : FactorSet)
    (more : List Event) : step { s with inputs := .factorAnswer fs :: more } = .next { s with inputs := more } := by
  rw [step_of_inputs_cons rfl, handle, factorArrives]
  split
  · next m hm => exact absurd hm (h m)
  · rfl

/-- After reset no request is outstanding: the engine is not in `RUN`. -/
theorem State.resetEvent_not_running (s : State) (request : Option Request) : s.resetEvent.es ≠ .run request := nofun

/-- Settles O17: the step is the reset event, and it leaves no request for a later answer to meet. -/
theorem resetFromEveryState : Obligations.ResetFromEveryState := by
  intro s rest
  refine ⟨_, step_reset s rest, rfl, rfl, rfl, rfl, rfl, rfl, rfl, rfl, rfl, ?_, ?_⟩
  · exact step_primeAnswer_discarded fun _ => State.resetEvent_not_running _ _
  · exact step_factorAnswer_discarded fun _ => State.resetEvent_not_running _ _

/-! ### Adding 0 -/

/-- `NEG` of 0 is `Q` (rule R101). -/
theorem negf_zero_eq_some_iff {c : Context} {v : Word} : negf c 0 = some v ↔ v.toNat = c.qNat := by
  simp [negf_eq_some_iff]

/-- Adding 0 subtracts `Q` from what is no residue, and changes nothing else (rule R103). -/
theorem addf_zero_eq_some_iff {c : Context} {a v : Word} :
    addf c a 0 = some v ↔ v.toNat = if c.qNat ≤ a.toNat then a.toNat - c.qNat else a.toNat := by
  simp [addf_eq_some_iff, a.isLt]

/-- Settles O37: `Q` is no residue, so adding 0 takes `Q` from it; a residue is below `Q` and stays. -/
theorem addingZeroRepairsNegatedZero : Obligations.AddingZeroRepairsNegatedZero := by
  refine fun c => ⟨?_, fun a ha => addf_zero_eq_some_iff.mpr (if_neg ha.not_ge).symm⟩
  obtain ⟨n, hn⟩ := exists_word_toNat (c.qNat_lt.trans (by decide : 2 ^ 63 < 2 ^ 64))
  refine ⟨n, negf_zero_eq_some_iff.mpr hn, hn, addf_zero_eq_some_iff.mpr ?_⟩
  rw [if_pos hn.ge, hn, Nat.sub_self]
  rfl

end Sys2Proof.Machine
end

section
/-! Encoding and decoding are inverse to each other: the operation code alone picks the row of the opcode map
(rule R74), and a row builds a command from fields that the command's encoding puts back (rules R70 to R75, R79). -/

namespace Sys2Proof

/-! ### The fields of an encoding -/

/-- The layout of rule R72 loses nothing: the fields read back from a value are those it was laid out from. -/
theorem Fields.ofWord_toWord (f : Fields) : Fields.ofWord f.toWord = f := by
  obtain ⟨op, rd, rs1, rs2, v, z, hi⟩ := f
  simp only [Fields.ofWord, Fields.toWord, Fields.mk.injEq]
  refine ⟨?_, ?_, ?_, ?_, ?_, ?_, ?_⟩ <;> ext k hk <;>
    simp only [← BitVec.getLsbD_eq_getElem, BitVec.getLsbD_extractLsb', BitVec.getLsbD_append] <;> grind

theorem Fields.ofWord_encode (i : Instr) : Fields.ofWord (encode i) = i.fields := i.fields.ofWord_toWord

/-! ### The row of a value -/

/-- No two rows have the same operation code. -/
theorem opcodeMap_ops_nodup : (opcodeMap.map Row.op).Nodup := by decide

/-- At most one row has a given operation code. -/
theorem opcodeMap_op_inj {row row' : Row} (h : row ∈ opcodeMap) (h' : row' ∈ opcodeMap) (hop : row.op = row'.op) :
    row = row' :=
  List.inj_on_of_nodup_map opcodeMap_ops_nodup h h' hop

/-- A value decodes to a command iff some row selects it and builds that command: no other row can. -/
theorem decode_eq_ok_iff {w : Word} {i : Instr} :
    decode w = .ok i ↔ ∃ row ∈ opcodeMap, row.selects w = true ∧ row.build (Fields.ofWord w) = i := by
  unfold decode
  constructor
  · intro h
    split at h
    · next row hrow => exact ⟨row, List.mem_of_find?_eq_some hrow, by simpa using List.find?_some hrow, Except.ok.inj h⟩
    · cases h
  · rintro ⟨row, hmem, hsel, rfl⟩
    split
    · next row' hrow' =>
      have hmem' : row' ∈ opcodeMap := List.mem_of_find?_eq_some hrow'
      have hsel' : row'.selects w = true := by simpa using List.find?_some hrow'
      have hop : row'.op = row.op :=
        ((Row.selects_iff hmem' w).mp hsel').2.symm.trans ((Row.selects_iff hmem w).mp hsel).2
      rw [opcodeMap_op_inj hmem' hmem hop]
    · next hnone => exact absurd hsel (List.find?_eq_none.mp hnone row hmem)

/-! ### A row and the commands it builds -/

/-- The fields that a format keeps of a value, under an operation code. -/
def Format.keep (fmt : Format) (op : BitVec 8) (f : Fields) : Fields :=
  ⟨op, if fmt.usesRd then f.rd else 0, if fmt.usesRs1 then f.rs1 else 0, if fmt.usesRs2 then f.rs2 else 0,
    if fmt.usesV then f.v else 0, 0, 0⟩

/-- A format keeps all of a well-formed value. -/
theorem Format.keep_eq {fmt : Format} {f : Fields} (hhi : f.hi = 0) (hz : f.z = 0) (hf : f.Fits fmt) :
    fmt.keep f.op f = f := by
  obtain ⟨hrd, hrs1, hrs2, hv⟩ := hf
  obtain ⟨op, rd, rs1, rs2, v, z, hi⟩ := f
  simp only [Format.keep, Fields.mk.injEq, ite_eq_left_iff, Bool.not_eq_true, true_and]
  exact ⟨fun h => (hrd h).symm, fun h => (hrs1 h).symm, fun h => (hrs2 h).symm, fun h => (hv h).symm,
    hz.symm, hhi.symm⟩

/-- The `V` bit survives being read as a variant. -/
theorem variantBit_variantOf : ∀ b : BitVec 1, variantBit (variantOf b) = b := by decide

/-- The command a row builds from a value has the fields that the row's format keeps of it. -/
theorem opcodeMap_build_fields : ∀ row ∈ opcodeMap, ∃ fmt, formatOfOp row.op = some fmt ∧
    ∀ f, (row.build f).fields = fmt.keep row.op f := by
  simp only [opcodeMap, valueRows, inPlaceRows, searchRows, List.cons_append, List.nil_append, List.forall_mem_cons,
    List.not_mem_nil, false_imp_iff, implies_true, and_true]
  refine ⟨⟨.c, rfl, fun f => ?_⟩, ?_⟩
  · simp only [Instr.fields, fieldsC, variantBit_variantOf]
    rfl
  · and_intros <;> exact ⟨_, rfl, fun _ => rfl⟩

/-- Every command is what the row of its operation code builds from its own fields. -/
theorem exists_row_of_instr (i : Instr) : ∃ row ∈ opcodeMap, row.op = i.op ∧ row.build i.fields = i := by
  suffices h : ∃ row, opcodeMap.find? (fun row => row.op == i.op) = some row ∧ row.build i.fields = i by
    obtain ⟨row, hrow, hbuild⟩ := h
    exact ⟨row, List.mem_of_find?_eq_some hrow, by simpa using List.find?_some hrow, hbuild⟩
  cases i with
  | ctxinit rs1 v => exact ⟨_, rfl, by cases v <;> rfl⟩
  | _ => exact ⟨_, rfl, rfl⟩

/-! ### The statements -/

theorem Instr.fields_op (i : Instr) : i.fields.op = i.op := by
  cases i <;> rfl

/-- Settles O1: the row of the command's operation code selects its encoding and builds the command again. -/
theorem decodeReadsEncode : Obligations.DecodeReadsEncode := by
  intro i hi
  obtain ⟨row, hmem, hop, hbuild⟩ := exists_row_of_instr i
  refine decode_eq_ok_iff.mpr ⟨row, hmem, (Row.selects_iff hmem _).mpr ?_, ?_⟩
  · rw [Fields.ofWord_encode, i.fields_op]
    exact ⟨hi, hop.symm⟩
  · rw [Fields.ofWord_encode, hbuild]

/-- Settles O2: the row that selects the value builds a command with the value's own fields, and the fields are the
whole value. -/
theorem legalWordIsItsEncoding : Obligations.LegalWordIsItsEncoding := by
  intro w i h
  obtain ⟨row, hmem, hsel, rfl⟩ := decode_eq_ok_iff.mp h
  obtain ⟨hw, hop⟩ := (Row.selects_iff hmem w).mp hsel
  obtain ⟨hhi, hz, fmt, hfmt, hfits⟩ := (Fields.wellFormed_iff _).mp hw
  obtain ⟨fmt', hfmt', hbuild⟩ := opcodeMap_build_fields row hmem
  obtain rfl : fmt = fmt' := Option.some_inj.mp (hfmt.symm.trans (hop ▸ hfmt'))
  rw [encode, hbuild, ← hop, Format.keep_eq hhi hz hfits, Fields.toWord_ofWord]

/-- Settles O4: a row selects only values with its own operation code, and no code has two rows. -/
theorem opcodeRowsAreDisjoint : Obligations.OpcodeRowsAreDisjoint := by
  refine ⟨rfl, fun w => ?_⟩
  calc (opcodeMap.filter fun row => row.selects w).length
      = opcodeMap.countP (fun row => row.selects w) := List.countP_eq_length_filter.symm
    _ ≤ opcodeMap.countP ((· == (Fields.ofWord w).op) ∘ Row.op) :=
        List.countP_mono_left fun row hmem hsel => beq_iff_eq.mpr ((Row.selects_iff hmem w).mp hsel).2.symm
    _ = (opcodeMap.map Row.op).count (Fields.ofWord w).op := List.countP_map.symm
    _ ≤ 1 := List.nodup_iff_count_le_one.mp opcodeMap_ops_nodup _

/-- A value that is a well-formed command's encoding decodes to it. -/
theorem decode_of_encode {i : Instr} {w : Word} (h : i.wellFormed = true ∧ encode i = w) : decode w = .ok i :=
  h.2 ▸ decodeReadsEncode i h.1

/-- Settles O5: each value is the encoding of its command. -/
theorem writtenOutWordsDecode : Obligations.WrittenOutWordsDecode :=
  ⟨decode_of_encode (by decide), decode_of_encode (by decide), decode_of_encode (by decide),
    decode_of_encode (by decide), decode_of_encode (by decide), decode_of_encode (by decide),
    decode_of_encode (by decide), decode_of_encode (by decide)⟩

end Sys2Proof
end

section
/-! The host port: a read (rules R51, R52), a write (rule R53), the issue step (rule R81), the engine's turn, and the
byte view of a wrapper (rule R54). -/

namespace Sys2Proof.Machine

/-! ### The engine's turn -/

/-- The engine runs the command that `CMD` holds. -/
theorem runEngine_of_decode {s : State} {i : Instr} (h : decode s.cmd = .ok i) : runEngine s = exec i s := by
  rw [runEngine, h]

/-- An engine in `RUN` that has sent no request begins its command in its turn. -/
theorem engineTurn_of_run {s : State} (h : s.es = .run none) : engineTurn s = runEngine s := by
  rw [engineTurn, h]

/-- In every other engine state the turn does nothing. -/
theorem engineTurn_of_not_run {s : State} (h : s.es ≠ .run none) : engineTurn s = .next s := by
  rw [engineTurn]
  split
  · next hrun => exact absurd hrun h
  · rfl

/-- An `engine` event is the engine's turn. -/
theorem step_engine (s : State) (rest : List Event) :
    step { s with inputs := .engine :: rest } = engineTurn { s with inputs := rest } := rfl

/-- Settles O7: at an `engine` event and on an empty timeline the step is the engine's turn. -/
theorem runningEngineRunsItsCommand : Obligations.RunningEngineRunsItsCommand := by
  intro s i rest hrun hdec
  have hturn (l : List Event) : engineTurn { s with inputs := l } = exec i { s with inputs := l } :=
    (engineTurn_of_run (s := { s with inputs := l }) hrun).trans (runEngine_of_decode hdec)
  exact ⟨(step_engine s rest).trans (hturn rest), (step_of_inputs_nil rfl).trans (hturn [])⟩

/-! ### A command issued and run in one step -/

/-- A `command` event is the host's write and the command's run. -/
theorem step_command (s : State) (w : Word) (rest : List Event) :
    step { s with inputs := .command w :: rest } = runCommand { s with inputs := rest } w := rfl

/-- An idle engine runs the command written to it. -/
theorem runCommand_ok {s : State} {w : Word} {i : Instr} (hidle : s.es = .idle) (h : decode w = .ok i) :
    runCommand s w = exec i (s.accept w) := by
  rw [runCommand, if_pos hidle, h]

/-- An illegal value halts an idle engine. -/
theorem runCommand_illegal {s : State} {w : Word} {reason : Illegal} (hidle : s.es = .idle)
    (h : decode w = .error reason) : runCommand s w = .next ((s.accept w).fatal .illegalCmd) := by
  rw [runCommand, if_pos hidle, h]

/-- An engine that is not idle drops the write. -/
theorem runCommand_dropped {s : State} (w : Word) (h : s.es ≠ .idle) : runCommand s w = .next s.drop := by
  rw [runCommand, if_neg h]

/-- A table row that decodes is decoded from the value the host writes for it. -/
theorem decode_tableWord {nbits w : Nat} {i : Instr} (h : decodeTableWord nbits w = some i) :
    decode (tableWord nbits w) = .ok i := by
  unfold decodeTableWord at h
  cases hd : decode (tableWord nbits w) with
  | error reason => rw [hd] at h; cases h
  | ok j => rw [hd] at h; cases h; rfl

/-- Settles O6: the event is taken, `CMD` and `DONE` are written, and the command runs; `withFetchWord` places such an
event. -/
theorem stepRunsTheDecodedCommand : Obligations.StepRunsTheDecodedCommand := by
  refine ⟨fun s w i rest hidle hin hdec => ?_, fun s nbits w i hidle hdec => ?_⟩
  · rw [step_of_inputs_cons hin]
    exact runCommand_ok (s := { s with inputs := rest }) hidle hdec
  · exact runCommand_ok (s := s) hidle (decode_tableWord hdec)

/-! ### Host writes -/

/-- Whatever its answer, the issue step has stored the value in `CMD` and cleared `DONE`, and leaves the data registers,
the context, `OVR` and the timeline (rule R81). -/
theorem State.issue_frame (s : State) (w : Word) : (s.issue w).cmd = w ∧ (s.issue w).done = false ∧
    (s.issue w).regs = s.regs ∧ (s.issue w).ctx = s.ctx ∧ (s.issue w).ovr = s.ovr ∧ (s.issue w).inputs = s.inputs := by
  rcases s.issue_cases w with ⟨code, h, -⟩ | ⟨i, -, -, h⟩ <;> rw [h] <;> exact ⟨rfl, rfl, rfl, rfl, rfl, rfl⟩

/-- Settles O11: the accepted writes issue or write their register, a dropped one sets `OVR`, the others are ignored. -/
theorem hostWriteIsAcceptedDroppedOrIgnored : Obligations.HostWriteIsAcceptedDroppedOrIgnored := by
  intro s idx v rest
  simp only [step_write, Host.Outcome.next.injEq]
  refine ⟨fun h0 hidle => ⟨?_, (State.issue_frame _ v).1⟩, fun r hr hidle => ?_, fun hi hbusy => ?_, fun h0 hi => ?_⟩
  · rw [h0]
    exact State.hostWrite_cmd { s with inputs := rest } v hidle
  · exact State.hostWrite_reg { s with inputs := rest } idx v r hr hidle
  · exact State.hostWrite_dropped { s with inputs := rest } idx v (by simpa only [Nat.lt_succ_iff] using hi) hbusy
  · exact State.hostWrite_ignored { s with inputs := rest } idx v h0 (by omega)

/-- A write to `CMD` of an idle engine is the issue step. -/
theorem step_write_cmd {s : State} (w : Word) (rest : List Event) (hidle : s.es = .idle) :
    step { s with inputs := .write 0 w :: rest } = .next ({ s with inputs := rest }.issue w) :=
  congrArg _ (State.hostWrite_cmd { s with inputs := rest } w hidle)

/-- Settles O9: the frame of the issue step and its three answers. -/
theorem issueStepAnswers : Obligations.IssueStepAnswers := by
  intro s w rest hidle
  obtain ⟨hcmd, hdone, hregs, hctx, hovr, hinputs⟩ := State.issue_frame { s with inputs := rest } w
  refine ⟨_, step_write_cmd w rest hidle, hcmd, hdone, hregs, hctx, hovr, hinputs, fun reason h => ?_,
    fun i h hneeds hmissing => ?_, fun i h hvalid => State.issue_ok { s with inputs := rest } h hvalid⟩
  · rw [State.issue_illegal _ h]
    exact ⟨rfl, rfl, rfl⟩
  · rw [State.issue_noCtx { s with inputs := rest } h hneeds hmissing]
    exact ⟨rfl, rfl, rfl⟩

/-! ### Host reads -/

/-- Settles O12: the step is the note of the value read; the timeline does not show in it. -/
theorem hostReadHasNoSideEffect : Obligations.HostReadHasNoSideEffect :=
  fun _ _ _ => rfl

/-- The host reads data register `r` at index `0x08 + r`. -/
theorem State.hostRead_reg (s : State) (r : Reg) : s.hostRead (BitVec.ofNat 6 (8 + r.val)) = s.x r := by
  fin_cases r <;> rfl

/-- A reserved index reads 0. -/
theorem State.hostRead_reserved (s : State) {idx : Index} (h : 0x10 ≤ idx.toNat) : s.hostRead idx = 0 := by
  unfold State.hostRead
  split
  case h_9 => exact dif_neg (by omega)
  all_goals omega

/-- Settles O13: index by index; `MU` has 65 bits, the lower 64 at index 5 and the last one at index 6. -/
theorem hostReadMap : Obligations.HostReadMap := by
  intro s
  have hmu : s.ctx.muNat < 2 ^ 65 := s.ctx.mu.isLt
  refine ⟨rfl, ?_, ?_, ?_, ?_, ?_, rfl, s.hostRead_reg, fun _ => s.hostRead_reserved⟩
  · exact BitVec.toNat_setWidth_of_le (by decide)
  · exact BitVec.toNat_setWidth_of_le (by decide)
  · exact BitVec.toNat_setWidth_of_le (by decide)
  · exact BitVec.toNat_setWidth 64 s.ctx.mu
  · show ((s.ctx.mu >>> 64).setWidth 64).toNat = _
    rw [BitVec.toNat_setWidth, BitVec.toNat_ushiftRight, Nat.shiftRight_eq_div_pow]
    exact Nat.mod_eq_of_lt (show s.ctx.muNat / 2 ^ 64 < 2 ^ 64 by omega)

/-- Settles O15: the offset's high six bits are the index and its low three bits the byte. -/
theorem wrapperIsLittleEndian : Obligations.WrapperIsLittleEndian := by
  intro s idx j hj
  have hidx : idx.toNat < 64 := idx.isLt
  have hoff : (BitVec.ofNat 9 (8 * idx.toNat + j)).toNat = 8 * idx.toNat + j :=
    Nat.mod_eq_of_lt (by omega)
  have hdiv : (8 * idx.toNat + j) / 8 = idx.toNat := by omega
  have hmod : (8 * idx.toNat + j) % 8 = j := by omega
  rw [State.wrapperByte, hoff, hdiv, hmod, BitVec.ofNat_toNat, BitVec.setWidth_eq]

/-- Settles O16: the reset values field by field, and the host's reads of them. -/
theorem resetStateIsAllZero : Obligations.ResetStateIsAllZero :=
  ⟨State.reset_x, rfl, rfl, State.reset_hostRead, rfl⟩

end Sys2Proof.Machine
end

section
/-! The Modulus Context: the bounds of `LOGQ` and `MU` (rules R24, R92, R93) and its construction (rules R90, R91). -/

namespace Sys2Proof.Machine

/-! ### The Barrett constant `2^(2k) / q` for `2^(k-1) <= q < 2^k` -/

section
variable {q k : Nat}

/-- The square of `2^k` around `2^(k-1)`. -/
theorem two_pow_pred_mul_two_pow_succ (hk : 1 ≤ k) : 2 ^ (k - 1) * 2 ^ (k + 1) = 2 ^ (2 * k) := by
  rw [← Nat.pow_add]
  congr 1
  omega

theorem reciprocal_le (hk : 1 ≤ k) (hlow : 2 ^ (k - 1) ≤ q) : 2 ^ (2 * k) / q ≤ 2 ^ (k + 1) := by
  apply Nat.div_le_of_le_mul
  rw [← two_pow_pred_mul_two_pow_succ hk]
  exact Nat.mul_le_mul_right _ hlow

theorem lt_reciprocal (hpos : 0 < q) (hhigh : q < 2 ^ k) : 2 ^ k < 2 ^ (2 * k) / q := by
  rw [← Nat.succ_le_iff, Nat.le_div_iff_mul_le hpos, Nat.succ_eq_add_one]
  calc (2 ^ k + 1) * q ≤ (2 ^ k + 1) * (2 ^ k - 1) := Nat.mul_le_mul_left _ (Nat.le_sub_one_of_lt hhigh)
    _ = 2 ^ k * 2 ^ k - 1 := by rw [← Nat.mul_self_sub_mul_self_eq, Nat.one_mul]
    _ ≤ 2 ^ (2 * k) := by rw [← Nat.pow_add, ← Nat.two_mul]; exact Nat.sub_le _ _

/-- The Barrett constant reaches its power of two only for a power of two. -/
theorem reciprocal_eq_iff (hk : 1 ≤ k) (hlow : 2 ^ (k - 1) ≤ q) :
    2 ^ (2 * k) / q = 2 ^ (k + 1) ↔ q = 2 ^ (k - 1) := by
  have hpos : 0 < q := Nat.lt_of_lt_of_le (Nat.two_pow_pos _) hlow
  rw [le_antisymm_iff, and_iff_right (reciprocal_le hk hlow), Nat.le_div_iff_mul_le hpos,
    ← two_pow_pred_mul_two_pow_succ hk, Nat.mul_comm, Nat.mul_le_mul_right_iff (Nat.two_pow_pos _)]
  exact ⟨fun h => le_antisymm h hlow, le_of_eq⟩

end

/-! ### A usable context -/

/-- The three numbers of a usable context (rule R24). -/
theorem Context.usable.numbers {c : Context} (h : c.usable) :
    2 ≤ c.qNat ∧ c.logqNat = bitlen c.qNat ∧ c.muNat = 2 ^ (2 * bitlen c.qNat) / c.qNat := by
  obtain ⟨hvalid, hwf⟩ := h
  rwa [Context.wellFormed, if_pos hvalid] at hwf

theorem Context.usable.two_le {c : Context} (h : c.usable) : 2 ≤ c.qNat := h.numbers.1

/-- Settles O22: the bounds of the bit length and of the Barrett constant; `MU = 2^64` needs `LOGQ = 63`. -/
theorem contextBounds : Obligations.ContextBounds := by
  intro c hc
  obtain ⟨htwo, hlogq, hmu⟩ := hc.numbers
  have hq := c.qNat_lt
  have hk2 : 2 ≤ bitlen c.qNat := two_le_bitlen htwo
  have hk63 : bitlen c.qNat ≤ 63 := bitlen_le_iff.mpr hq
  have hlow : 2 ^ (bitlen c.qNat - 1) ≤ c.qNat := two_pow_bitlen_pred_le (by omega)
  have hle : 2 ^ (2 * bitlen c.qNat) / c.qNat ≤ 2 ^ (bitlen c.qNat + 1) := reciprocal_le (by omega) hlow
  have heq := reciprocal_eq_iff (by omega) hlow
  rw [hlogq, hmu]
  refine ⟨htwo, by omega, rfl, hk2, hk63, rfl, lt_reciprocal (by omega) (lt_two_pow_bitlen _), hle,
    Nat.pow_le_pow_right (by decide) (by omega), heq, fun h => ?_, fun h => ?_⟩
  · have h63 : 64 ≤ bitlen c.qNat + 1 := (Nat.pow_le_pow_iff_right Nat.one_lt_two).mp (h ▸ hle)
    obtain h62 : bitlen c.qNat = 63 := by omega
    rw [h62] at heq h
    exact heq.mp h
  · have h62 : bitlen c.qNat = 63 := by rw [h, bitlen_two_pow]
    rw [h62] at heq ⊢
    exact heq.mpr h

/-! ### Construction -/

/-- Out of range `CTXINIT` raises `CTX_RANGE` (rule R91). -/
theorem buildContext_error {q : Word} {v : Variant} (h : q.toNat < 2 ∨ 2 ^ 63 ≤ q.toNat) :
    buildContext q v = .error .ctxRange := if_pos h

/-- In range a context is built from the modulus, and none of its fields is cut (rules R92, R93). -/
theorem buildContext_ok {q : Word} {v : Variant} (hlow : 2 ≤ q.toNat) (hhigh : q.toNat < 2 ^ 63) :
    ∃ c, buildContext q v = .ok c ∧ c.qNat = q.toNat ∧ c.logqNat = bitlen q.toNat ∧
      c.muNat = 2 ^ (2 * bitlen q.toNat) / q.toNat ∧ c.var = v ∧ c.valid = true := by
  obtain ⟨c, hbuild, hlogq⟩ := buildContext_logqNat q v hlow hhigh
  have hk : bitlen q.toNat ≤ 63 := bitlen_le_iff.mpr hhigh
  have hmu : 2 ^ (2 * bitlen q.toNat) / q.toNat < 2 ^ 65 :=
    calc 2 ^ (2 * bitlen q.toNat) / q.toNat
        ≤ 2 ^ (bitlen q.toNat + 1) := reciprocal_le (bitlen_pos (by omega)) (two_pow_bitlen_pred_le (by omega))
      _ < 2 ^ 65 := Nat.pow_lt_pow_right Nat.one_lt_two (by omega)
  refine ⟨c, hbuild, ?_, hlogq, ?_, ?_, ?_⟩ <;> rw [buildContext, if_neg (by omega)] at hbuild <;>
    obtain rfl := Except.ok.inj hbuild
  · exact (BitVec.toNat_ofNat _ _).trans (Nat.mod_eq_of_lt hhigh)
  · exact (BitVec.toNat_ofNat _ _).trans (Nat.mod_eq_of_lt hmu)
  · rfl
  · rfl

/-- Every context that is built is usable. -/
theorem buildContext_usable {q : Word} {v : Variant} {c : Context} (h : buildContext q v = .ok c) : c.usable := by
  by_cases hr : q.toNat < 2 ∨ 2 ^ 63 ≤ q.toNat
  · rw [buildContext_error hr] at h
    cases h
  · obtain ⟨c', hbuild, hq, hlogq, hmu, -, hvalid⟩ := buildContext_ok (q := q) (v := v) (by omega) (by omega)
    obtain rfl : c' = c := Except.ok.inj (hbuild.symm.trans h)
    refine ⟨hvalid, ?_⟩
    rw [Context.wellFormed, if_pos hvalid, hq]
    exact ⟨by omega, hlogq, hmu⟩

/-- Settles O31: the two answers of the construction; the command does nothing else than take its context. -/
theorem ctxinitBuildsTheContext : Obligations.CtxinitBuildsTheContext := by
  intro s rs1 v _
  refine ⟨fun hlow hhigh => ?_, fun hrange => ?_⟩
  · obtain ⟨c, hbuild, hq, hlogq, hmu, hvar, hvalid⟩ := buildContext_ok (v := v) hlow hhigh
    exact ⟨_, exec_ctxinit_ok rs1 v s c hbuild, hq, hlogq, hmu, hvar, hvalid,
      rfl, rfl, rfl, rfl, rfl, rfl, rfl, rfl, rfl, rfl⟩
  · exact faults_of_fatal (exec_ctxinit_error rs1 v s _ (buildContext_error hrange)) (SameShown.refl s) rfl rfl

end Sys2Proof.Machine
end

section
/-! The four forms of a command: `CTXINIT`, arithmetic under a context, prime search, generator search. What a command
is given by is named once, so that a fact about all 21 commands is proved by form. -/

namespace Sys2Proof.Machine

/-- The result rule of an arithmetic command on its operands (rules R101 to R148). -/
def arithmeticResult (i : Instr) (s : State) : Option Word :=
  match i with
  | .neg _ rs1 | .negIp rs1 => negf s.ctx (s.x rs1)
  | .add _ rs1 rs2 | .addIp rs1 rs2 => addf s.ctx (s.x rs1) (s.x rs2)
  | .sub _ rs1 rs2 | .subIp rs1 rs2 => subf s.ctx (s.x rs1) (s.x rs2)
  | .mul _ rs1 rs2 | .mulIp rs1 rs2 => mulf s.ctx (s.x rs1) (s.x rs2)
  | .sqr _ rs1 | .sqrIp rs1 => sqrf s.ctx (s.x rs1)
  | .pow _ rs1 rs2 | .powIp rs1 rs2 => powf s.ctx (s.x rs1) (s.x rs2)
  | .inv _ rs1 | .invIp rs1 => invf s.ctx (s.x rs1)
  | .ctxinit .. | .ffpu .. | .fnpu .. | .ffpd .. | .fnpd .. | .fpr .. | .fgen .. => none

/-- The checks and the start of a prime search (rules R161, R164 to R167). -/
def startOf (i : Instr) (s : State) : Except FatalCode Start :=
  match i with
  | .ffpu _ rs1 rs2 => startFirstUp (s.x rs1) (s.x rs2)
  | .fnpu _ rs1 rs2 => startNextUp (s.x rs1) (s.x rs2)
  | .ffpd _ rs1 rs2 => startFirstDown (s.x rs1) (s.x rs2)
  | .fnpd _ rs1 rs2 => startNextDown (s.x rs1) (s.x rs2)
  | _ => .error .searchRange

/-- The operand checks of a generator search (rule R183); `FPR` has none. -/
def rootCheck (i : Instr) (s : State) : Except FatalCode Unit :=
  match i with
  | .fgen _ rs1 => fgenCheck (s.x rs1)
  | _ => .ok ()

/-- What a generator search makes of the root it has found (rules R182, R183). -/
def rootResult (i : Instr) (s : State) (u : SearchUnit) : Option Word :=
  match i with
  | .fgen _ rs1 => powf s.ctx u.root (u.loadGexp (s.x rs1)).gexp
  | _ => some u.root

/-- A command by its form. -/
inductive Form : Instr → Prop
  /-- construction -/
  | ctxinit (rs1 : Reg) (v : Variant) : Form (.ctxinit rs1 v)
  /-- arithmetic under a context -/
  | arithmetic {i : Instr} (rd : Reg) (hn : i.needsContext = true) (hf : usesFactorPort i = false)
      (hd : destOf i = some rd) : Form i
  /-- prime search -/
  | primeSearch {i : Instr} (d : Direction) (rd : Reg) (hn : i.needsContext = false)
      (hi : primeSearchOf i = some (d, rd)) :
      Form i
  /-- generator search -/
  | generatorSearch {i : Instr} (rd : Reg) (hf : usesFactorPort i = true) (hd : destOf i = some rd) : Form i

theorem form_of (i : Instr) : Form i := by
  cases i with
  | ctxinit rs1 v => exact .ctxinit rs1 v
  | ffpu | fnpu | ffpd | fnpd => exact .primeSearch _ _ rfl rfl
  | fpr | fgen => exact .generatorSearch _ rfl rfl
  | neg | add | sub | mul | sqr | pow | inv => exact .arithmetic _ rfl rfl rfl
  | negIp | addIp | subIp | mulIp | sqrIp | powIp | invIp => exact .arithmetic _ rfl rfl rfl

/-- An arithmetic command checks for its context and finishes with its result. -/
theorem exec_arithmetic {i : Instr} {rd : Reg} (hn : i.needsContext = true) (hf : usesFactorPort i = false)
    (hd : destOf i = some rd) (s : State) :
    exec i s = .next (s.withContext fun s => s.finish rd (arithmeticResult i s)) := by
  cases i with
  | ctxinit | ffpu | fnpu | ffpd | fnpd => cases hn
  | fpr | fgen => cases hf
  | _ =>
    cases hd
    rfl

/-- A prime search by its direction, its destination and its start. -/
theorem exec_primeSearch {i : Instr} {d : Direction} {rd : Reg} (hi : primeSearchOf i = some (d, rd)) (s : State) :
    exec i s = .next (primeSearch d rd (startOf i s) s) := by
  cases i with
  | ffpu | fnpu | ffpd | fnpd =>
    cases hi
    rfl
  | _ => cases hi

/-- A generator search checks for its context, then its operand, then searches. -/
theorem exec_generatorSearch {i : Instr} {rd : Reg} (hf : usesFactorPort i = true) (hd : destOf i = some rd)
    (s : State) : exec i s =
      .next (s.withContext (generatorSearch (rootCheck i s) fun s u => s.finish rd (rootResult i s u))) := by
  cases i with
  | fpr | fgen =>
    cases hd
    rfl
  | _ => cases hf

end Sys2Proof.Machine
end

section
/-! One step, said once: what the next event, or the engine's own turn, makes of a state (rules R53, R58, R81, R230). -/

namespace Sys2Proof.Machine

/-- Everything a host write can do: issue, write a data register, or change `OVR` at most. -/
theorem State.hostWrite_cases (s : State) (idx : Index) (v : Word) :
    (s.es = .idle ∧ s.hostWrite idx v = s.issue v) ∨ (s.es = .idle ∧ ∃ r, s.hostWrite idx v = s.setX r v) ∨
    ∃ ovr, s.hostWrite idx v = { s with ovr := ovr } := by
  by_cases hidle : s.es = .idle
  · by_cases h0 : idx = 0
    · exact .inl ⟨hidle, h0 ▸ s.hostWrite_cmd v hidle⟩
    · by_cases hreg : 8 ≤ idx.toNat ∧ idx.toNat < 16
      · exact .inr (.inl ⟨hidle, ⟨idx.toNat - 8, by omega⟩, s.hostWrite_reg idx v _ (by simp; omega) hidle⟩)
      · exact .inr (.inr ⟨s.ovr, s.hostWrite_ignored idx v h0 hreg⟩)
  · exact .inr (.inr ⟨_, s.hostWrite_of_not_idle idx v hidle⟩)

/-- What a step from `s` can answer. -/
inductive StepAnswer (s : State) : Result → Prop
  /-- an idle engine takes a command and runs it at once -/
  | begun (w : Word) (i : Instr) (l : List Event) (hidle : s.es = .idle) (hd : decode w = .ok i) :
      StepAnswer s (exec i ({ s with inputs := l }.accept w))
  /-- the engine begins or resumes the command in progress -/
  | ran (request : Option Request) (l : List Event) (hrun : s.es = .run request) :
      StepAnswer s (runEngine { s with inputs := l })
  /-- an idle engine's issue step -/
  | issued (w : Word) (l : List Event) (hidle : s.es = .idle) : StepAnswer s (.next ({ s with inputs := l }.issue w))
  /-- a write to a data register -/
  | wrote (r : Reg) (v : Word) (l : List Event) (hidle : s.es = .idle) :
      StepAnswer s (.next ({ s with inputs := l }.setX r v))
  /-- nothing but the timeline, `OVR` and the values read changes -/
  | kept (l : List Event) (ovr : Bool) (reads : List Word) :
      StepAnswer s (.next { s with inputs := l, ovr := ovr, reads := reads })
  /-- reset -/
  | reset (l : List Event) : StepAnswer s (.next { s with inputs := l }.resetEvent)

/-- The engine's turn runs the command in progress or does nothing. -/
theorem stepAnswer_engineTurn (s : State) (l : List Event) : StepAnswer s (engineTurn { s with inputs := l }) := by
  by_cases hrun : s.es = .run none
  · rw [engineTurn_of_run (s := { s with inputs := l }) hrun]
    exact .ran none l hrun
  · rw [engineTurn_of_not_run (s := { s with inputs := l }) hrun]
    exact .kept l s.ovr s.reads

/-- Every step is one of these, by the event at the head of the timeline. -/
theorem step_answer (s : State) : StepAnswer s (step s) := by
  cases hin : s.inputs with
  | nil =>
    rw [step_of_inputs_nil hin]
    exact stepAnswer_engineTurn s s.inputs
  | cons e rest =>
    rw [step_of_inputs_cons hin]
    cases e with
    | write idx v =>
      rcases State.hostWrite_cases { s with inputs := rest } idx v with ⟨hidle, h⟩ | ⟨hidle, r, h⟩ | ⟨ovr, h⟩ <;>
        rw [handle, h]
      · exact .issued v rest hidle
      · exact .wrote r v rest hidle
      · exact .kept rest ovr s.reads
    | command v =>
      by_cases hidle : s.es = .idle
      · cases hd : decode v with
        | ok i =>
          rw [handle, runCommand_ok (s := { s with inputs := rest }) hidle hd]
          exact .begun v i rest hidle hd
        | error reason =>
          rw [handle, runCommand_illegal (s := { s with inputs := rest }) hidle hd, ← State.issue_illegal _ hd]
          exact .issued v rest hidle
      · rw [handle, runCommand_dropped (s := { s with inputs := rest }) v hidle]
        exact .kept rest true s.reads
    | read idx => exact .kept rest s.ovr _
    | reset => exact .reset rest
    | engine => exact stepAnswer_engineTurn s rest
    | primeAnswer b =>
      rw [handle, primeArrives]
      split
      · next x hrun => exact .ran _ s.inputs hrun
      · exact .kept rest s.ovr s.reads
    | factorAnswer fs =>
      rw [handle, factorArrives]
      split
      · next m hrun => exact .ran _ s.inputs hrun
      · exact .kept rest s.ovr s.reads

end Sys2Proof.Machine
end

section
/-! What a command changes and what it leaves (rules R21, R95, R204), and which faults it can raise (rules R100, R202):
each is read off `exec_outcome`, the four ways a command leaves the machine. -/

namespace Sys2Proof.Machine

/-- A command has one answer, and it is one of the four of `Outcome`. -/
theorem outcome_of_exec {i : Instr} {s t : State} (h : exec i s = .next t) : Outcome i s t := by
  obtain ⟨t', ht', ho⟩ := exec_outcome i s
  rw [h] at ht'
  obtain rfl := Host.Outcome.next.inj ht'
  exact ho

/-- Settles O28, by the four ways a command leaves the machine. -/
theorem commandFrame : Obligations.CommandFrame := by
  intro i s t h
  cases outcome_of_exec h with
  | finished s' rd v hr hd _ =>
    obtain ⟨hshown, htaken, hsent, halone⟩ := hr
    simp only [State.finish_ctx, State.finish_cmd, State.finish_ovr, State.finish_reads, State.finish_cause,
      State.finish_fcmd, State.finish_inputs, State.finish_requests]
    refine ⟨fun r hne => ?_, fun _ => hshown.ctx, hshown.cmd, hshown.ovr, hshown.reads,
      fun _ => ⟨hshown.cause, hshown.fcmd⟩, nofun, htaken, hsent, fun hp hf => by rw [halone hp hf]; exact ⟨rfl, rfl⟩⟩
    have hrd : r ≠ rd := fun e => hne (e ▸ hd)
    rw [s'.finish_x_other rd v r hrd, State.x_congr s s' hshown.regs]
  | built rs1 v c hi hc =>
    exact ⟨fun _ _ => rfl, fun hne => absurd hi (hne rs1 v), rfl, rfl, rfl, fun _ => ⟨rfl, rfl⟩, nofun, ⟨[], rfl⟩,
      ⟨[], rfl⟩, fun _ _ => ⟨rfl, rfl⟩⟩
  | faulted s' code hr _ =>
    obtain ⟨hshown, htaken, hsent, halone⟩ := hr
    exact ⟨fun r _ => State.x_congr s _ hshown.regs r, fun _ => hshown.ctx, hshown.cmd, hshown.ovr, hshown.reads,
      fun hne => absurd rfl hne, fun _ => ⟨hshown.regs, hshown.ctx, hshown.done, hshown.cmd⟩, htaken, hsent,
      fun hp hf => by rw [halone hp hf]; exact ⟨rfl, rfl⟩⟩
  | waits _ r hr he _ _ _ =>
    obtain ⟨hshown, htaken, hsent, halone⟩ := hr
    have hrun : t.es ≠ .halted := by
      rw [he]
      nofun
    exact ⟨fun r _ => State.x_congr s t hshown.regs r, fun _ => hshown.ctx, hshown.cmd, hshown.ovr, hshown.reads,
      fun _ => ⟨hshown.cause, hshown.fcmd⟩, fun hh => absurd hh hrun, htaken, hsent,
      fun hp hf => by rw [halone hp hf]; exact ⟨rfl, rfl⟩⟩

/-! ### Faults -/

/-- A command that halts the engine does so with a cause it can raise. -/
theorem mayRaise_of_exec {i : Instr} {s t : State} (h : exec i s = .next t) (hh : t.es = .halted) :
    ∃ code, t.cause = causeCode code ∧ mayRaise i s code := by
  cases outcome_of_exec h with
  | finished | built => cases hh
  | faulted s' code _ hm => exact ⟨code, rfl, hm⟩
  | waits _ r _ he _ _ _ => rw [he] at hh; cases hh

/-- A command does not change `CMD`. -/
theorem cmd_of_exec {i : Instr} {s t : State} (h : exec i s = .next t) : t.cmd = s.cmd := by
  obtain ⟨_, _, hcmd, _⟩ := commandFrame i s t h
  exact hcmd

/-- The engine has halted for a value that is no command, or for the command in `CMD` with a cause that it can raise in
the state `s` (rule R202). -/
def HaltedRightly (s t : State) : Prop :=
  (t.cause = causeCode .illegalCmd ∧ ∃ reason, decode t.cmd = .error reason) ∨
  ∃ i code, decode t.cmd = .ok i ∧ t.cause = causeCode code ∧ mayRaise i s code

/-- A command that halts the engine does so rightly: `mayRaise` looks at the context only, so `s₀` may stand for `s`. -/
theorem haltedRightly_of_exec {i : Instr} {s₀ s t : State} (h : exec i s = .next t) (hd : decode s.cmd = .ok i)
    (hctx : s.ctx = s₀.ctx) (hh : t.es = .halted) : HaltedRightly s₀ t := by
  obtain ⟨code, hcause, hm⟩ := mayRaise_of_exec h hh
  rw [mayRaise, hctx] at hm
  exact .inr ⟨i, code, (cmd_of_exec h).symm ▸ hd, hcause, hm⟩

/-- An issue step that halts the engine does so rightly. -/
theorem haltedRightly_of_issue {s₀ s : State} {w : Word} (hctx : s.ctx = s₀.ctx) (hh : (s.issue w).es = .halted) :
    HaltedRightly s₀ (s.issue w) := by
  rcases s.issue_cases w with ⟨code, h, ⟨rfl, reason, hd⟩ | ⟨rfl, i, hd, hn, hv⟩⟩ | ⟨i, -, -, h⟩ <;> rw [h] at hh ⊢
  · exact .inl ⟨rfl, reason, hd⟩
  · exact .inr ⟨i, .noCtx, hd, rfl, .inl ⟨rfl, hn, hctx ▸ hv⟩⟩
  · cases hh

/-- A step that halts the engine does so rightly: only the issue step and a command that runs can halt it. -/
theorem haltedRightly_of_step {s t : State} (h : step s = .next t) (hs : s.es ≠ .halted) (hh : t.es = .halted) :
    HaltedRightly s t := by
  have hanswer := step_answer s
  rw [h] at hanswer
  generalize hnext : (Host.Outcome.next t : Result) = r at hanswer
  cases hanswer with
  | begun w i l hidle hd => exact haltedRightly_of_exec hnext.symm hd rfl hh
  | ran request l hrun =>
    unfold runEngine at hnext
    split at hnext
    · next i hd => exact haltedRightly_of_exec hnext.symm hd rfl hh
    · cases hnext
  | issued w l hidle =>
    cases hnext
    exact haltedRightly_of_issue rfl hh
  | wrote | kept =>
    cases hnext
    exact absurd hh hs
  | reset l =>
    cases hnext
    cases hh

/-- Settles O26: the outcome of `exec`, and of the step. -/
theorem whoRaisesWhat : Obligations.WhoRaisesWhat :=
  ⟨fun _ _ _ => mayRaise_of_exec, fun _ _ => haltedRightly_of_step⟩

/-! ### Commands without a context, and arithmetic with one -/

/-- Every command that needs a context checks for it before anything else (rule R81). -/
theorem exec_noCtx {i : Instr} {s : State} (hn : i.needsContext = true) (hv : s.ctx.valid = false) :
    exec i s = .next (s.fatal .noCtx) := by
  cases form_of i with
  | ctxinit => cases hn
  | arithmetic rd hn hf hd => rw [exec_arithmetic hn hf hd, State.withContext_missing s _ hv]
  | primeSearch d rd hnone => exact absurd hn (by simp [hnone])
  | generatorSearch rd hf hd => rw [exec_generatorSearch hf hd, State.withContext_missing s _ hv]

/-- Settles O25: the context check is the command's whole work. -/
theorem noContextTraps : Obligations.NoContextTraps := fun _ s _ hn hv =>
  faults_of_fatal (exec_noCtx hn hv) (SameShown.refl s) rfl rfl

/-- Settles O27: an arithmetic command with its context finishes, and so completes. -/
theorem arithmeticIsTotal : Obligations.ArithmeticIsTotal := by
  intro i s rd _ hv hn hf hd
  have h := exec_arithmetic hn hf hd s
  rw [State.withContext_valid s _ hv] at h
  exact ⟨_, completes_of_finish h⟩

end Sys2Proof.Machine
end

section
/-! The invariant of every reachable state (rules R22, R24, R26 to R28): it holds at reset, every step keeps it, and it
shuts out the model's one fault. -/

namespace Sys2Proof.Machine

/-! ### What a command needs of the state it runs in -/

/-- The invariant of a state in which the engine runs a command: no fault is recorded, `DONE` is cleared, `CMD` holds
the command, and an outstanding request is the command's own. -/
structure ReadyToRun (i : Instr) (s : State) : Prop where
  ctx : s.ctx.wellFormed
  done : s.done = false
  cause : s.cause = 0
  fcmd : s.fcmd = 0
  cmd : decode s.cmd = .ok i
  fits : s.fits i

/-- The command in progress in `RUN`, for the request outstanding, is one that fits it and has its context. -/
theorem State.inProgress_iff {s : State} {request : Option Request} (hrun : s.es = .run request) :
    s.inProgress request ↔
      ∃ i, decode s.cmd = .ok i ∧ (i.needsContext = true → s.ctx.valid = true) ∧ s.fits i := by
  unfold State.inProgress State.fits
  rw [hrun]
  match request with
  | none | some (.prime x) | some (.factor m) => rfl

/-- Whatever the command does, it leaves the invariant: the four ways of `Outcome`. -/
theorem inv_of_outcome {i : Instr} {s t : State} (hs : ReadyToRun i s) (ho : Outcome i s t) : t.Inv := by
  cases ho with
  | finished s' rd v hr _ _ =>
    obtain ⟨hshown, -, -, -⟩ := hr
    refine ⟨?_, fun _ => rfl, fun _ => ?_, nofun, nofun⟩
    · rw [State.finish_ctx, hshown.ctx]
      exact hs.ctx
    · rw [State.finish_cause, State.finish_fcmd, hshown.cause, hshown.fcmd]
      exact ⟨hs.cause, hs.fcmd⟩
  | built rs1 v c _ hc =>
    exact ⟨(buildContext_usable hc).2, fun _ => rfl, fun _ => ⟨hs.cause, hs.fcmd⟩, nofun, nofun⟩
  | faulted s' code hr _ =>
    obtain ⟨hshown, -, -, -⟩ := hr
    refine ⟨?_, fun hdone => ?_, fun hh => absurd rfl hh, fun _ => ⟨⟨code, rfl⟩, rfl⟩, nofun⟩
    · rw [State.fatal_ctx, hshown.ctx]
      exact hs.ctx
    · rw [State.fatal_done, hshown.done, hs.done] at hdone
      cases hdone
  | waits _ r hr he hf _ hv =>
    obtain ⟨hshown, -, -, -⟩ := hr
    refine ⟨hshown.ctx ▸ hs.ctx, fun hdone => ?_, fun _ => ⟨hshown.cause.trans hs.cause, hshown.fcmd.trans hs.fcmd⟩,
      fun hh => (nomatch he.symm.trans hh), fun request hrun => (State.inProgress_iff hrun).mpr ?_⟩
    · rw [hshown.done, hs.done] at hdone
      cases hdone
    · rw [hshown.cmd, hshown.ctx]
      exact ⟨i, hs.cmd, hv, hf hs.fits⟩

/-! ### The steps -/

section
variable {s : State} (h : s.Inv)
include h

/-- The timeline, `OVR` and the values read are not in the invariant. -/
theorem State.Inv.kept (l : List Event) (ovr : Bool) (reads : List Word) :
    ({ s with inputs := l, ovr := ovr, reads := reads } : State).Inv :=
  ⟨h.ctx, h.done, h.noFault, h.faulted, h.running⟩

/-- A data register of an idle engine is not in the invariant. -/
theorem State.Inv.setX (hidle : s.es = .idle) (r : Reg) (v : Word) : (s.setX r v).Inv :=
  ⟨h.ctx, h.done, h.noFault, h.faulted, fun _ hrun => nomatch hidle.symm.trans hrun⟩

/-- An idle engine that accepts a command is ready to run it. -/
theorem State.Inv.readyToRun_accept (hidle : s.es = .idle) {w : Word} {i : Instr} (hd : decode w = .ok i) :
    ReadyToRun i (s.accept w) := by
  obtain ⟨hcause, hfcmd⟩ := h.noFault (by simp [hidle])
  exact ⟨h.ctx, rfl, hcause, hfcmd, hd, State.fits_of_begins (.inl hidle) i⟩

/-- An engine in `RUN` has a command in `CMD` and is ready to run it. -/
theorem State.Inv.readyToRun_run {request : Option Request} (hrun : s.es = .run request) : ∃ i, ReadyToRun i s := by
  obtain ⟨hcause, hfcmd⟩ := h.noFault (by simp [hrun])
  obtain ⟨i, hd, -, hfits⟩ := (State.inProgress_iff hrun).mp (h.running request hrun)
  refine ⟨i, h.ctx, Bool.eq_false_iff.mpr fun hdone => ?_, hcause, hfcmd, hd, hfits⟩
  exact nomatch hrun.symm.trans (h.done hdone)

/-- The issue step of an idle engine: a fault recorded, or a command in progress with the context it needs. -/
theorem State.Inv.issue (hidle : s.es = .idle) (w : Word) : (s.issue w).Inv := by
  obtain ⟨hcause, hfcmd⟩ := h.noFault (by simp [hidle])
  rcases s.issue_cases w with ⟨code, hw, -⟩ | ⟨i, hd, hvalid, hw⟩ <;> rw [hw]
  · exact ⟨h.ctx, nofun, fun hh => absurd rfl hh, fun _ => ⟨⟨code, rfl⟩, rfl⟩, nofun⟩
  · refine ⟨h.ctx, nofun, fun _ => ⟨hcause, hfcmd⟩, nofun, fun request hrun => ?_⟩
    cases hrun
    exact ⟨i, hd, hvalid, trivial⟩

end

/-- The reset values meet the invariant, whatever the model's own fields hold. -/
theorem State.inv_resetEvent (s : State) : s.resetEvent.Inv :=
  ⟨rfl, nofun, fun _ => ⟨rfl, rfl⟩, nofun, nofun⟩

/-- Settles O18: reset is the reset event of the reset state. -/
theorem resetMeetsTheInvariant : Obligations.ResetMeetsTheInvariant := State.reset.inv_resetEvent

/-- Under the invariant the engine that runs its command has a next state, and keeps the invariant. -/
theorem State.Inv.runEngine {s : State} (h : s.Inv) {request : Option Request} (hrun : s.es = .run request) :
    ∃ t, runEngine s = .next t ∧ t.Inv := by
  obtain ⟨i, hready⟩ := h.readyToRun_run hrun
  obtain ⟨t, ht, ho⟩ := exec_outcome i s
  exact ⟨t, (runEngine_of_decode hready.cmd).trans ht, inv_of_outcome hready ho⟩

/-- From a state that meets the invariant a step has a next state, which meets it too. -/
theorem State.Inv.step {s : State} (h : s.Inv) : ∃ t, step s = .next t ∧ t.Inv := by
  have hpopped (l : List Event) : ({ s with inputs := l } : State).Inv := h.kept l s.ovr s.reads
  have hanswer := step_answer s
  generalize Machine.step s = r at hanswer ⊢
  cases hanswer with
  | begun w i l hidle hd =>
    obtain ⟨t, ht, ho⟩ := exec_outcome i ({ s with inputs := l }.accept w)
    exact ⟨t, ht, inv_of_outcome ((hpopped l).readyToRun_accept hidle hd) ho⟩
  | ran request l hrun => exact (hpopped l).runEngine hrun
  | issued w l hidle => exact ⟨_, rfl, (hpopped l).issue hidle w⟩
  | wrote r v l hidle => exact ⟨_, rfl, (hpopped l).setX hidle r v⟩
  | kept l ovr reads => exact ⟨_, rfl, h.kept l ovr reads⟩
  | reset l => exact ⟨_, rfl, State.inv_resetEvent _⟩

/-- Settles O19. -/
theorem everyStepKeepsTheInvariant : Obligations.EveryStepKeepsTheInvariant := by
  intro s t h hstep
  obtain ⟨t', ht', hinv⟩ := h.step
  obtain rfl := Host.Outcome.next.inj (hstep.symm.trans ht')
  exact hinv

/-- Settles O20. -/
theorem noStepStops : Obligations.NoStepStops := by
  intro s h
  obtain ⟨t, ht, -⟩ := h.step
  exact ⟨t, ht⟩

/-- Settles O21: `BUSY`, `DONE` and `FATAL` need `RUN`, `IDLE` and `HALTED`; outside `HALTED` no fault is recorded. -/
theorem statusFlagsExcludeEachOther : Obligations.StatusFlagsExcludeEachOther := by
  intro s h
  simp only [s.busy_iff, s.isFatal_iff]
  refine ⟨?_, ?_, ?_, fun hf => ?_⟩
  · rintro ⟨⟨r, hrun⟩, hdone⟩
    exact nomatch hrun.symm.trans (h.done hdone)
  · rintro ⟨hdone, hh⟩
    exact nomatch hh.symm.trans (h.done hdone)
  · rintro ⟨⟨r, hrun⟩, hh⟩
    exact nomatch hrun.symm.trans hh
  · obtain ⟨hcause, hfcmd⟩ := h.noFault fun hh => by simp [s.isFatal_iff.mpr hh] at hf
    refine ⟨?_, hfcmd⟩
    show s.cause.setWidth 64 = 0
    rw [hcause]
    rfl

end Sys2Proof.Machine
end

section
/-! The arithmetic commands' results: additive (rules R101 to R106), multiplicative (rules R120 to R131), powers and
inverses (rules R140 to R148). -/

namespace Sys2Proof.Machine

/-! ### From a result rule to the command -/

/-- A command that finishes with the result `some v` completes with `v`. -/
theorem completes_of_finish_some {i : Instr} {s : State} {rd : Reg} {r : Option Word} {v : Word}
    (hx : exec i s = .next (s.finish rd r)) (hr : r = some v) : Completes i s rd v := by
  subst hr
  exact completes_of_finish hx

/-- Where the result rule gives the number `x`, the destination holds it. -/
theorem State.resolve_toNat {s : State} {r : Option Word} {x : Nat} (hx : x < 2 ^ 64)
    (h : ∀ v : Word, v.toNat = x → r = some v) : (s.resolve r).toNat = x := by
  obtain ⟨v, hv⟩ := exists_word_toNat hx
  rw [h v hv, State.resolve_some, hv]

/-! ### `NEG`, `ADD`, `SUB` -/

/-- Settles O33. -/
theorem negateResult : Obligations.NegateResult := by
  intro s rd rs1 _ hvalid
  have hq := s.ctx.qNat_lt
  have ha := (s.x rs1).isLt
  obtain ⟨v, hv⟩ := exists_word_toNat (x := if (s.x rs1).toNat ≤ s.ctx.qNat then s.ctx.qNat - (s.x rs1).toNat
    else 2 ^ 64 + s.ctx.qNat - (s.x rs1).toNat) (by split <;> omega)
  have hneg : negf s.ctx (s.x rs1) = some v := negf_eq_some_iff.mpr hv
  exact ⟨v, completes_of_finish_some (exec_neg rd rs1 s hvalid) hneg,
    completes_of_finish_some (exec_negIp rs1 s hvalid) hneg, hv⟩

/-- One subtraction of `Q` is the remainder for sums below `2Q`. -/
theorem condSub_eq_mod {q r : Nat} (h : r < 2 * q) : (if q ≤ r then r - q else r) = r % q := by
  split
  · next hle => rw [Nat.mod_eq_sub_mod hle, Nat.mod_eq_of_lt (by omega)]
  · next hlt => rw [Nat.mod_eq_of_lt (by omega)]

/-- Settles O34. -/
theorem addResult : Obligations.AddResult := by
  intro s rd rs1 rs2 _ hvalid
  have hq := s.ctx.qNat_lt
  have hvalue (hsum : (s.x rs1).toNat + (s.x rs2).toNat < 2 ^ 64) :
      (s.resolve (addf s.ctx (s.x rs1) (s.x rs2))).toNat =
        if s.ctx.qNat ≤ (s.x rs1).toNat + (s.x rs2).toNat
          then (s.x rs1).toNat + (s.x rs2).toNat - s.ctx.qNat else (s.x rs1).toNat + (s.x rs2).toNat :=
    State.resolve_toNat (by split <;> omega) fun v hv => addf_eq_some_iff.mpr ⟨hsum, hv⟩
  refine ⟨_, completes_of_finish (exec_add rd rs1 rs2 s hvalid), completes_of_finish (exec_addIp rs1 rs2 s hvalid),
    hvalue, fun hsum => ?_⟩
  rw [hvalue (by omega), condSub_eq_mod hsum]

/-- Settles O35: the two defined cases of rule R105; residues fall in one of them. -/
theorem subResult : Obligations.SubResult := by
  intro s rd rs1 rs2 _ hvalid
  have hq := s.ctx.qNat_lt
  have ha := (s.x rs1).isLt
  have hdirect (hle : (s.x rs2).toNat ≤ (s.x rs1).toNat) :
      (s.resolve (subf s.ctx (s.x rs1) (s.x rs2))).toNat = (s.x rs1).toNat - (s.x rs2).toNat :=
    State.resolve_toNat (by omega) fun v hv => subf_eq_some_iff.mpr (.inl ⟨hle, hv⟩)
  have hlifted (hlt : (s.x rs1).toNat < (s.x rs2).toNat) (hfit : s.ctx.qNat + (s.x rs1).toNat < 2 ^ 64)
      (hle : (s.x rs2).toNat ≤ s.ctx.qNat + (s.x rs1).toNat) :
      (s.resolve (subf s.ctx (s.x rs1) (s.x rs2))).toNat = s.ctx.qNat + (s.x rs1).toNat - (s.x rs2).toNat :=
    State.resolve_toNat (by omega) fun v hv => subf_eq_some_iff.mpr (.inr ⟨hlt, hle, hfit, hv⟩)
  refine ⟨_, completes_of_finish (exec_sub rd rs1 rs2 s hvalid), completes_of_finish (exec_subIp rs1 rs2 s hvalid),
    hdirect, hlifted, fun ha hb => ?_⟩
  rcases le_or_gt (s.x rs2).toNat (s.x rs1).toNat with hle | hlt
  · rw [hdirect hle, Nat.cast_sub hle]
    exact ⟨by omega, Int.ModEq.refl _⟩
  · have hle : (s.x rs2).toNat ≤ s.ctx.qNat + (s.x rs1).toNat := by omega
    rw [hlifted hlt (by omega) hle, Nat.cast_sub hle, Nat.cast_add, add_sub_assoc]
    exact ⟨by omega, Int.add_modEq_left⟩

/-! ### The quotient estimate (rules R120 to R122) -/

section
variable {p q m s₁ s₂ : Nat}

/-- The estimate takes factors that are too small, so it is never above the quotient. -/
theorem estimate_le (hq : 0 < q) (hm : m * q ≤ 2 ^ (s₁ + s₂)) : p / 2 ^ s₁ * m / 2 ^ s₂ ≤ p / q := by
  rw [Nat.le_div_iff_mul_le hq]
  refine Nat.le_of_mul_le_mul_right ?_ (Nat.two_pow_pos (s₁ + s₂))
  calc p / 2 ^ s₁ * m / 2 ^ s₂ * q * 2 ^ (s₁ + s₂)
      = (p / 2 ^ s₁ * m / 2 ^ s₂ * 2 ^ s₂) * 2 ^ s₁ * q := by rw [Nat.pow_add]; ring
    _ ≤ (p / 2 ^ s₁ * m) * 2 ^ s₁ * q :=
        Nat.mul_le_mul_right _ (Nat.mul_le_mul_right _ (Nat.div_mul_le_self _ _))
    _ = (p / 2 ^ s₁ * 2 ^ s₁) * (m * q) := by ring
    _ ≤ p * 2 ^ (s₁ + s₂) := Nat.mul_le_mul (Nat.div_mul_le_self _ _) hm

/-- The estimate is at most two below the quotient while the two truncated factors together are at most twice the second
shift's power. -/
theorem le_estimate_add_two (hq : 0 < q) (hm : 2 ^ (s₁ + s₂) < (m + 1) * q)
    (hsum : p / 2 ^ s₁ + m ≤ 2 * 2 ^ s₂) : p / q ≤ p / 2 ^ s₁ * m / 2 ^ s₂ + 2 := by
  rw [← Nat.lt_succ_iff, Nat.div_lt_iff_lt_mul hq]
  set a := p / 2 ^ s₁
  have ha : p < (a + 1) * 2 ^ s₁ := (Nat.lt_mul_div_succ p (Nat.two_pow_pos _)).trans_eq (Nat.mul_comm _ _)
  have ht : a * m < (a * m / 2 ^ s₂ + 1) * 2 ^ s₂ :=
    (Nat.lt_mul_div_succ _ (Nat.two_pow_pos _)).trans_eq (Nat.mul_comm _ _)
  refine Nat.lt_of_mul_lt_mul_right (a := 2 ^ (s₁ + s₂)) ?_
  calc p * 2 ^ (s₁ + s₂)
      < ((a + 1) * 2 ^ s₁) * ((m + 1) * q) := Nat.mul_lt_mul_of_lt_of_lt ha hm
    _ = (a * m + (a + m) + 1) * (2 ^ s₁ * q) := by ring
    _ ≤ ((a * m / 2 ^ s₂ + 1) * 2 ^ s₂ + 2 * 2 ^ s₂) * (2 ^ s₁ * q) := Nat.mul_le_mul_right _ (by omega)
    _ = (a * m / 2 ^ s₂ + 2).succ * q * 2 ^ (s₁ + s₂) := by rw [Nat.pow_add, Nat.succ_eq_add_one]; ring

end

/-- The shifts of either variant add up to `2k`, and the second leaves room for both truncated factors (rule R121). -/
theorem shifts_bounds {k : Nat} (hk : 2 ≤ k) (v : Variant) :
    (shifts k v).1 + (shifts k v).2 = 2 * k ∧ k + 1 ≤ (shifts k v).2 := by
  cases v <;> simp only [shifts] <;> omega

section
variable {c : Context} (hc : c.usable)
include hc

/-- The quotient estimate of a usable context, with quotients for shifts. -/
theorem quotientEstimate_bounds {p : Nat} (hp : p < c.qNat ^ 2) :
    quotientEstimate c p ≤ p / c.qNat ∧ p / c.qNat ≤ quotientEstimate c p + 2 := by
  obtain ⟨htwo, hlogq, hmu⟩ := hc.numbers
  obtain ⟨hsum, hroom⟩ := shifts_bounds (two_le_bitlen htwo) c.var
  have hpos : 0 < c.qNat := by omega
  rw [quotientEstimate, hlogq, hmu, Nat.shiftRight_eq_div_pow, Nat.shiftRight_eq_div_pow, ← hsum]
  refine ⟨estimate_le hpos (Nat.div_mul_le_self _ _), le_estimate_add_two hpos ?_ ?_⟩
  · exact (Nat.lt_mul_div_succ _ hpos).trans_eq (Nat.mul_comm _ _)
  · have ha : p / 2 ^ (shifts (bitlen c.qNat) c.var).1 < 2 ^ (shifts (bitlen c.qNat) c.var).2 := by
      rw [Nat.div_lt_iff_lt_mul (Nat.two_pow_pos _), ← Nat.pow_add, Nat.add_comm, hsum, Nat.mul_comm, Nat.pow_mul]
      exact hp.trans (Nat.pow_lt_pow_left (lt_two_pow_bitlen _) two_ne_zero)
    have hm : 2 ^ (2 * bitlen c.qNat) / c.qNat ≤ 2 ^ (shifts (bitlen c.qNat) c.var).2 :=
      (reciprocal_le (bitlen_pos (by omega)) (two_pow_bitlen_pred_le (by omega))).trans
        (Nat.pow_le_pow_right two_pos hroom)
    rw [hsum]
    omega

/-- The candidate of rule R120 is exact: the estimate's multiple of `Q` is not above `p`. -/
theorem remainderCandidate_add {p : Nat} (hp : p < c.qNat ^ 2) :
    remainderCandidate c p + quotientEstimate c p * c.qNat = p :=
  Nat.sub_add_cancel ((Nat.mul_le_mul_right _ (quotientEstimate_bounds hc hp).1).trans (Nat.div_mul_le_self _ _))

/-- The candidate is the remainder and `Q` as often as the estimate is short of the quotient. -/
theorem remainderCandidate_eq {p : Nat} (hp : p < c.qNat ^ 2) :
    remainderCandidate c p = p % c.qNat + (p / c.qNat - quotientEstimate c p) * c.qNat := by
  have hle := Nat.mul_le_mul_right c.qNat (quotientEstimate_bounds hc hp).1
  have hadd := remainderCandidate_add hc hp
  have hdiv := Nat.mod_add_div' p c.qNat
  rw [Nat.sub_mul]
  omega

theorem remainderCandidate_lt {p : Nat} (hp : p < c.qNat ^ 2) : remainderCandidate c p < 3 * c.qNat := by
  have hshort : p / c.qNat - quotientEstimate c p ≤ 2 := Nat.sub_le_of_le_add (by
    rw [Nat.add_comm]
    exact (quotientEstimate_bounds hc hp).2)
  have hmul := Nat.mul_le_mul_right c.qNat hshort
  have hmod : p % c.qNat < c.qNat := Nat.mod_lt _ (by have := hc.two_le; omega)
  rw [remainderCandidate_eq hc hp]
  omega

theorem remainderCandidate_mod {p : Nat} (hp : p < c.qNat ^ 2) : remainderCandidate c p % c.qNat = p % c.qNat := by
  rw [remainderCandidate_eq hc hp, Nat.add_mul_mod_self_right, Nat.mod_mod]

end

/-- Settles O38. -/
theorem barrettEstimateWithinTwo : Obligations.BarrettEstimateWithinTwo := by
  intro c p hc hp
  obtain ⟨hle, hge⟩ := quotientEstimate_bounds hc hp
  have hlt := remainderCandidate_lt hc hp
  have hq := c.qNat_lt
  exact ⟨hle, hge, remainderCandidate_add hc hp, hlt, by omega, remainderCandidate_mod hc hp⟩

/-- Settles O39: `Q = 491` under variant A and `Q = 113` under variant B, both prime. -/
theorem barrettDeficitOfTwoOccurs : Obligations.BarrettDeficitOfTwoOccurs := by
  obtain ⟨a, ha, hqa, hlogqa, hmua, hvara, -⟩ :=
    buildContext_ok (q := 491) (v := .a) (by decide) (by decide)
  obtain ⟨b, hb, hqb, hlogqb, hmub, hvarb, -⟩ :=
    buildContext_ok (q := 113) (v := .b) (by decide) (by decide)
  refine ⟨⟨a, buildContext_usable ha, hvara, hqa, hqa ▸ (by norm_num : Nat.Prime 491), ?_⟩,
    ⟨b, buildContext_usable hb, hvarb, hqb, hqb ▸ (by norm_num : Nat.Prime 113), ?_⟩⟩
  · rw [quotientEstimate, hlogqa, hmua, hvara, hqa]
    decide
  · rw [quotientEstimate, hlogqb, hmub, hvarb, hqb]
    decide

/-! ### The corrections (rules R124, R125) -/

/-- One correction takes one `Q` off. -/
theorem condSub_add (q r k : Nat) : condSub q (r + (k + 1) * q) = r + k * q := by
  rw [condSub, if_pos (by rw [Nat.succ_mul]; omega), Nat.succ_mul]
  omega

/-- A residue is not corrected. -/
theorem condSub_of_lt {q r : Nat} (hr : r < q) : condSub q r = r := if_neg (Nat.not_le.mpr hr)

/-- Two corrections make the reduction exact, whichever of the three deficits the estimate has. -/
theorem barrett_two {c : Context} (hc : c.usable) {p : Nat} (hp : p < c.qNat ^ 2) :
    barrett .two c p = p % c.qNat := by
  have hlt := remainderCandidate_lt hc hp
  have hmod : p % c.qNat < c.qNat := Nat.mod_lt _ (by have := hc.two_le; omega)
  have heq := remainderCandidate_eq hc hp
  have hge := (quotientEstimate_bounds hc hp).2
  rw [barrett, correct, heq]
  obtain h | h | h : p / c.qNat - quotientEstimate c p = 0 ∨ p / c.qNat - quotientEstimate c p = 1 ∨
    p / c.qNat - quotientEstimate c p = 2 := by omega
  · rw [h, Nat.zero_mul, Nat.add_zero, condSub_of_lt hmod, condSub_of_lt hmod]
  · rw [h, condSub_add _ _ 0, Nat.zero_mul, Nat.add_zero, condSub_of_lt hmod]
  · rw [h, condSub_add _ _ 1, condSub_add _ _ 0, Nat.zero_mul, Nat.add_zero]

/-- Settles O40: the candidate by its deficit; only with a deficit of two can it leave 64 bits. -/
theorem barrettReductionResult : Obligations.BarrettReductionResult := by
  intro c p hc hp
  have hq := c.qNat_lt
  have hlt := remainderCandidate_lt hc hp
  have hmod : p % c.qNat < c.qNat := Nat.mod_lt _ (by have := hc.two_le; omega)
  have heq := remainderCandidate_eq hc hp
  have hone : barrett .one c p = condSub c.qNat (remainderCandidate c p % 2 ^ 64) := rfl
  refine ⟨barrett_two hc hp, fun h => ?_, fun h hfits => ?_, fun h hwide => ?_⟩
  · have hsmall : remainderCandidate c p < 2 * c.qNat := by
      have := Nat.mul_le_mul_right c.qNat (show p / c.qNat - quotientEstimate c p ≤ 1 by omega)
      omega
    rw [hone, Nat.mod_eq_of_lt (by omega), condSub, condSub_eq_mod hsmall, remainderCandidate_mod hc hp]
  · rw [show p / c.qNat - quotientEstimate c p = 2 by omega] at heq
    rw [hone, Nat.mod_eq_of_lt hfits, heq, condSub_add _ _ 1, Nat.one_mul]
  · rw [show p / c.qNat - quotientEstimate c p = 2 by omega] at heq
    have hcut : remainderCandidate c p % 2 ^ 64 = p % c.qNat + 2 * c.qNat - 2 ^ 64 := by
      rw [Nat.mod_eq_sub_mod hwide, Nat.mod_eq_of_lt (by omega), heq]
    rw [hone, hcut, condSub_of_lt (by omega)]
    omega

/-! ### `MUL`, `SQR` -/

/-- The product rule of a usable context: defined on residues, where it is the product modulo `Q`. -/
theorem mulf_eq_some_iff {c : Context} (hc : c.usable) {a b v : Word} :
    mulf c a b = some v ↔ a.toNat < c.qNat ∧ b.toNat < c.qNat ∧ v.toNat = a.toNat * b.toNat % c.qNat := by
  have hq := c.qNat_lt
  unfold mulf mulfWith
  split
  · simp only [reduceCtorEq, false_iff]
    omega
  · next hres =>
    have ha : a.toNat < c.qNat := by omega
    have hb : b.toNat < c.qNat := by omega
    have hprod : a.toNat * b.toNat < c.qNat ^ 2 := by
      rw [Nat.pow_two]
      exact Nat.mul_lt_mul_of_lt_of_lt ha hb
    have hmod : a.toNat * b.toNat % c.qNat < c.qNat := Nat.mod_lt _ (by omega)
    rw [Config.ncorr, barrett_two hc hprod, some_ofNat_eq_some_iff (by omega)]
    simp only [ha, hb, true_and]

/-- A product of residues is a residue. -/
theorem exists_mulf {c : Context} (hc : c.usable) {a b : Word} (ha : a.toNat < c.qNat) (hb : b.toNat < c.qNat) :
    ∃ v, mulf c a b = some v ∧ v.toNat = a.toNat * b.toNat % c.qNat ∧ v.toNat < c.qNat := by
  have hq := c.qNat_lt
  have hmod : a.toNat * b.toNat % c.qNat < c.qNat := Nat.mod_lt _ (by omega)
  obtain ⟨v, hv⟩ := exists_word_toNat (x := a.toNat * b.toNat % c.qNat) (by omega)
  exact ⟨v, (mulf_eq_some_iff hc).mpr ⟨ha, hb, hv⟩, hv, hv ▸ hmod⟩

/-- Settles O41. -/
theorem multiplyResult : Obligations.MultiplyResult := by
  intro s rd rs1 rs2 _ hc
  refine ⟨⟨_, completes_of_finish (exec_mul rd rs1 rs2 s hc.1), completes_of_finish (exec_mulIp rs1 rs2 s hc.1),
    fun ha hb => ?_⟩, ⟨_, completes_of_finish (exec_sqr rd rs1 s hc.1), completes_of_finish (exec_sqrIp rs1 s hc.1),
    fun ha => ?_⟩⟩
  · obtain ⟨v, hmul, hv, -⟩ := exists_mulf hc ha hb
    rw [hmul, State.resolve_some, hv]
  · obtain ⟨v, hmul, hv, -⟩ := exists_mulf hc ha ha
    rw [sqrf, hmul, State.resolve_some, hv, Nat.pow_two]

/-- Settles O42. -/
theorem multiplicationLaws : Obligations.MultiplicationLaws := by
  intro c a b hc ha hb
  have htwo := hc.two_le
  refine ⟨Option.ext fun v => ?_, (mulf_eq_some_iff hc).mpr ⟨ha, ?_, ?_⟩,
    (mulf_eq_some_iff hc).mpr ⟨ha, ?_, ?_⟩, rfl, ?_⟩
  · rw [mulf_eq_some_iff hc, mulf_eq_some_iff hc, Nat.mul_comm, and_left_comm]
  · exact htwo
  · rw [show (1 : Word).toNat = 1 from rfl, Nat.mul_one, Nat.mod_eq_of_lt ha]
  · exact Nat.lt_of_lt_of_le Nat.zero_lt_two htwo
  · exact (Nat.zero_mod _).symm
  · obtain ⟨v, hmul, -, hlt⟩ := exists_mulf hc ha hb
    exact ⟨v, hmul, hlt⟩

/-! ### Powers (rules R140 to R142) -/

/-- The two factors of the loop are residues. -/
def PowUnit.InContract (u : PowUnit) (q : Nat) : Prop := u.acc.toNat < q ∧ u.base.toNat < q

/-- What the loop still has to compute: `ACC * BASE^EXP mod Q`. -/
def PowUnit.value (u : PowUnit) (q : Nat) : Nat := u.acc.toNat * u.base.toNat ^ u.exp.toNat % q

/-- One bit of the exponent: the value stays, the exponent halves. -/
theorem powStep_spec {c : Context} (hc : c.usable) {u : PowUnit} (hu : u.InContract c.qNat) :
    ∃ u', powStep c u = some u' ∧ u'.InContract c.qNat ∧ u'.exp.toNat = u.exp.toNat / 2 ∧
      u'.value c.qNat = u.value c.qNat := by
  obtain ⟨hacc, hbase⟩ := hu
  obtain ⟨base, hsqr, hbase', hbaselt⟩ := exists_mulf hc hbase hbase
  have hhalf : (u.exp >>> 1).toNat = u.exp.toNat / 2 := by
    rw [BitVec.toNat_ushiftRight, Nat.shiftRight_eq_div_pow, Nat.pow_one]
  have hbit := Nat.div_add_mod u.exp.toNat 2
  rcases Nat.mod_two_eq_zero_or_one u.exp.toNat with hpar | hpar
  · refine ⟨⟨u.acc, base, u.exp >>> 1⟩, by simp [powStep, hpar, sqrf, hsqr], ⟨hacc, hbaselt⟩, hhalf, ?_⟩
    have hexp : u.exp.toNat = 2 * (u.exp.toNat / 2) := by omega
    simp only [PowUnit.value, hhalf, hbase']
    conv_rhs => rw [hexp, Nat.pow_mul, Nat.pow_two]
    exact Nat.ModEq.mul_left _ ((Nat.mod_modEq _ _).pow _)
  · obtain ⟨acc, hmul, hacc', hacclt⟩ := exists_mulf hc hacc hbase
    refine ⟨⟨acc, base, u.exp >>> 1⟩, by simp [powStep, hpar, sqrf, hsqr, hmul], ⟨hacclt, hbaselt⟩, hhalf, ?_⟩
    have hexp : u.exp.toNat = 2 * (u.exp.toNat / 2) + 1 := by omega
    simp only [PowUnit.value, hhalf, hbase', hacc']
    conv_rhs => rw [hexp, Nat.pow_succ', Nat.pow_mul, Nat.pow_two, ← Nat.mul_assoc]
    exact (Nat.mod_modEq _ _).mul ((Nat.mod_modEq _ _).pow _)

/-- With no exponent left the value is in `ACC`. -/
theorem PowUnit.value_of_exp_zero {u : PowUnit} {q : Nat} (hu : u.InContract q) (h : u.exp = 0) :
    u.value q = u.acc.toNat := by
  rw [PowUnit.value, h, show (0 : Word).toNat = 0 from rfl, Nat.pow_zero, Nat.mul_one, Nat.mod_eq_of_lt hu.1]

/-- With fuel for the exponent's bits the loop ends with its value in `ACC`. -/
theorem powLoop_spec {c : Context} (hc : c.usable) {n : Nat} {u : PowUnit} (hu : u.InContract c.qNat)
    (hn : u.exp.toNat < 2 ^ n) : ∃ u', powLoop c n u = some u' ∧ u'.acc.toNat = u.value c.qNat := by
  induction n generalizing u with
  | zero =>
    exact ⟨u, rfl, (PowUnit.value_of_exp_zero hu (BitVec.eq_of_toNat_eq (Nat.lt_one_iff.mp hn))).symm⟩
  | succ n ih =>
    rw [powLoop]
    split
    · next h0 => exact ⟨u, rfl, (PowUnit.value_of_exp_zero hu h0).symm⟩
    · obtain ⟨u₁, hstep, hu₁, hexp, hvalue⟩ := powStep_spec hc hu
      rw [hstep, Option.bind_some, ← hvalue]
      exact ih hu₁ (by rw [hexp]; omega)

/-- The power rule of a usable context on a residue: the power modulo `Q`, for every 64-bit exponent. -/
theorem powf_eq_some_iff {c : Context} (hc : c.usable) {a e v : Word} (ha : a.toNat < c.qNat) :
    powf c a e = some v ↔ v.toNat = a.toNat ^ e.toNat % c.qNat := by
  obtain ⟨u, hloop, hacc⟩ := powLoop_spec hc (n := 64) (u := ⟨1, a, e⟩) ⟨hc.two_le, ha⟩ e.isLt
  have hvalue : u.acc.toNat = a.toNat ^ e.toNat % c.qNat := hacc.trans (congrArg (· % c.qNat) (Nat.one_mul _))
  rw [powf, hloop, Option.map_some, Option.some_inj, ← BitVec.toNat_inj, hvalue, eq_comm]

/-- The exponent 0 gives 1, whatever the base. -/
theorem powf_zero (c : Context) (a : Word) : powf c a 0 = some 1 := rfl

/-- What a completed power holds, where the base is a residue. -/
theorem resolve_powf {s : State} (hc : s.ctx.usable) {a e : Word} (ha : a.toNat < s.ctx.qNat) :
    (s.resolve (powf s.ctx a e)).toNat = a.toNat ^ e.toNat % s.ctx.qNat := by
  have hq := s.ctx.qNat_lt
  have hmod : a.toNat ^ e.toNat % s.ctx.qNat < s.ctx.qNat := Nat.mod_lt _ (by omega)
  exact State.resolve_toNat (by omega) fun v => (powf_eq_some_iff hc ha).mpr

/-- Settles O44. -/
theorem powerResult : Obligations.PowerResult := by
  intro s rd rs1 rs2 _ hc
  refine ⟨_, completes_of_finish (exec_pow rd rs1 rs2 s hc.1), completes_of_finish (exec_powIp rs1 rs2 s hc.1),
    resolve_powf hc, fun h0 => ?_⟩
  rw [h0, powf_zero, State.resolve_some]

/-! ### Inverses (rules R144 to R148) -/

/-- The exponent `Q - 2` fits its 64-bit register. -/
theorem toNat_ofNat_sub (c : Context) (k : Nat) : (BitVec.ofNat 64 (c.qNat - k)).toNat = c.qNat - k := by
  have hq := c.qNat_lt
  rw [BitVec.toNat_ofNat, Nat.mod_eq_of_lt (by omega)]

/-- Fermat: modulo a prime the `(Q-2)`-th power of a nonzero residue is its inverse. -/
theorem mul_pow_sub_two_mod {q a : Nat} (hq : q.Prime) (ha : 0 < a) (haq : a < q) :
    a * (a ^ (q - 2) % q) % q = 1 := by
  have htwo := hq.two_le
  have hfermat : a ^ (q - 1) ≡ 1 [MOD q] := by
    rw [← Nat.totient_prime hq]
    exact Nat.ModEq.pow_totient (Nat.coprime_of_lt_prime ha.ne' haq hq).symm
  calc a * (a ^ (q - 2) % q) % q = a ^ (q - 2 + 1) % q := by rw [Nat.mul_mod_mod, Nat.pow_succ']
    _ = a ^ (q - 1) % q := by rw [show q - 2 + 1 = q - 1 by omega]
    _ = 1 % q := hfermat
    _ = 1 := Nat.mod_eq_of_lt htwo

/-- Settles O45: `INV` is `POW` with the exponent `Q - 2`, which is 0 for `Q = 2`. -/
theorem inverseResult : Obligations.InverseResult := by
  intro s rd rs1 _ hc
  have htwo := hc.two_le
  have hpow (ha : (s.x rs1).toNat < s.ctx.qNat) : (s.resolve (invf s.ctx (s.x rs1))).toNat =
      (s.x rs1).toNat ^ (s.ctx.qNat - 2) % s.ctx.qNat := by
    rw [invf, resolve_powf hc ha, toNat_ofNat_sub]
  refine ⟨_, completes_of_finish (exec_inv rd rs1 s hc.1), completes_of_finish (exec_invIp rs1 s hc.1), hpow,
    fun hprime hpos ha => ?_, fun h0 hthree => BitVec.eq_of_toNat_eq ?_, fun htwo => ?_⟩
  · rw [hpow ha, mul_pow_sub_two_mod hprime hpos ha]
  · have hzero : (s.x rs1).toNat = 0 := by rw [h0]; rfl
    rw [hpow (by omega), hzero, Nat.zero_pow (by omega)]
    exact Nat.zero_mod _
  · rw [invf, htwo]
    exact congrArg s.resolve (powf_zero s.ctx (s.x rs1))

end Sys2Proof.Machine
end

section
/-! The prime searches (rules R160 to R169): where a search stands after its first answers, and what the next answer,
or none, makes of it. -/

namespace Sys2Proof.Machine

/-! ### One answer -/

/-- The answer true ends the search with `CAND`. -/
theorem searchLoop_true (d : Direction) (rd : Reg) (s : State) (rest : List Event) :
    searchLoop d rd s (.primeAnswer true :: rest) = { s with inputs := rest }.finish rd (some s.search.cand) := rfl

/-- The answer false moves the search one step on. -/
theorem searchLoop_false_ok {d : Direction} (rd : Reg) {s : State} {cand : Nat} (rest : List Event)
    (h : moveCand d s.search.cand.toNat s.search.step.toNat = .ok cand) :
    searchLoop d rd s (.primeAnswer false :: rest) =
      searchLoop d rd ((s.setCand cand).ask (.prime (BitVec.ofNat 64 cand))) rest := by
  simp only [searchLoop, h]

/-- The answer false where there is no further candidate raises the fault. -/
theorem searchLoop_false_error {d : Direction} (rd : Reg) {s : State} {code : FatalCode} (rest : List Event)
    (h : moveCand d s.search.cand.toNat s.search.step.toNat = .error code) :
    searchLoop d rd s (.primeAnswer false :: rest) = { s with inputs := rest }.fatal code := by
  simp only [searchLoop, h]

/-! ### After the first answers false -/

/-- Taking events off the timeline shows nowhere else. -/
theorem SameShown.inputs {s t : State} (h : SameShown s t) (rest : List Event) :
    SameShown s { t with inputs := rest } :=
  h.trans ((SearchRan.refl t).inputs rest).shown

/-- A search that stands at a member of its progression inside the range holds it in `CAND` uncut. -/
theorem StandsAt.cand_toNat {d : Direction} {first step j : Nat} {base : List Request} {s : State}
    (h : StandsAt d first step j base s) (hr : inRange d first step j) :
    s.search.cand.toNat = candidate d first step j := by
  rw [h.cand, BitVec.toNat_ofNat, Nat.mod_eq_of_lt (candidate_lt hr)]

/-- The request of a search that stands at a member of its progression is for that member. -/
theorem StandsAt.es_candidate {d : Direction} {first step j : Nat} {base : List Request} {s : State}
    (h : StandsAt d first step j base s) :
    s.es = .run (some (.prime (BitVec.ofNat 64 (candidate d first step j)))) := by
  rw [h.es, h.cand]

section
variable {i : Instr} {s : State} {d : Direction} {rd : Reg} {first step k : Nat}

/-- A search whose first `k` candidates are answered false stands at the next one. -/
theorem exec_search_falses (hb : s.begins) (hs : SearchStarts i s d rd first step) (hr : inRange d first step k)
    {more : List Event} (hin : s.inputs = List.replicate k (.primeAnswer false) ++ more) :
    ∃ s', exec i s = .next (searchLoop d rd s' more) ∧ StandsAt d first step k s.requests s' ∧ SameShown s s' := by
  obtain ⟨hexec, hstep⟩ := exec_search hs hb
  obtain ⟨s', hloop, hstands, hshown⟩ := searchLoop_falses d rd first step s.requests more k 0
    (beginSearch s ⟨first, step⟩) (beginSearch_standsAt s d first step hstep) (by rwa [Nat.zero_add])
  rw [Nat.zero_add] at hstands
  exact ⟨s', by rw [hexec, hin, hloop], hstands, (beginSearch_shown s _).trans hshown⟩

/-- Settles O46: the search stands at its `k`-th candidate when the answer true comes. -/
theorem primeSearchCompletes : Obligations.PrimeSearchCompletes := by
  intro i s d rd first step k rest hb hs hr hin
  obtain ⟨s', hexec, hstands, hshown⟩ := exec_search_falses hb hs hr hin
  rw [searchLoop_true] at hexec
  rw [← hstands.cand]
  exact completesWith_of_finish hexec (hshown.inputs rest) rfl hstands.requests

/-- Settles O47: it stands there, and waits. -/
theorem primeSearchWaits : Obligations.PrimeSearchWaits := by
  intro i s d rd first step k rest hb hs hr hin hnone
  obtain ⟨s', hexec, hstands, hshown⟩ := exec_search_falses hb hs hr hin
  rw [searchLoop_waits d rd s' rest hnone] at hexec
  exact waits_of_run hexec hstands.es_candidate (hshown.inputs rest) rfl hstands.requests

/-- Settles O48: it stands at its last representable candidate when one more answer false comes. -/
theorem primeSearchRunsOutOfRange : Obligations.PrimeSearchRunsOutOfRange := by
  intro i s d rd first step k rest hb hs hr hend hin
  rw [List.replicate_succ', List.append_assoc] at hin
  obtain ⟨s', hexec, hstands, hshown⟩ := exec_search_falses hb hs hr hin
  have hmove : moveCand d s'.search.cand.toNat s'.search.step.toNat = .error .searchRange := by
    rw [hstands.cand_toNat hr, hstands.stepReg]
    exact moveCand_outOfRange hr hend
  rw [List.singleton_append, searchLoop_false_error rd rest hmove] at hexec
  exact faults_of_fatal hexec (hshown.inputs rest) rfl hstands.requests

end

/-! ### The checks at the start (rule R161) -/

/-- A check fails, or what follows it does. -/
theorem stepf_bind_error {α : Type} {n : Word} {f : Nat → Except FatalCode α}
    (h : 2 ^ 64 ≤ 2 * n.toNat ∨ f (2 * n.toNat) = .error .searchRange) : (stepf n >>= f) = .error .searchRange := by
  unfold stepf
  split
  · rfl
  · next hn => exact h.resolve_left hn

theorem basef_bind_error {α : Type} {u : Word} {f : Nat → Except FatalCode α}
    (h : 64 ≤ u.toNat ∨ f (2 ^ u.toNat + 1) = .error .searchRange) : (basef u >>= f) = .error .searchRange := by
  unfold basef
  split
  · rfl
  · next hu => exact h.resolve_left hu

theorem moveCand_bind_error {α : Type} {d : Direction} {cand step : Nat} {f : Nat → Except FatalCode α}
    (h : leavesRange d cand step) : (moveCand d cand step >>= f) = .error .searchRange := by
  rw [moveCand_leavesRange h]
  rfl

/-- A search whose start fails raises the fault before any request. -/
theorem faults_of_start {i : Instr} {s : State} {d : Direction} {rd : Reg} {start : Except FatalCode Start}
    (hx : exec i s = .next (primeSearch d rd start s)) (hb : s.begins) (hstart : start = .error .searchRange) :
    Faults i s .searchRange s.inputs [] := by
  rw [hstart, State.primeSearch_begins hb] at hx
  exact faults_of_fatal hx (SameShown.refl s) rfl rfl

/-- Settles O49: the checks of each search in the order of its rule. -/
theorem primeSearchStartChecks : Obligations.PrimeSearchStartChecks := by
  intro s rd rs1 rs2 hb
  refine ⟨fun h => faults_of_start rfl hb ?_, fun h => faults_of_start rfl hb ?_, fun h => faults_of_start rfl hb ?_,
    fun h => faults_of_start rfl hb ?_⟩
  · exact stepf_bind_error (h.imp_right fun hu => basef_bind_error (.inl hu))
  · exact stepf_bind_error (h.imp_right fun hsum => moveCand_bind_error (d := .up) hsum)
  · exact stepf_bind_error (h.imp_right fun h => basef_bind_error (h.imp_right (moveCand_bind_error (d := .down))))
  · exact stepf_bind_error (h.imp_right (moveCand_bind_error (d := .down)))

/-! ### An honest collaborator (rule R168) -/

section
variable (isPrime : Word → Bool) (d : Direction) (first step : Nat)

/-- The collaborator's answer to the `j`-th request of a search. -/
def answerAt (j : Nat) : Bool := isPrime (BitVec.ofNat 64 (candidate d first step j))

/-- The answers to `k + 1` requests are those to `k`, then one more. -/
theorem answersOf_succ (k : Nat) (rest : List Event) : answersOf isPrime d first step (k + 1) rest =
    answersOf isPrime d first step k (.primeAnswer (answerAt isPrime d first step k) :: rest) := by
  rw [answersOf, List.range_succ, List.map_append, List.append_assoc]
  rfl

/-- More answers are the first ones with others after them. -/
theorem exists_answersOf_add (k r : Nat) (rest : List Event) :
    ∃ more, answersOf isPrime d first step (k + r) rest = answersOf isPrime d first step k more := by
  induction r generalizing rest with
  | zero => exact ⟨rest, rfl⟩
  | succ r ih =>
    rw [← Nat.add_assoc, answersOf_succ]
    exact ih _

variable {isPrime d first step}

/-- While the collaborator says no, its answers are all false. -/
theorem answersOf_falses {k : Nat} (h : ∀ j < k, answerAt isPrime d first step j = false) (rest : List Event) :
    answersOf isPrime d first step k rest = List.replicate k (.primeAnswer false) ++ rest := by
  induction k generalizing rest with
  | zero => rfl
  | succ k ih =>
    rw [answersOf_succ, ih (fun j hj => h j (Nat.lt_succ_of_lt hj)), h k (Nat.lt_succ_self k), List.replicate_succ',
      List.append_assoc, List.singleton_append]

/-- Honest answers tell the primes of the progression. -/
theorem answerAt_iff (hp : PrimalityHonest isPrime) {j : Nat} (hr : inRange d first step j) :
    answerAt isPrime d first step j = true ↔ (candidate d first step j).Prime := by
  rw [answerAt, hp, BitVec.toNat_ofNat, Nat.mod_eq_of_lt (candidate_lt hr)]

/-- The members of a progression are congruent modulo its step. -/
theorem candidate_modEq {k : Nat} (hr : inRange d first step k) : candidate d first step k ≡ first [MOD step] := by
  cases d with
  | up => exact Nat.add_mul_mod_self_right first k step
  | down =>
    have hle : step * k ≤ first := Nat.mul_comm k step ▸ hr.1
    show (first - k * step) % step = first % step
    rw [Nat.mul_comm, Nat.sub_mul_mod hle]

end

/-- No answer of the PRIME port in a timeline, none next on it. -/
theorem primeAnswerNext_of_forall {rest : List Event} (h : ∀ e ∈ rest, primeAnswerNext [e] = false) :
    primeAnswerNext rest = false := by
  cases rest with
  | nil => rfl
  | cons e rest =>
    have he := h e List.mem_cons_self
    cases e with
    | primeAnswer b => cases he
    | write | command | read | reset | engine | factorAnswer => rfl

section
variable {i : Instr} {s t : State} {d : Direction} {rd : Reg} {first step m : Nat} {rest : List Event}

/-- A search all of whose answers are false does not complete: it waits, or it runs out of range. -/
theorem not_idle_of_falses (hb : s.begins) (hs : SearchStarts i s d rd first step) (hr : inRange d first step m)
    (hin : s.inputs = List.replicate (m + 1) (.primeAnswer false) ++ rest) (hnone : primeAnswerNext rest = false)
    (hexec : exec i s = .next t) : t.es ≠ .idle := by
  intro hidle
  by_cases hr' : inRange d first step (m + 1)
  · obtain ⟨t', ht', hes, -⟩ := primeSearchWaits i s d rd first step (m + 1) rest hb hs hr' hin hnone
    obtain rfl := Host.Outcome.next.inj (hexec.symm.trans ht')
    exact nomatch hidle.symm.trans hes
  · obtain ⟨t', ht', hes, -⟩ := primeSearchRunsOutOfRange i s d rd first step m rest hb hs hr hr' hin
    obtain rfl := Host.Outcome.next.inj (hexec.symm.trans ht')
    exact nomatch hidle.symm.trans hes

end

/-- Settles O50: a completed search has met an answer true; the first one is for the prime it holds, and the answers
before it were for composites. -/
theorem honestSearchFindsTheFirstPrime : Obligations.HonestSearchFindsTheFirstPrime := by
  intro isPrime hp i s t d rd first step m rest hb hs hr hin hexec hidle hrest
  by_cases hyes : ∃ k, k ≤ m ∧ answerAt isPrime d first step k = true
  · obtain ⟨hkm, hk⟩ := Nat.find_spec hyes
    generalize hfind : Nat.find hyes = k at hkm hk
    have hbefore (j : Nat) (hj : j < k) : answerAt isPrime d first step j = false := by
      have := Nat.find_min hyes (hfind ▸ hj)
      simpa [show j ≤ m by omega] using this
    obtain ⟨more, hmore⟩ := exists_answersOf_add isPrime d first step (k + 1) (m - k) rest
    rw [show k + 1 + (m - k) = m + 1 by omega, answersOf_succ isPrime d first step k, hk,
      answersOf_falses hbefore] at hmore
    obtain ⟨t', ht', hx, -⟩ :=
      primeSearchCompletes i s d rd first step k more hb hs (inRange_mono hr hkm) (hin.trans hmore)
    obtain rfl := Host.Outcome.next.inj (hexec.symm.trans ht')
    have hvalue : (t.x rd).toNat = candidate d first step k := by
      rw [hx, BitVec.toNat_ofNat, Nat.mod_eq_of_lt (candidate_lt (inRange_mono hr hkm))]
    rw [hvalue]
    refine ⟨(answerAt_iff hp (inRange_mono hr hkm)).mp hk, candidate_modEq (inRange_mono hr hkm), k, hkm, rfl,
      fun j hj hprime => ?_⟩
    have := (answerAt_iff hp (inRange_mono hr (by omega))).mpr hprime
    simp [hbefore j hj] at this
  · have hno (j : Nat) (hj : j < m + 1) : answerAt isPrime d first step j = false :=
      Bool.eq_false_iff.mpr fun h => hyes ⟨j, Nat.lt_succ_iff.mp hj, h⟩
    rw [answersOf_falses hno] at hin
    exact absurd hidle (not_idle_of_falses hb hs hr hin (primeAnswerNext_of_forall hrest) hexec)

/-! ### Termination (rule R169) -/

/-- The command has completed or raised `SEARCH_RANGE`. -/
def SearchEnded (t : State) : Prop := t.es = .idle ∨ (t.es = .halted ∧ t.cause = causeCode .searchRange)

/-- A progression that moves runs out of the range within `2^64 / step` members. -/
theorem not_inRange {d : Direction} {first step j : Nat} (h : 2 ^ 64 ≤ j * step) : ¬ inRange d first step j := by
  cases d with
  | up => exact fun hr : first + j * step < 2 ^ 64 => by omega
  | down => exact fun ⟨hle, hlt⟩ => by omega

/-- With an answer for every member that the range has room for, the search ends. -/
theorem searchLoop_ends {d : Direction} {rd : Reg} {first step : Nat} {base : List Request} (answers : List Bool)
    {j : Nat} {s : State} (hs : StandsAt d first step j base s) (hr : inRange d first step j)
    (hroom : 2 ^ 64 ≤ (j + answers.length) * step) :
    SearchEnded (searchLoop d rd s (answers.map Event.primeAnswer)) := by
  induction answers generalizing j s with
  | nil => exact absurd hr (not_inRange hroom)
  | cons b answers ih =>
    rw [List.map_cons]
    cases b with
    | true => exact .inl rfl
    | false =>
      by_cases hr' : inRange d first step (j + 1)
      · obtain ⟨s', hloop, hs', -⟩ :=
          searchLoop_falses d rd first step base (answers.map Event.primeAnswer) 1 j s hs hr'
        rw [List.replicate_one, List.singleton_append] at hloop
        rw [hloop]
        exact ih hs' hr' (by rwa [Nat.add_assoc, Nat.add_comm 1, ← List.length_cons])
      · have hmove : moveCand d s.search.cand.toNat s.search.step.toNat = .error .searchRange := by
          rw [hs.cand_toNat hr, hs.stepReg]
          exact moveCand_outOfRange hr hr'
        rw [searchLoop_false_error rd _ hmove]
        exact .inr ⟨rfl, rfl⟩

/-- The first member of a progression is in the range: the checks of rule R161 have passed. -/
theorem SearchStarts.inRange_zero {i : Instr} {s : State} {d : Direction} {rd : Reg} {first step : Nat}
    (h : SearchStarts i s d rd first step) : inRange d first step 0 := by
  have hbase {u : Nat} (hu : u < 64) : 2 ^ u + 1 < 2 ^ 64 := by
    have := Nat.pow_le_pow_right two_pos (Nat.le_sub_one_of_lt hu)
    omega
  cases h with
  | ffpu => next hn hu => simpa [inRange] using hbase hu
  | fnpu => next hn hu => simpa [inRange] using hu
  | ffpd => next hn hu hb => exact ⟨by omega, by have := hbase hu; omega⟩
  | fnpd => next rs1 rs2 hn hu => exact ⟨by omega, by have := (s.x rs1).isLt; omega⟩

/-- A progression with step 0 stays in the range and at its first member. -/
theorem inRange_step_zero {d : Direction} {first : Nat} (k : Nat) (h : inRange d first 0 0) : inRange d first 0 k := by
  cases d <;> simpa [inRange] using h

theorem candidate_step_zero (d : Direction) (first k : Nat) : candidate d first 0 k = first := by
  cases d <;> simp [candidate]

/-- Settles O51. -/
theorem primeSearchTermination : Obligations.PrimeSearchTermination := by
  intro i s d rd first step m hb hs
  refine ⟨fun answers _ hroom hin => ?_, fun h0 hin => ?_⟩
  · obtain ⟨hexec, hstep⟩ := exec_search hs hb
    rw [hin] at hexec
    exact ⟨_, hexec, searchLoop_ends answers (beginSearch_standsAt s d first step hstep) hs.inRange_zero
      (by rwa [Nat.zero_add])⟩
  · subst h0
    obtain ⟨t, hexec, hes, -, -, hregs, -, -, -, hdone, -⟩ := primeSearchWaits i s d rd first 0 m [] hb hs
      (inRange_step_zero m hs.inRange_zero) (by rw [hin, List.append_nil]) rfl
    rw [candidate_step_zero] at hes
    exact ⟨t, hexec, hes, hregs, hdone⟩

/-! ### A search that waits (rules R34, R248) -/

/-- The answer to the request outstanding lets the engine run its command. -/
theorem step_answer_of_run {s : State} {i : Instr} {r : Request} {e : Event} (rest : List Event)
    (hrun : s.es = .run (some r)) (hd : decode s.cmd = .ok i) (he : e.answers r = true) :
    step { s with inputs := e :: rest } = exec i { s with inputs := e :: rest } := by
  rw [step_of_inputs_cons rfl, ← runEngine_of_decode (s := { s with inputs := e :: rest }) hd]
  cases e with
  | write | command | read | reset | engine => cases he
  | primeAnswer b =>
    cases r with
    | prime x => simp only [handle, primeArrives, hrun]
    | factor m => cases he
  | factorAnswer fs =>
    cases r with
    | prime x => cases he
    | factor m => simp only [handle, factorArrives, hrun]

/-- A waiting prime search goes on with the answer. -/
theorem step_primeAnswer {s : State} {i : Instr} {d : Direction} {rd : Reg} {x : Word}
    (hrun : s.es = .run (some (.prime x))) (hd : decode s.cmd = .ok i) (hi : primeSearchOf i = some (d, rd)) (b : Bool)
    (rest : List Event) :
    step { s with inputs := .primeAnswer b :: rest } = .next (searchLoop d rd s (.primeAnswer b :: rest)) := by
  rw [step_answer_of_run rest hrun hd rfl, ← searchLoop_inputs d rd s (.primeAnswer b :: rest),
    exec_resumed (s := { s with inputs := .primeAnswer b :: rest }) hi hrun]

/-- The candidate one step on, and its request: the search stands there once the events that follow are its timeline. -/
theorem standingAt_eq (s : State) (c : Nat) (rest : List Event) : s.standingAt c rest =
    { (s.setCand c).ask (.prime (BitVec.ofNat 64 c)) with inputs := rest } := rfl

/-- Going on from a candidate: a step where its answer is next on the timeline, waiting where it is not. -/
theorem searchLoop_standingAt {s : State} {i : Instr} {d : Direction} {rd : Reg} (hd : decode s.cmd = .ok i)
    (hi : primeSearchOf i = some (d, rd)) (c : Nat) (rest : List Event) :
    .next (searchLoop d rd ((s.setCand c).ask (.prime (BitVec.ofNat 64 c))) rest) =
      if primeAnswerNext rest then step (s.standingAt c rest) else .next (s.standingAt c rest) := by
  rw [standingAt_eq]
  split
  · next hnext =>
    cases rest with
    | nil => cases hnext
    | cons e rest =>
      cases e with
      | primeAnswer b => exact (step_primeAnswer (s := (s.setCand c).ask _) rfl hd hi b rest).symm
      | write | command | read | reset | engine | factorAnswer => cases hnext
  · next hnone => rw [searchLoop_waits d rd _ rest (Bool.eq_false_iff.mpr hnone)]

/-- Only a read gives the host a value. -/
theorem Event.valuesRead_of_not_read {e : Event} (s : State) (h : ∀ idx, e ≠ .read idx) : e.valuesRead s = [] := by
  cases e with
  | read idx => exact absurd rfl (h idx)
  | write | command | reset | engine | primeAnswer | factorAnswer => rfl

/-- Settles O52: the answer resumes the search, and nothing else reaches a command whose request is outstanding. -/
theorem waitingSearchResumes : Obligations.WaitingSearchResumes := by
  refine ⟨fun s i d rd rest hrun hd hi => ⟨?_, fun c hc => ?_, fun hend => ?_⟩,
    fun s r rest hrun => ⟨fun idx => hostReadHasNoSideEffect s idx rest, fun e he hread => ?_, ?_, ?_, fun b hb => ?_,
      fun fs hfs => ?_⟩⟩
  · refine ⟨_, step_primeAnswer hrun hd hi true rest, State.finish_x_same _ _ _, rfl, rfl, State.finish_inputs _ _ _,
      State.finish_requests _ _ _, ?_⟩
    have h := State.finish_same { s with inputs := rest } rd (some s.search.cand)
    exact ⟨h.regs, h.ctx, h.cmd, h.ovr, h.cause, h.fcmd, h.reads⟩
  · rw [step_primeAnswer hrun hd hi, searchLoop_false_ok rd rest (moveCand_stepsTo hc)]
    exact searchLoop_standingAt hd hi c rest
  · rw [step_primeAnswer hrun hd hi, searchLoop_false_error rd rest (moveCand_leavesRange hend)]
    exact ⟨_, rfl, rfl, rfl, rfl, rfl, rfl, rfl, rfl, rfl, rfl, rfl, rfl⟩
  · rw [step_of_inputs_cons rfl, handle_hostAccess_of_not_idle (s := { s with inputs := _ }) rest he (by simp [hrun]),
      Event.valuesRead_of_not_read _ hread]
    rfl
  · exact (step_engine s rest).trans (engineTurn_of_not_run (s := { s with inputs := rest }) (by simp [hrun]))
  · exact (step_of_inputs_nil rfl).trans (engineTurn_of_not_run (s := { s with inputs := [] }) (by simp [hrun]))
  · refine step_primeAnswer_discarded (fun x hx => ?_) b rest
    obtain rfl : r = .prime x := by simpa [hrun] using hx
    cases hb
  · refine step_factorAnswer_discarded (fun m hm => ?_) fs rest
    obtain rfl : r = .factor m := by simpa [hrun] using hm
    cases hfs

end Sys2Proof.Machine
end

section
/-! What no command but `CTXINIT` reads or writes, it carries along: changing such a field before the command is
changing it after. The Barrett variant is one (rule R130), the record of requests another. -/

namespace Sys2Proof.Machine

/-! ### Contexts that compute the same -/

/-- Two contexts of which no result rule tells one from the other. -/
structure SameArithmetic (c c' : Context) : Prop where
  valid : c'.valid = c.valid
  qNat : c'.qNat = c.qNat
  mulf : mulf c' = mulf c

section
variable {c c' : Context} (h : SameArithmetic c c')
include h

theorem SameArithmetic.negf : negf c' = negf c := by
  funext a
  simp only [Machine.negf, h.qNat]

theorem SameArithmetic.addf : addf c' = addf c := by
  funext a b
  simp only [Machine.addf, h.qNat]

theorem SameArithmetic.subf : subf c' = subf c := by
  funext a b
  simp only [Machine.subf, h.qNat]

theorem SameArithmetic.sqrf : sqrf c' = sqrf c := by
  funext a
  simp only [Machine.sqrf, h.mulf]

theorem SameArithmetic.powLoop (n : Nat) (u : PowUnit) : powLoop c' n u = powLoop c n u := by
  induction n generalizing u with
  | zero => rfl
  | succ n ih => simp only [Machine.powLoop, powStep, h.mulf, h.sqrf, funext ih]

theorem SameArithmetic.powf : powf c' = powf c := by
  funext a e
  simp only [Machine.powf, h.powLoop]

theorem SameArithmetic.invf : invf c' = invf c := by
  funext a
  simp only [Machine.invf, h.powf, h.qNat]

theorem SameArithmetic.accepts : accepts c' = accepts c := by
  funext u
  rw [Machine.accepts, h.powf]
  rfl

theorem SameArithmetic.rootLoop (n : Nat) (u : SearchUnit) : rootLoop c' n u = rootLoop c n u := by
  induction n generalizing u with
  | zero => rfl
  | succ n ih => simp only [Machine.rootLoop, h.accepts, h.qNat, ih]

theorem SameArithmetic.primitiveRoot : primitiveRoot c' = primitiveRoot c := by
  funext u
  simp only [Machine.primitiveRoot, h.qNat, h.rootLoop]

end

/-! ### What the rules of a command read of the state -/

section
variable {s t : State} (hregs : t.regs = s.regs)
include hregs

theorem startOf_congr (i : Instr) : startOf i t = startOf i s := by
  cases i <;> simp only [startOf, State.x_congr s t hregs]

theorem rootCheck_congr (i : Instr) : rootCheck i t = rootCheck i s := by
  cases i <;> simp only [rootCheck, State.x_congr s t hregs]

theorem arithmeticResult_congr (h : SameArithmetic s.ctx t.ctx) (i : Instr) :
    arithmeticResult i t = arithmeticResult i s := by
  cases i <;> simp only [arithmeticResult, State.x_congr s t hregs, h.negf, h.addf, h.subf, h.mulf, h.sqrf, h.powf,
    h.invf]

/-- Of the search controller the root's result reads `ROOT` and `PHI`. -/
theorem rootResult_congr (h : SameArithmetic s.ctx t.ctx) (i : Instr) {u v : SearchUnit} (hroot : v.root = u.root)
    (hphi : v.phi = u.phi) : rootResult i t v = rootResult i s u := by
  cases i <;> simp only [rootResult, SearchUnit.loadGexp, State.x_congr s t hregs, h.powf, hroot, hphi]

end

/-! ### Changes that are carried along -/

/-- A timeline on which an answer of the FACTOR port is next. -/
theorem exists_of_factorAnswerNext {l : List Event} (h : ¬ factorAnswerNext l = false) :
    ∃ fs rest, l = .factorAnswer fs :: rest := by
  cases l with
  | nil => exact absurd rfl h
  | cons e rest =>
    cases e with
    | factorAnswer fs => exact ⟨fs, rest, rfl⟩
    | write | command | read | reset | engine | primeAnswer => exact absurd rfl h

/-- A state with another timeline. -/
def State.withInputs (s : State) (l : List Event) : State := { s with inputs := l }

/-- A state with another content of the search controller. -/
def State.withSearch (s : State) (u : SearchUnit) : State := { s with search := u }

/-- The answer holds no root: the fault. -/
theorem awaitFactor_error (onRoot : State → SearchUnit → State) {s : State} {fs : FactorSet} {rest : List Event}
    {code : FatalCode} (hin : s.inputs = .factorAnswer fs :: rest)
    (h : primitiveRoot s.ctx { s.search with fset := fs } = .error code) :
    awaitFactor onRoot s = (s.withInputs rest).fatal code := by
  rw [awaitFactor_answer onRoot s fs rest hin, h]
  rfl

/-- The answer gives a root: the command goes on with it. -/
theorem awaitFactor_ok (onRoot : State → SearchUnit → State) {s : State} {fs : FactorSet} {rest : List Event}
    {u : SearchUnit} (hin : s.inputs = .factorAnswer fs :: rest)
    (h : primitiveRoot s.ctx { s.search with fset := fs } = .ok u) :
    awaitFactor onRoot s = onRoot ((s.withInputs rest).withSearch u) u := by
  rw [awaitFactor_answer onRoot s fs rest hin, h]
  rfl

/-- A change of state that, in the context `c`, shows in nothing a command reads once it has begun, and that the end of
a command carries along. -/
structure CarriesEnd (c : Context) (f : State → State) : Prop where
  regs : ∀ s, (f s).regs = s.regs
  search : ∀ s, (f s).search = s.search
  inputs : ∀ s, (f s).inputs = s.inputs
  ctx : ∀ s, s.ctx = c → SameArithmetic s.ctx (f s).ctx
  withInputs : ∀ s l, (f s).withInputs l = f (s.withInputs l)
  withSearch : ∀ s u, (f s).withSearch u = f (s.withSearch u)
  finish : ∀ s rd v, (f s).finish rd v = f (s.finish rd v)
  fatal : ∀ s code, (f s).fatal code = f (s.fatal code)

/-- The answer of the FACTOR port, and what follows it, carry the change along. -/
theorem CarriesEnd.awaitFactor {c : Context} {f : State → State} (hf : CarriesEnd c f) {s : State} (hc : s.ctx = c)
    {onRoot onRoot' : State → SearchUnit → State}
    (hroot : ∀ t u, t.ctx = s.ctx → t.regs = s.regs → onRoot' (f t) u = f (onRoot t u)) :
    awaitFactor onRoot' (f s) = f (awaitFactor onRoot s) := by
  by_cases hnone : factorAnswerNext s.inputs = false
  · rw [awaitFactor_waits onRoot s hnone, awaitFactor_waits onRoot' (f s) (hf.inputs s ▸ hnone)]
  · obtain ⟨fs, rest, hin⟩ := exists_of_factorAnswerNext hnone
    have hin' : (f s).inputs = .factorAnswer fs :: rest := (hf.inputs s).trans hin
    have hsame : primitiveRoot (f s).ctx { (f s).search with fset := fs } =
        primitiveRoot s.ctx { s.search with fset := fs } := by rw [(hf.ctx s hc).primitiveRoot, hf.search]
    cases hr : primitiveRoot s.ctx { s.search with fset := fs } with
    | error code =>
      rw [awaitFactor_error _ hin hr, awaitFactor_error _ hin' (hsame.trans hr), hf.withInputs, hf.fatal]
    | ok u =>
      rw [awaitFactor_ok _ hin hr, awaitFactor_ok _ hin' (hsame.trans hr), hf.withInputs, hf.withSearch]
      exact hroot _ u rfl rfl

/-- A change that the whole of a command carries along, its begin and its requests too. -/
structure Carries (c : Context) (f : State → State) : Prop extends CarriesEnd c f where
  es : ∀ s, (f s).es = s.es
  ask : ∀ s r, (f s).ask r = f (s.ask r)

section
variable {c : Context} {f : State → State} (hf : Carries c f)
include hf

theorem Carries.setCand (s : State) (cand : Nat) : (f s).setCand cand = f (s.setCand cand) := by
  show (f s).withSearch { (f s).search with cand := BitVec.ofNat 64 cand } = _
  rw [hf.withSearch, hf.search]
  rfl

theorem Carries.loadSearch (s : State) (st : Start) : (f s).loadSearch st = f (s.loadSearch st) := by
  show (f s).withSearch { (f s).search with cand := BitVec.ofNat 64 st.cand, step := BitVec.ofNat 64 st.step } = _
  rw [hf.withSearch, hf.search]
  rfl

theorem Carries.loadPhi {s : State} (hc : s.ctx = c) : (f s).loadPhi = f s.loadPhi := by
  show (f s).withSearch { (f s).search with phi := BitVec.ofNat 64 ((f s).ctx.qNat - 1) } = _
  rw [hf.withSearch, hf.search, (hf.ctx s hc).qNat]
  rfl

theorem Carries.searchLoop (d : Direction) (rd : Reg) (s : State) (l : List Event) :
    searchLoop d rd (f s) l = f (searchLoop d rd s l) := by
  have hstop (s : State) {l : List Event} (h : primeAnswerNext l = false) :
      Machine.searchLoop d rd (f s) l = f (Machine.searchLoop d rd s l) := by
    rw [searchLoop_waits d rd _ l h, searchLoop_waits d rd _ l h]
    exact hf.withInputs s l
  induction l generalizing s with
  | nil => exact hstop s rfl
  | cons e l ih =>
    cases e with
    | primeAnswer b =>
      cases b with
      | true =>
        show ((f s).withInputs l).finish rd (some (f s).search.cand) =
            f ((s.withInputs l).finish rd (some s.search.cand))
        rw [hf.withInputs, hf.finish, hf.search]
      | false =>
        have hsearch := hf.search s
        cases hm : moveCand d s.search.cand.toNat s.search.step.toNat with
        | error code =>
          rw [searchLoop_false_error rd l hm, searchLoop_false_error rd l (hsearch ▸ hm)]
          show ((f s).withInputs l).fatal code = f ((s.withInputs l).fatal code)
          rw [hf.withInputs, hf.fatal]
        | ok cand =>
          rw [searchLoop_false_ok rd l hm, searchLoop_false_ok rd l (hsearch ▸ hm), hf.setCand, hf.ask, ih]
    | write | command | read | reset | engine | factorAnswer => exact hstop s rfl

theorem Carries.primeSearch (d : Direction) (rd : Reg) (start : Except FatalCode Start) (s : State) :
    primeSearch d rd start (f s) = f (primeSearch d rd start s) := by
  unfold Machine.primeSearch
  rw [hf.es, hf.inputs]
  split
  · exact hf.searchLoop d rd s s.inputs
  · split
    · exact hf.fatal s _
    · rw [hf.loadSearch, hf.ask, hf.searchLoop]

theorem Carries.withContext {s : State} (hc : s.ctx = c) {body body' : State → State}
    (hbody : body' (f s) = f (body s)) : (f s).withContext body' = f (s.withContext body) := by
  have hvalid := (hf.ctx s hc).valid
  rcases s.withContext_cases body with ⟨hv, h⟩ | ⟨hv, h⟩ <;> rw [h]
  · rw [State.withContext_valid _ _ (hvalid.trans hv), hbody]
  · rw [State.withContext_missing _ _ (hvalid.trans hv), hf.fatal]

theorem Carries.generatorSearch {s : State} (hc : s.ctx = c) (check : Except FatalCode Unit)
    {onRoot onRoot' : State → SearchUnit → State}
    (hroot : ∀ t u, t.ctx = s.ctx → t.regs = s.regs → onRoot' (f t) u = f (onRoot t u)) :
    generatorSearch check onRoot' (f s) = f (generatorSearch check onRoot s) := by
  unfold Machine.generatorSearch
  rw [hf.es]
  split
  · exact hf.awaitFactor hc hroot
  · split
    · exact hf.fatal s _
    · rw [hf.loadPhi hc, hf.ask, (hf.ctx s hc).qNat, hf.awaitFactor (s := s.loadPhi.ask _) hc hroot]

/-- Every command but `CTXINIT` carries the change along. -/
theorem Carries.exec {i : Instr} {s : State} (hc : s.ctx = c) (hi : ∀ rs1 v, i ≠ .ctxinit rs1 v) :
    exec i (f s) = mapNext f (exec i s) := by
  have hregs := hf.regs s
  cases form_of i with
  | ctxinit rs1 v => exact absurd rfl (hi rs1 v)
  | arithmetic rd hn hfp hd =>
    rw [exec_arithmetic hn hfp hd, exec_arithmetic hn hfp hd]
    refine congrArg _ (hf.withContext hc ?_)
    rw [arithmeticResult_congr hregs (hf.ctx s hc), hf.finish]
  | primeSearch d rd hn hi =>
    rw [exec_primeSearch hi, exec_primeSearch hi, startOf_congr hregs]
    exact congrArg _ (hf.primeSearch d rd _ s)
  | generatorSearch rd hfp hd =>
    rw [exec_generatorSearch hfp hd, exec_generatorSearch hfp hd, rootCheck_congr hregs]
    refine congrArg _ (hf.withContext hc (hf.generatorSearch hc _ fun t u htc htr => ?_))
    rw [rootResult_congr (hf.regs t) (hf.ctx t (htc.trans hc)) i rfl rfl, hf.finish]

end

/-! ### The Barrett variant (rule R130) -/

/-- The other variant in a context that is the same but for it. -/
def Context.withVar (c : Context) (v : Variant) : Context := { c with var := v }

theorem Context.usable.withVar {c : Context} (hc : c.usable) (v : Variant) : (c.withVar v).usable := by
  obtain ⟨hvalid, hwf⟩ := hc
  refine ⟨hvalid, ?_⟩
  rw [Context.wellFormed, if_pos hvalid] at hwf
  rwa [Context.wellFormed, if_pos (show (c.withVar v).valid = true from hvalid)]

/-- With two corrections the product is exact under either variant, so no result rule tells them apart. -/
theorem Context.usable.sameArithmetic_withVar {c : Context} (hc : c.usable) (v : Variant) :
    SameArithmetic c (c.withVar v) := by
  refine ⟨rfl, rfl, ?_⟩
  funext a b
  refine Option.ext fun w => ?_
  rw [mulf_eq_some_iff hc, mulf_eq_some_iff (hc.withVar v)]
  rfl

/-- A state with the other variant in its context. -/
def State.withVar (v : Variant) (s : State) : State := { s with ctx := s.ctx.withVar v }

theorem carries_withVar {c : Context} (hc : c.usable) (v : Variant) : Carries c (State.withVar v) where
  regs _ := rfl
  es _ := rfl
  search _ := rfl
  inputs _ := rfl
  ctx _ hs := (hs ▸ hc).sameArithmetic_withVar v
  withInputs _ _ := rfl
  withSearch _ _ := rfl
  ask _ _ := rfl
  finish _ _ r := by cases r <;> rfl
  fatal _ _ := rfl

/-- Only index 1, `STATUS`, shows the variant. -/
theorem hostRead_withVar (s : State) (v : Variant) {idx : Index} (h : idx ≠ 0x01) :
    (s.withVar v).hostRead idx = s.hostRead idx := by
  unfold State.hostRead
  split
  case h_2 heq => exact absurd (BitVec.eq_of_toNat_eq heq) h
  all_goals rfl

/-- Settles O43: the variant is carried along; `Q = 113` on 90 and 108 (vectors M10, M11) has the estimates 85 and
84. -/
theorem variantsAreIndistinguishable : Obligations.VariantsAreIndistinguishable := by
  refine ⟨fun i s v hc hi => (carries_withVar hc v).exec rfl hi, fun s v idx => hostRead_withVar s v, ?_⟩
  obtain ⟨c, hbuild, hq, hlogq, hmu, -, -⟩ := buildContext_ok (q := 113) (v := .a) (by decide) (by decide)
  have hestimate (v : Variant) : quotientEstimate (c.withVar v) (90 * 108) =
      ((90 * 108) >>> (shifts c.logqNat v).1 * c.muNat) >>> (shifts c.logqNat v).2 := rfl
  have hone (v : Variant) : barrett .one (c.withVar v) (90 * 108) =
      condSub c.qNat ((90 * 108 - quotientEstimate (c.withVar v) (90 * 108) * c.qNat) % 2 ^ 64) := rfl
  have ha : quotientEstimate (c.withVar .a) (90 * 108) = 85 := by
    rw [hestimate, hlogq, hmu]
    decide
  have hb : quotientEstimate (c.withVar .b) (90 * 108) = 84 := by
    rw [hestimate, hlogq, hmu]
    decide
  refine ⟨c, buildContext_usable hbuild, hq, (hone .a).trans ?_, (hone .b).trans ?_, ?_⟩
  · rw [ha, hq]
    decide
  · rw [hb, hq]
    decide
  · exact fun h => absurd (ha.symm.trans (h.trans hb)) (by decide)

/-! ### Host accesses while a command runs (rules R53, R60) -/

/-- A state with another `OVR` and with values read on top of its own. -/
def State.withAccesses (ovr : Bool) (values : List Word) (s : State) : State :=
  { s with ovr := ovr, reads := values ++ s.reads }

theorem carries_withAccesses (c : Context) (ovr : Bool) (values : List Word) :
    Carries c (State.withAccesses ovr values) where
  regs _ := rfl
  es _ := rfl
  search _ := rfl
  inputs _ := rfl
  ctx _ _ := ⟨rfl, rfl, rfl⟩
  withInputs _ _ := rfl
  withSearch _ _ := rfl
  ask _ _ := rfl
  finish _ _ r := by cases r <;> rfl
  fatal _ _ := rfl

/-- Every command carries the accesses along, `CTXINIT` too. -/
theorem exec_withAccesses (i : Instr) (ovr : Bool) (values : List Word) (s : State) :
    exec i (s.withAccesses ovr values) = mapNext (State.withAccesses ovr values) (exec i s) := by
  by_cases hi : ∀ rs1 v, i ≠ .ctxinit rs1 v
  · exact (carries_withAccesses s.ctx ovr values).exec rfl hi
  · obtain ⟨rs1, v, rfl⟩ : ∃ rs1 v, i = .ctxinit rs1 v := by simpa using hi
    cases hb : buildContext (s.x rs1) v with
    | error code =>
      rw [exec_ctxinit_error rs1 v s code hb, exec_ctxinit_error rs1 v (s.withAccesses ovr values) code hb]
      rfl
    | ok c =>
      rw [exec_ctxinit_ok rs1 v s c hb, exec_ctxinit_ok rs1 v (s.withAccesses ovr values) c hb]
      rfl

/-- So does the engine that runs its command. -/
theorem runEngine_withAccesses (ovr : Bool) (values : List Word) (s : State) :
    runEngine (s.withAccesses ovr values) = mapNext (State.withAccesses ovr values) (runEngine s) := by
  cases hd : decode s.cmd with
  | ok i =>
    rw [runEngine_of_decode hd, runEngine_of_decode (s := s.withAccesses ovr values) hd, exec_withAccesses]
  | error reason =>
    have h (t : State) (ht : t.cmd = s.cmd) : runEngine t = .fault .runWithoutCommand := by rw [runEngine, ht, hd]
    rw [h s rfl, h (s.withAccesses ovr values) rfl]
    rfl

/-- Host accesses to a running engine are taken one step each; they set `OVR` if one is dropped, and give the values
read. -/
theorem run_hostAccesses {s : State} (hrun : s.es = .run none) (hs l : List Event)
    (hhost : ∀ e ∈ hs, e.isHostAccess = true) :
    ∃ values, Sys2Proof.core.run (hs.length + 1) { s with inputs := hs ++ l } =
      step (({ s with inputs := l } : State).withAccesses (s.ovr || hs.any Event.isDropped) values) := by
  induction hs generalizing s with
  | nil =>
    refine ⟨[], ?_⟩
    rw [List.any_nil, Bool.or_false]
    exact run_one _
  | cons e hs ih =>
    have hstep : step { s with inputs := e :: hs ++ l } = .next
        { s with inputs := hs ++ l, ovr := s.ovr || e.isDropped, reads := e.valuesRead s ++ s.reads } := by
      rw [step_of_inputs_cons (List.cons_append ..)]
      exact handle_hostAccess_of_not_idle (s := { s with inputs := _ }) _ (hhost e List.mem_cons_self) (by simp [hrun])
    obtain ⟨values, h⟩ := ih (s := { s with ovr := s.ovr || e.isDropped, reads := e.valuesRead s ++ s.reads }) hrun
      fun e' he' => hhost e' (List.mem_cons_of_mem _ he')
    refine ⟨values ++ e.valuesRead s, ?_⟩
    rw [List.length_cons, run_next _ hstep, h, List.any_cons, ← Bool.or_assoc, State.withAccesses, State.withAccesses,
      List.append_assoc]

/-- And the engine's turn of a command that begins. -/
theorem step_engine_withAccesses {s : State} (hrun : s.es = .run none) (ovr : Bool) (values : List Word)
    (rest : List Event) : step (({ s with inputs := .engine :: rest } : State).withAccesses ovr values) =
      mapNext (State.withAccesses ovr values) (step { s with inputs := .engine :: rest }) := by
  rw [step_engine s rest, engineTurn_of_run (s := { s with inputs := rest }) hrun, ← runEngine_withAccesses]
  exact engineTurn_of_run (s := ({ s with inputs := rest } : State).withAccesses ovr values) hrun

/-- Settles O10: the accesses are taken before the engine's turn, and the command carries them along. -/
theorem hostAccessesDoNotDisturbARun : Obligations.HostAccessesDoNotDisturbARun := by
  intro s hs rest hrun hhost
  obtain ⟨values, h⟩ := run_hostAccesses hrun hs (.engine :: rest) hhost
  exact ⟨values, h.trans (step_engine_withAccesses hrun _ values rest)⟩

end Sys2Proof.Machine
end

section
/-! Searches that begin, by form; what a command that begins does not read: the engine state and the hidden registers,
which its end overwrites (rules R31, R32, R81). -/

namespace Sys2Proof.Machine

/-! ### Searches that begin or resume -/

section
variable {i : Instr} {s : State} {rd : Reg}

theorem exec_primeSearch_error {d : Direction} {code : FatalCode} (hi : primeSearchOf i = some (d, rd))
    (hb : s.begins) (hstart : startOf i s = .error code) : exec i s = .next (s.fatal code) := by
  rw [exec_primeSearch hi, hstart, State.primeSearch_begins hb]

theorem exec_primeSearch_ok {d : Direction} {st : Start} (hi : primeSearchOf i = some (d, rd)) (hb : s.begins)
    (hstart : startOf i s = .ok st) : exec i s = .next (searchLoop d rd (beginSearch s st) s.inputs) := by
  rw [exec_primeSearch hi, hstart, State.primeSearch_begins_ok hb, beginSearch]

theorem generatorSearch_resumed {r : Request} (check : Except FatalCode Unit) (onRoot : State → SearchUnit → State)
    (hrun : s.es = .run (some r)) : generatorSearch check onRoot s = awaitFactor onRoot s := by
  simp only [generatorSearch, hrun]

/-- What a generator search does with its root: its result, in its destination. -/
def finishRoot (i : Instr) (rd : Reg) (s : State) (u : SearchUnit) : State := s.finish rd (rootResult i s u)

section
variable (hf : usesFactorPort i = true) (hd : destOf i = some rd) (hv : s.ctx.valid = true)
include hf hd hv

theorem exec_generatorSearch_error {code : FatalCode} (hb : s.begins) (hcheck : rootCheck i s = .error code) :
    exec i s = .next (s.fatal code) := by
  rw [exec_generatorSearch hf hd, State.withContext_valid _ _ hv, hcheck, State.generatorSearch_begins hb]

theorem exec_generatorSearch_ok (hb : s.begins) (hcheck : rootCheck i s = .ok ()) :
    exec i s = .next (awaitFactor (finishRoot i rd) (beginFactor s)) := by
  rw [exec_generatorSearch hf hd, State.withContext_valid _ _ hv, hcheck, State.generatorSearch_begins_ok hb,
    beginFactor]
  rfl

theorem exec_generatorSearch_resumed {r : Request} (hrun : s.es = .run (some r)) :
    exec i s = .next (awaitFactor (finishRoot i rd) s) := by
  rw [exec_generatorSearch hf hd, State.withContext_valid _ _ hv, generatorSearch_resumed _ _ hrun]
  rfl

end
end

/-- The operand of an `FGEN` passes its checks iff it is nonzero and its double fits 64 bits; `FPR` has no checks. -/
theorem rootCheck_ok {i : Instr} {s : State} (h : operandPassed i s) : rootCheck i s = .ok () := by
  cases i with
  | fgen rd rs1 =>
    obtain ⟨hpos, hfit⟩ := h rd rs1 rfl
    exact fgenCheck_ok hpos hfit
  | _ => rfl

/-! ### The end of a command overwrites the engine state and the hidden registers -/

/-- A state without its engine state and its hidden registers. -/
def State.forget (s : State) : State := { s.blankHidden with es := .idle }

theorem State.finish_forget (s : State) (rd : Reg) (v : Option Word) : s.forget.finish rd v = s.finish rd v := by
  cases v <;> rfl

theorem State.fatal_forget (s : State) (code : FatalCode) : s.forget.fatal code = s.fatal code := rfl

theorem State.forget_of_blankHidden {s t : State} (h : s.blankHidden = t.blankHidden) : s.forget = t.forget :=
  congrArg (fun s : State => { s with es := .idle }) h

theorem exec_ctxinit_forget (rs1 : Reg) (v : Variant) (s : State) :
    exec (.ctxinit rs1 v) s.forget = exec (.ctxinit rs1 v) s := by
  cases hb : buildContext (s.x rs1) v with
  | error code => rw [exec_ctxinit_error rs1 v s code hb, exec_ctxinit_error rs1 v s.forget code hb, State.fatal_forget]
  | ok c =>
    rw [exec_ctxinit_ok rs1 v s c hb, exec_ctxinit_ok rs1 v s.forget c hb]
    rfl

theorem exec_arithmetic_forget {i : Instr} {rd : Reg} (hn : i.needsContext = true) (hf : usesFactorPort i = false)
    (hd : destOf i = some rd) (s : State) : exec i s.forget = exec i s := by
  have hresult : arithmeticResult i s.forget = arithmeticResult i s :=
    arithmeticResult_congr (s := s) rfl ⟨rfl, rfl, rfl⟩ i
  rw [exec_arithmetic hn hf hd, exec_arithmetic hn hf hd]
  cases hv : s.ctx.valid with
  | false => rw [State.withContext_missing s.forget _ hv, State.withContext_missing s _ hv, State.fatal_forget]
  | true =>
    rw [State.withContext_valid s.forget _ hv, State.withContext_valid s _ hv, hresult, State.finish_forget]

/-! ### The engine state in which a command begins (rule R81) -/

/-- A state with another engine state. -/
def State.withEs (s : State) (e : EngineState) : State := { s with es := e }

/-- A command that begins does the same in `IDLE` and in `RUN`. -/
theorem exec_begins_es (i : Instr) {s : State} {e : EngineState} (hs : s.begins)
    (he : (s.withEs e).begins) : exec i (s.withEs e) = exec i s := by
  cases form_of i with
  | ctxinit rs1 v => exact (exec_ctxinit_forget rs1 v (s.withEs e)).symm.trans (exec_ctxinit_forget rs1 v s)
  | arithmetic rd hn hf hd =>
    exact (exec_arithmetic_forget hn hf hd (s.withEs e)).symm.trans (exec_arithmetic_forget hn hf hd s)
  | primeSearch d rd _ hi =>
    have hstart : startOf i (s.withEs e) = startOf i s := startOf_congr (s := s) rfl i
    cases h : startOf i s with
    | error code =>
      rw [exec_primeSearch_error hi hs h, exec_primeSearch_error hi he (hstart.trans h)]
      rfl
    | ok st =>
      rw [exec_primeSearch_ok hi hs h, exec_primeSearch_ok hi he (hstart.trans h)]
      rfl
  | generatorSearch rd hf hd =>
    have hcheck : rootCheck i (s.withEs e) = rootCheck i s := rootCheck_congr (s := s) rfl i
    cases hv : s.ctx.valid with
    | false =>
      rw [exec_generatorSearch hf hd, exec_generatorSearch hf hd, State.withContext_missing s _ hv,
        State.withContext_missing (s.withEs e) _ hv]
      rfl
    | true =>
      cases h : rootCheck i s with
      | error code =>
        rw [exec_generatorSearch_error hf hd hv hs h,
          exec_generatorSearch_error (s := s.withEs e) hf hd hv he (hcheck.trans h)]
        rfl
      | ok _ =>
        rw [exec_generatorSearch_ok hf hd hv hs h,
          exec_generatorSearch_ok (s := s.withEs e) hf hd hv he (hcheck.trans h)]
        rfl

/-- The engine's turn, in `RUN`, of a command that could begin here. -/
theorem exec_eq_engineTurn {i : Instr} {s : State} (hb : s.begins) (hd : decode s.cmd = .ok i) :
    exec i s = engineTurn (s.withEs (.run none)) :=
  calc exec i s = exec i (s.withEs (.run none)) := (exec_begins_es i hb (.inr rfl)).symm
    _ = runEngine (s.withEs (.run none)) := (runEngine_of_decode (s := s.withEs (.run none)) hd).symm
    _ = engineTurn (s.withEs (.run none)) := (engineTurn_of_run (s := s.withEs (.run none)) rfl).symm

/-- Settles O8: a fault at the issue step leaves a halted engine, whose turn does nothing; else the command begins in
`RUN` as it begins in `IDLE`. -/
theorem mergedRunIsIssueThenEngine : Obligations.MergedRunIsIssueThenEngine := by
  intro s w rest hidle
  refine ⟨_, step_write_cmd w (.engine :: rest) hidle, ?_⟩
  have hfault (code : FatalCode) : step (({ s with inputs := .engine :: rest }.accept w).fatal code) =
      .next (({ s with inputs := rest }.accept w).fatal code) := by
    rw [step_of_inputs_cons rfl]
    exact engineTurn_of_halted (s := ({ s with inputs := rest }.accept w).fatal code) rfl
  rw [step_command]
  rcases State.issue_cases { s with inputs := .engine :: rest } w with
    ⟨code, hissue, ⟨rfl, reason, hd⟩ | ⟨rfl, i, hd, hn, hv⟩⟩ | ⟨i, hd, -, hissue⟩ <;> rw [hissue]
  · rw [hfault, runCommand_illegal (s := { s with inputs := rest }) hidle hd]
  · rw [hfault, runCommand_ok (s := { s with inputs := rest }) hidle hd]
    exact exec_noCtx (s := { s with inputs := rest }.accept w) hn hv
  · rw [runCommand_ok (s := { s with inputs := rest }) hidle hd, step_of_inputs_cons rfl]
    exact exec_eq_engineTurn (s := { s with inputs := rest }.accept w) (.inl hidle) hd

/-! ### The hidden registers (rules R31, R32) -/

/-- A field of a state that is no hidden register stands in the blanked state too. -/
theorem State.finish_blankHidden {s t : State} (h : s.blankHidden = t.blankHidden) (rd : Reg) (v : Option Word) :
    s.finish rd v = t.finish rd v := by
  rw [← s.finish_forget, State.forget_of_blankHidden h, t.finish_forget]

theorem State.fatal_blankHidden {s t : State} (h : s.blankHidden = t.blankHidden) (code : FatalCode) :
    s.fatal code = t.fatal code := by
  rw [← s.fatal_forget, State.forget_of_blankHidden h, t.fatal_forget]

theorem State.withInputs_blankHidden {s t : State} (h : s.blankHidden = t.blankHidden) (l : List Event) :
    (s.withInputs l).blankHidden = (t.withInputs l).blankHidden := congrArg (State.withInputs · l) h

theorem State.ask_blankHidden {s t : State} (h : s.blankHidden = t.blankHidden) (r : Request) :
    (s.ask r).blankHidden = (t.ask r).blankHidden := congrArg (State.ask · r) h

/-- The search loop reads `CAND` and `STEP` only, which the begin of a search has written. -/
theorem searchLoop_blankHidden (d : Direction) (rd : Reg) (l : List Event) {s t : State}
    (h : s.blankHidden = t.blankHidden) (hcand : s.search.cand = t.search.cand)
    (hstep : s.search.step = t.search.step) :
    (searchLoop d rd s l).blankHidden = (searchLoop d rd t l).blankHidden := by
  have hstop {s t : State} (h : s.blankHidden = t.blankHidden) {l : List Event} (hnone : primeAnswerNext l = false) :
      (searchLoop d rd s l).blankHidden = (searchLoop d rd t l).blankHidden := by
    rw [searchLoop_waits d rd _ l hnone, searchLoop_waits d rd _ l hnone]
    exact State.withInputs_blankHidden h l
  induction l generalizing s t with
  | nil => exact hstop h rfl
  | cons e l ih =>
    cases e with
    | primeAnswer b =>
      cases b with
      | true =>
        rw [searchLoop_true, searchLoop_true, hcand]
        exact congrArg _ (State.finish_blankHidden (State.withInputs_blankHidden h l) rd _)
      | false =>
        cases hm : moveCand d s.search.cand.toNat s.search.step.toNat with
        | error code =>
          rw [searchLoop_false_error rd l hm, searchLoop_false_error rd l (hstep ▸ hcand ▸ hm)]
          exact congrArg _ (State.fatal_blankHidden (State.withInputs_blankHidden h l) code)
        | ok cand =>
          rw [searchLoop_false_ok rd l hm, searchLoop_false_ok rd l (hstep ▸ hcand ▸ hm)]
          exact ih (State.ask_blankHidden (s := s.setCand cand) (t := t.setCand cand) h _) rfl hstep
    | write | command | read | reset | engine | factorAnswer => exact hstop h rfl

/-! ### Only the set of primes enters (rule R180) -/

/-- Two factor sets with the same primes. -/
def SamePrimes (fs fs' : FactorSet) : Prop := ∀ p : Word, (∃ e, (p, e) ∈ fs) ↔ (∃ e, (p, e) ∈ fs')

theorem SamePrimes.refl (fs : FactorSet) : SamePrimes fs fs := fun _ => Iff.rfl

/-- A test of every prime, whatever the multiplicities, is one of the set of primes. -/
theorem all_prime_iff {fs : FactorSet} {test : Word → Bool} :
    (fs.all fun pe => test pe.1) = true ↔ ∀ p, (∃ e, (p, e) ∈ fs) → test p = true := by
  rw [List.all_eq_true]
  exact ⟨fun h p ⟨e, he⟩ => h (p, e) he, fun h pe he => h pe.1 ⟨pe.2, he⟩⟩

section
variable {fs fs' : FactorSet} (h : SamePrimes fs fs')
include h

theorem SamePrimes.all_eq (test : Word → Bool) : (fs.all fun pe => test pe.1) = fs'.all fun pe => test pe.1 := by
  rw [Bool.eq_iff_iff, all_prime_iff, all_prime_iff]
  exact forall_congr' fun p => imp_congr_left (h p)

theorem SamePrimes.any_zero_eq : (fs.any fun pe => pe.1 = 0) = fs'.any fun pe => pe.1 = 0 := by
  rw [List.any_eq_not_all_not, List.any_eq_not_all_not]
  exact congrArg _ (h.all_eq fun p => !decide (p = 0))

theorem SamePrimes.isEmpty_eq : fs.isEmpty = fs'.isEmpty := by
  have hempty (fs : FactorSet) : fs.isEmpty = fs.all fun pe => (fun _ : Word => false) pe.1 := by
    cases fs <;> rfl
  rw [hempty, hempty]
  exact h.all_eq fun _ => false

end

/-- What the root search reads of the search controller: `PHI`, `ROOT` and the primes of `FSET`. -/
structure SameQuestion (u v : SearchUnit) : Prop where
  phi : v.phi = u.phi
  root : v.root = u.root
  primes : SamePrimes u.fset v.fset

section
variable {u v : SearchUnit} (h : SameQuestion u v)
include h

theorem SameQuestion.accepts_eq (c : Context) : accepts c v = accepts c u := by
  rw [accepts, accepts, h.phi, h.root]
  exact (h.primes.all_eq fun p => decide (powf c u.root (BitVec.ofNat 64 (u.phi.toNat / p.toNat)) ≠ some 1)).symm

theorem SameQuestion.rootLoop_eq (c : Context) (n : Nat) :
    (rootLoop c n v).map SearchUnit.root = (rootLoop c n u).map SearchUnit.root := by
  induction n generalizing u v with
  | zero => rfl
  | succ n ih =>
    rw [rootLoop, rootLoop, h.primes.isEmpty_eq, h.root, h.accepts_eq c]
    have hok : (Except.ok v : Except FatalCode SearchUnit).map SearchUnit.root = .ok u.root := congrArg _ h.root
    split
    · exact hok
    · split
      · rfl
      · split
        · exact hok
        · exact ih ⟨h.phi, rfl, h.primes⟩

end

/-- The root found depends on `PHI` and the set of primes only; the search controller's other content is as it was. -/
theorem primitiveRoot_congr {u v : SearchUnit} (hphi : v.phi = u.phi) (hprimes : SamePrimes u.fset v.fset)
    (c : Context) : (primitiveRoot c v).map SearchUnit.root = (primitiveRoot c u).map SearchUnit.root := by
  rw [primitiveRoot, primitiveRoot, hprimes.any_zero_eq]
  split
  · rfl
  · exact SameQuestion.rootLoop_eq (u := { u with root := 2 }) (v := { v with root := 2 }) ⟨hphi, rfl, hprimes⟩ c _

/-- The primitive-root function leaves `PHI`. -/
theorem primitiveRoot_phi {c : Context} {u v : SearchUnit} (h : primitiveRoot c u = .ok v) : v.phi = u.phi := by
  unfold primitiveRoot at h
  split at h
  · cases h
  · rw [rootLoop_ok h]

/-- Two waits that get answers with the same primes end alike: `PHI` is all else of the hidden registers that enters. -/
theorem awaitFactor_congr {i : Instr} {rd : Reg} {s t : State} {fs fs' : FactorSet} {rest : List Event}
    (hs : s.inputs = .factorAnswer fs :: rest) (ht : t.inputs = .factorAnswer fs' :: rest)
    (hrest : (s.withInputs rest).blankHidden = (t.withInputs rest).blankHidden) (hphi : s.search.phi = t.search.phi)
    (hprimes : SamePrimes fs fs') : awaitFactor (finishRoot i rd) s = awaitFactor (finishRoot i rd) t := by
  have hctx : s.ctx = t.ctx := (congrArg State.ctx hrest :)
  have hregs : s.regs = t.regs := (congrArg State.regs hrest :)
  have hroot := primitiveRoot_congr (u := { t.search with fset := fs' }) (v := { s.search with fset := fs }) hphi
    (fun p => (hprimes p).symm) t.ctx
  cases hu : primitiveRoot s.ctx { s.search with fset := fs } with
  | error code =>
    rw [← hctx, hu] at hroot
    cases hv : primitiveRoot t.ctx { t.search with fset := fs' } with
    | error code' =>
      obtain rfl : code = code' := by simpa [Except.map, hctx, hv] using hroot
      rw [awaitFactor_error _ hs hu, awaitFactor_error _ ht hv, State.fatal_blankHidden hrest]
    | ok v => simp [Except.map, hctx, hv] at hroot
  | ok u =>
    rw [← hctx, hu] at hroot
    cases hv : primitiveRoot t.ctx { t.search with fset := fs' } with
    | error code => simp [Except.map, hctx, hv] at hroot
    | ok v =>
      have huv : u.root = v.root := by simpa [Except.map, hctx, hv] using hroot
      have hphi' : u.phi = v.phi := (primitiveRoot_phi hu).trans (hphi.trans (primitiveRoot_phi hv).symm)
      rw [awaitFactor_ok _ hs hu, awaitFactor_ok _ ht hv, finishRoot, finishRoot,
        rootResult_congr (s := (t.withInputs rest).withSearch v) (t := (s.withInputs rest).withSearch u) hregs
          (hctx ▸ ⟨rfl, rfl, rfl⟩) i huv hphi']
      exact State.finish_blankHidden (s := (s.withInputs rest).withSearch u) (t := (t.withInputs rest).withSearch v)
        hrest rd _

/-- Settles O29: arithmetic and construction read no hidden register at all; a search reads those its begin has written,
and its end overwrites the others. -/
theorem hiddenRegistersAreNeverRead : Obligations.HiddenRegistersAreNeverRead := by
  intro i s p u hb
  set t : State := { s with pow := p, search := u }
  have hbt : t.begins := hb
  have hstart : startOf i t = startOf i s := startOf_congr (s := s) rfl i
  have hcheck : rootCheck i t = rootCheck i s := rootCheck_congr (s := s) rfl i
  cases form_of i with
  | ctxinit rs1 v => rw [← exec_ctxinit_forget rs1 v t, ← exec_ctxinit_forget rs1 v s]; rfl
  | arithmetic rd hn hf hd => rw [← exec_arithmetic_forget hn hf hd t, ← exec_arithmetic_forget hn hf hd s]; rfl
  | primeSearch d rd _ hi =>
    cases h : startOf i s with
    | error code =>
      rw [exec_primeSearch_error hi hb h, exec_primeSearch_error hi hbt (hstart.trans h)]
      rfl
    | ok st =>
      rw [exec_primeSearch_ok hi hb h, exec_primeSearch_ok hi hbt (hstart.trans h)]
      exact congrArg Host.Outcome.next
        (searchLoop_blankHidden d rd s.inputs (s := beginSearch t st) (t := beginSearch s st) rfl rfl rfl)
  | generatorSearch rd hf hd =>
    cases hv : s.ctx.valid with
    | false =>
      rw [exec_generatorSearch hf hd, exec_generatorSearch hf hd, State.withContext_missing s _ hv,
        State.withContext_missing t _ hv]
      rfl
    | true =>
      cases h : rootCheck i s with
      | error code =>
        rw [exec_generatorSearch_error hf hd hv hb h, exec_generatorSearch_error (s := t) hf hd hv hbt (hcheck.trans h)]
        rfl
      | ok _ =>
        rw [exec_generatorSearch_ok hf hd hv hb h, exec_generatorSearch_ok (s := t) hf hd hv hbt (hcheck.trans h)]
        by_cases hnone : factorAnswerNext s.inputs = false
        · rw [awaitFactor_waits _ (beginFactor s) hnone, awaitFactor_waits _ (beginFactor t) hnone]
          rfl
        · obtain ⟨fs, rest, hin⟩ := exists_of_factorAnswerNext hnone
          rw [awaitFactor_congr (s := beginFactor t) (t := beginFactor s) hin hin rfl rfl (SamePrimes.refl fs)]

/-- Settles O59. -/
theorem onlyTheSetOfPrimesMatters : Obligations.OnlyTheSetOfPrimesMatters := by
  intro s rd rs1 fs fs' rest hb hv hprimes
  have hexec {i : Instr} (hf : usesFactorPort i = true) (hd : destOf i = some rd) (hcheck : rootCheck i s = .ok ())
      (fs : FactorSet) : exec i { s with inputs := .factorAnswer fs :: rest } =
        .next (awaitFactor (finishRoot i rd) (beginFactor { s with inputs := .factorAnswer fs :: rest })) :=
    exec_generatorSearch_ok (s := { s with inputs := .factorAnswer fs :: rest }) hf hd hv hb
      ((rootCheck_congr (s := s) rfl i).trans hcheck)
  refine ⟨?_, fun hcheck => ?_⟩
  · rw [hexec (i := .fpr rd) rfl rfl rfl, hexec (i := .fpr rd) rfl rfl rfl]
    exact congrArg _ (awaitFactor_congr rfl rfl rfl rfl hprimes)
  · rw [hexec (i := .fgen rd rs1) rfl rfl hcheck, hexec (i := .fgen rd rs1) rfl rfl hcheck]
    exact congrArg _ (awaitFactor_congr rfl rfl rfl rfl hprimes)

end Sys2Proof.Machine
end

section
/-! Generator searches: the wait for the factorization, the operand checks, the zero prime (rules R35, R180, R183), and
late answers (rules R34, R35, R248). -/

namespace Sys2Proof.Machine

/-- Settles O53: the request is sent, and no answer is next. -/
theorem generatorSearchWaits : Obligations.GeneratorSearchWaits := by
  intro s rd rs1 hb hc hnone
  have hwaits {i : Instr} (hf : usesFactorPort i = true) (hd : destOf i = some rd) (hcheck : rootCheck i s = .ok ()) :
      Waits i s (.factor (BitVec.ofNat 64 (s.ctx.qNat - 1))) s.inputs [.factor (BitVec.ofNat 64 (s.ctx.qNat - 1))] := by
    have hexec := exec_generatorSearch_ok hf hd hc.1 hb hcheck
    rw [awaitFactor_waits _ (beginFactor s) hnone] at hexec
    exact waits_of_run hexec rfl (beginFactor_shown s) rfl rfl
  exact ⟨hwaits rfl rfl rfl, fun hpos hfit => hwaits rfl rfl (fgenCheck_ok hpos hfit)⟩

/-- Settles O54: `n = 0` is checked first, then `2n`. -/
theorem fgenOperandChecks : Obligations.FgenOperandChecks := by
  intro s rd rs1 hb hv
  have hfaults {code : FatalCode} (h : fgenCheck (s.x rs1) = .error code) : Faults (.fgen rd rs1) s code s.inputs [] :=
    faults_of_fatal (exec_fgen_error rd rs1 s hv hb code h) (SameShown.refl s) rfl rfl
  refine ⟨fun h0 => hfaults (if_pos h0), fun hwide => hfaults ?_⟩
  have h0 : s.x rs1 ≠ 0 := by
    rintro h0
    rw [h0] at hwide
    exact absurd hwide (by decide)
  rw [fgenCheck, if_neg h0, if_pos hwide]

/-- A zero prime is found before any root is tried. -/
theorem primitiveRoot_zero {c : Context} {u : SearchUnit} {e : Nat} (h : ((0 : Word), e) ∈ u.fset) :
    primitiveRoot c u = .error .divZero :=
  if_pos (List.any_eq_true.mpr ⟨_, h, by simp⟩)

/-- Settles O55. -/
theorem zeroPrimeTraps : Obligations.ZeroPrimeTraps := by
  intro s rd rs1 fs rest e hb hv hin hzero
  have hfaults {i : Instr} (hf : usesFactorPort i = true) (hd : destOf i = some rd) (hcheck : rootCheck i s = .ok ()) :
      Faults i s .divZero rest [.factor (BitVec.ofNat 64 (s.ctx.qNat - 1))] := by
    have hexec := exec_generatorSearch_ok hf hd hv hb hcheck
    rw [awaitFactor_error _ (s := beginFactor s) hin (primitiveRoot_zero hzero)] at hexec
    exact faults_of_fatal hexec ((beginFactor_shown s).inputs rest) rfl rfl
  exact ⟨hfaults rfl rfl rfl, fun hpos hfit => hfaults rfl rfl (fgenCheck_ok hpos hfit)⟩

/-! ### Late answers -/

/-- A state with one request more on its record. -/
def State.withRequest (r : Request) (s : State) : State := { s with requests := r :: s.requests }

theorem carriesEnd_withRequest (c : Context) (r : Request) : CarriesEnd c (State.withRequest r) where
  regs _ := rfl
  search _ := rfl
  inputs _ := rfl
  ctx _ _ := ⟨rfl, rfl, rfl⟩
  withInputs _ _ := rfl
  withSearch _ _ := rfl
  finish _ _ v := by cases v <;> rfl
  fatal _ _ := rfl

/-- The root's result does not read the record of requests. -/
theorem finishRoot_withRequest (i : Instr) (rd : Reg) (r : Request) (s : State) (u : SearchUnit) :
    finishRoot i rd (s.withRequest r) u = (finishRoot i rd s u).withRequest r := by
  have hresult : rootResult i (s.withRequest r) u = rootResult i s u :=
    rootResult_congr (s := s) rfl ⟨rfl, rfl, rfl⟩ i rfl rfl
  rw [finishRoot, hresult]
  exact (carriesEnd_withRequest s.ctx r).finish s rd _

/-- The commands that use the FACTOR port need a context and have a destination. -/
theorem destOf_of_usesFactorPort {i : Instr} (h : usesFactorPort i = true) :
    i.needsContext = true ∧ ∃ rd, destOf i = some rd := by
  cases i with
  | fpr | fgen => exact ⟨rfl, _, rfl⟩
  | _ => cases h

/-- Where the engine waits for `factor(Q - 1)` with `Q - 1` in `PHI`, beginning anew changes the record of requests
only. -/
theorem beginFactor_of_waiting {s : State} {m : Word} {l : List Event} (hrun : s.es = .run (some (.factor m)))
    (hphi : m = s.search.phi) (hm : m.toNat = s.ctx.qNat - 1) :
    beginFactor { s with es := .run none, inputs := l } = (s.withInputs l).withRequest (.factor m) := by
  have hq : BitVec.ofNat 64 (s.ctx.qNat - 1) = m := BitVec.eq_of_toNat_eq ((toNat_ofNat_sub s.ctx 1).trans hm.symm)
  simp only [beginFactor, State.loadPhi, State.ask, State.withRequest, State.withInputs, hq, hrun]
  rw [hphi]

/-- A generator search that waits for its factorization leaves on the answer what it leaves begun there, but for the
request. -/
theorem exec_begun_eq_resumed {s : State} {i : Instr} {m : Word} {fs : FactorSet} {rest : List Event} (hinv : s.Inv)
    (hrun : s.es = .run (some (.factor m))) (hd : decode s.cmd = .ok i) :
    exec i { s with es := .run none, inputs := .factorAnswer fs :: rest } =
      mapNext (State.withRequest (.factor m)) (step { s with inputs := .factorAnswer fs :: rest }) := by
  obtain ⟨j, hj, hneeds, hport, hphi, hm, hpassed⟩ := hinv.running _ hrun
  obtain rfl : j = i := Except.ok.inj (hj.symm.trans hd)
  obtain ⟨hn, rd, hdest⟩ := destOf_of_usesFactorPort hport
  have hv := hneeds hn
  rw [step_answer_of_run rest hrun hd rfl,
    exec_generatorSearch_resumed (s := { s with inputs := .factorAnswer fs :: rest }) hport hdest hv hrun,
    exec_generatorSearch_ok (s := { s with es := .run none, inputs := .factorAnswer fs :: rest }) hport hdest hv
      (.inr rfl) (rootCheck_ok hpassed),
    beginFactor_of_waiting hrun hphi hm]
  exact congrArg Host.Outcome.next ((carriesEnd_withRequest s.ctx (.factor m)).awaitFactor
    (s := s.withInputs (.factorAnswer fs :: rest)) rfl fun t u _ _ => finishRoot_withRequest j rd _ t u)

/-- A prime search faults whatever its timeline, or is the search loop from one state on its timeline. -/
theorem primeSearch_withInputs (d : Direction) (rd : Reg) (start : Except FatalCode Start) (s : State) :
    (∃ code, ∀ l, primeSearch d rd start (s.withInputs l) = (s.withInputs l).fatal code) ∨
    ∃ s₀, ∀ l, primeSearch d rd start (s.withInputs l) = searchLoop d rd s₀ l := by
  unfold primeSearch
  simp only [show ∀ l, (s.withInputs l).es = s.es from fun _ => rfl]
  split
  · exact .inr ⟨s, fun l => searchLoop_inputs d rd s l l⟩
  · cases start with
    | error code => exact .inl ⟨code, fun _ => rfl⟩
    | ok st => exact .inr ⟨beginSearch s st, fun l => searchLoop_inputs d rd (beginSearch s st) l l⟩

/-- A generator search faults whatever its timeline, or waits from one state for the answer on its timeline. -/
theorem generatorSearch_withInputs (check : Except FatalCode Unit) (onRoot : State → SearchUnit → State) (s : State) :
    (∃ code, ∀ l, generatorSearch check onRoot (s.withInputs l) = (s.withInputs l).fatal code) ∨
    ∃ s₀ : State, s₀.ctx = s.ctx ∧
      ∀ l, generatorSearch check onRoot (s.withInputs l) = awaitFactor onRoot (s₀.withInputs l) := by
  unfold generatorSearch
  simp only [show ∀ l, (s.withInputs l).es = s.es from fun _ => rfl]
  split
  · exact .inr ⟨s, rfl, fun _ => rfl⟩
  · cases check with
    | error code => exact .inl ⟨code, fun _ => rfl⟩
    | ok _ => exact .inr ⟨beginFactor s, rfl, fun _ => rfl⟩

/-- A generator search that still waits has found no answer on its timeline. -/
theorem awaitFactor_waiting {i : Instr} {rd : Reg} {s : State} {r : Request}
    (h : (awaitFactor (finishRoot i rd) s).es = .run (some r)) : awaitFactor (finishRoot i rd) s = s := by
  by_cases hnone : factorAnswerNext s.inputs = false
  · exact awaitFactor_waits _ s hnone
  · obtain ⟨fs, rest, hin⟩ := exists_of_factorAnswerNext hnone
    cases hu : primitiveRoot s.ctx { s.search with fset := fs } with
    | error code =>
      rw [awaitFactor_error _ hin hu] at h
      cases h
    | ok u =>
      rw [awaitFactor_ok _ hin hu] at h
      cases h

/-- A command that has used up its timeline and waits goes on with more events as if they had been there. -/
theorem exec_append {i : Instr} {s t : State} {l more : List Event} {r : Request}
    (hexec : exec i (s.withInputs l) = .next t) (hrun : t.es = .run (some r)) (hin : t.inputs = []) :
    exec i (t.withInputs more) = exec i (s.withInputs (l ++ more)) := by
  cases form_of i with
  | ctxinit rs1 v =>
    cases outcome_of_exec hexec with
    | waits _ _ _ _ _ hu => simp [usesPrimePort, usesFactorPort] at hu
    | _ => cases hrun
  | arithmetic rd hn hf hd =>
    rw [exec_arithmetic hn hf hd, Host.Outcome.next.injEq] at hexec
    rw [← hexec] at hrun
    rcases State.withContext_cases (s.withInputs l) fun s => s.finish rd (arithmeticResult i s) with
      ⟨_, h⟩ | ⟨_, h⟩ <;> rw [h] at hrun <;> cases hrun
  | primeSearch d rd _ hi =>
    have hform (l : List Event) : exec i (s.withInputs l) = .next (primeSearch d rd (startOf i s) (s.withInputs l)) :=
      (exec_primeSearch hi _).trans (by rw [startOf_congr (s := s) (t := s.withInputs l) rfl])
    rw [hform, Host.Outcome.next.injEq] at hexec
    rw [hform, exec_resumed (s := t.withInputs more) hi hrun]
    rcases primeSearch_withInputs d rd (startOf i s) s with ⟨code, h⟩ | ⟨s₀, h⟩
    · rw [h] at hexec
      rw [← hexec] at hrun
      cases hrun
    · rw [h] at hexec
      rw [h, searchLoop_append d rd l more s₀ t r hexec hrun hin]
      exact congrArg _ (searchLoop_inputs d rd t more more)
  | generatorSearch rd hf hd =>
    have hform (l : List Event) : exec i (s.withInputs l) =
        .next ((s.withInputs l).withContext (generatorSearch (rootCheck i s) (finishRoot i rd))) :=
      (exec_generatorSearch hf hd _).trans (by rw [rootCheck_congr (s := s) (t := s.withInputs l) rfl]; rfl)
    rw [hform, Host.Outcome.next.injEq] at hexec
    rw [hform]
    rcases State.withContext_cases (s.withInputs l) (generatorSearch (rootCheck i s) (finishRoot i rd)) with
      ⟨hv, h⟩ | ⟨_, h⟩ <;> rw [h] at hexec
    · rw [State.withContext_valid (s.withInputs (l ++ more)) _ hv]
      rcases generatorSearch_withInputs (rootCheck i s) (finishRoot i rd) s with ⟨code, h⟩ | ⟨s₀, hctx, h⟩ <;>
        rw [h] at hexec
      · rw [← hexec] at hrun
        cases hrun
      · have hwait : t = s₀.withInputs l := hexec.symm.trans (awaitFactor_waiting (hexec ▸ hrun))
        have hv' : t.ctx.valid = true := by
          rw [hwait]
          exact hctx ▸ hv
        rw [h, exec_generatorSearch_resumed (s := t.withInputs more) hf hd hv' hrun, hwait]
        rw [hwait] at hin
        obtain rfl : l = [] := hin
        rfl
    · rw [← hexec] at hrun
      cases hrun

/-- Settles O60. -/
theorem lateAnswersResumeWhatWasBegun : Obligations.LateAnswersResumeWhatWasBegun := by
  refine ⟨fun s i m fs rest => exec_begun_eq_resumed, fun s t i l rest r e hd hexec hrun hin he => ?_⟩
  rw [step_answer_of_run rest hrun ((cmd_of_exec hexec).symm ▸ hd) he]
  exact exec_append hexec hrun hin

end Sys2Proof.Machine
end

section
/-! Generator searches under `OA2` (rules R180 to R186): the acceptance test as a statement modulo `Q`, the least
candidate that passes it, and what `FPR` and `FGEN` make of that candidate. -/

namespace Sys2Proof.Machine

/-! ### The acceptance test modulo `q` -/

/-- `g` passes the acceptance test of rule R180 modulo `q`. -/
def PassesRootTest (q g : Nat) : Prop := ∀ p : Nat, p.Prime → p ∣ q - 1 → (g : ZMod q) ^ ((q - 1) / p) ≠ 1

/-- The candidates of rule R180 that pass its test. -/
def rootCandidates (q : Nat) : Set Nat := {g | 2 ≤ g ∧ g < q ∧ PassesRootTest q g}

theorem natCast_pow_eq_one_iff {q : Nat} (hq : 2 ≤ q) (a k : Nat) : (a : ZMod q) ^ k = 1 ↔ a ^ k % q = 1 := by
  rw [← Nat.cast_pow, ← Nat.cast_one, ZMod.natCast_eq_natCast_iff', Nat.mod_eq_of_lt hq]

/-- No divisor of `q` is a unit modulo `q`, so it passes the test. -/
theorem passesRootTest_of_dvd {q g : Nat} (hq : 2 ≤ q) (hg : g ≠ 1) (hdvd : g ∣ q) : PassesRootTest q g := by
  intro p hp hpq hone
  have hpos : (q - 1) / p ≠ 0 := (Nat.div_pos (Nat.le_of_dvd (by omega) hpq) hp.pos).ne'
  have hcoprime : g.Coprime q := (ZMod.isUnit_iff_coprime g q).mp (.of_pow_eq_one hone hpos)
  exact hg (Nat.eq_one_of_dvd_coprimes hcoprime dvd_rfl hdvd)

/-- A candidate that passes always exists: a generator modulo a prime, else a proper divisor (rule R186). -/
theorem rootCandidates_nonempty {q : Nat} (hq : 3 ≤ q) : (rootCandidates q).Nonempty := by
  by_cases hprime : q.Prime
  · have : NeZero q := ⟨by omega⟩
    have : Fact (1 < q) := ⟨by omega⟩
    obtain ⟨a, hfermat, htest⟩ := reverse_lucas_primality q hprime
    have hcast : (a.val : ZMod q) = a := ZMod.natCast_zmod_val a
    have hzero : a.val ≠ 0 := by
      intro h
      rw [(ZMod.val_eq_zero a).mp h, zero_pow (by omega)] at hfermat
      exact zero_ne_one hfermat
    have hone : a.val ≠ 1 := by
      intro h
      have hp := Nat.minFac_prime (n := q - 1) (by omega)
      apply htest _ hp (Nat.minFac_dvd _)
      rw [← hcast, h, Nat.cast_one, one_pow]
    exact ⟨a.val, by omega, a.val_lt, fun p hp hpq => hcast.symm ▸ htest p hp hpq⟩
  · have hp := Nat.minFac_prime (n := q) (by omega)
    exact ⟨q.minFac, hp.two_le, (Nat.not_prime_iff_minFac_lt (by omega)).mp hprime,
      passesRootTest_of_dvd (by omega) hp.ne_one (Nat.minFac_dvd q)⟩

/-- Modulo a prime the test accepts exactly the primitive roots. -/
theorem passesRootTest_iff_orderOf {q g : Nat} (hq : q.Prime) (h0 : g ≠ 0) (hg : g < q) :
    PassesRootTest q g ↔ orderOf (g : ZMod q) = q - 1 := by
  have : Fact q.Prime := ⟨hq⟩
  have hpos : 0 < q - 1 := Nat.sub_pos_of_lt hq.one_lt
  have hne : (g : ZMod q) ≠ 0 := by
    rw [Ne, ZMod.natCast_eq_zero_iff]
    exact Nat.not_dvd_of_pos_of_lt (Nat.pos_of_ne_zero h0) hg
  refine ⟨orderOf_eq_of_pow_and_pow_div_prime hpos (ZMod.pow_card_sub_one_eq_one hne), fun horder p hp hpq => ?_⟩
  exact pow_ne_one_of_lt_orderOf (Nat.div_pos (Nat.le_of_dvd hpos hpq) hp.pos).ne'
    (horder.symm ▸ Nat.div_lt_self hpos hp.one_lt)

/-! ### The answer of an honest collaborator -/

/-- The primes of an honest answer to `m` are the prime divisors of `m`. -/
theorem FactorsOf.exists_mem_iff {m : Nat} {fs : FactorSet} (h : FactorsOf m fs) (hm : m ≠ 0) (p : Word) :
    (∃ e, (p, e) ∈ fs) ↔ p.toNat.Prime ∧ p.toNat ∣ m := by
  constructor
  · rintro ⟨e, he⟩
    obtain ⟨hp, hpos, hdvd, -⟩ := (h p e).mp he
    exact ⟨hp, (dvd_pow_self _ (by omega)).trans hdvd⟩
  · rintro ⟨hp, hdvd⟩
    exact ⟨m.factorization p.toNat, (h p _).mpr
      ⟨hp, hp.factorization_pos_of_dvd hm hdvd, Nat.ordProj_dvd m _, Nat.pow_succ_factorization_not_dvd hm hp⟩⟩

/-- An honest answer holds no zero prime. -/
theorem FactorsOf.any_zero {m : Nat} {fs : FactorSet} (h : FactorsOf m fs) : fs.any (fun pe => pe.1 = 0) = false := by
  rw [List.any_eq_false]
  rintro ⟨p, e⟩ hmem hzero
  obtain rfl : p = 0 := by simpa using hzero
  exact Nat.not_prime_zero ((h 0 e).mp hmem).1

/-- An honest answer is empty for 1 only. -/
theorem FactorsOf.isEmpty_iff {m : Nat} {fs : FactorSet} (h : FactorsOf m fs) (hm : m ≠ 0) (hlt : m < 2 ^ 64) :
    fs.isEmpty = true ↔ m = 1 := by
  rw [List.isEmpty_iff]
  constructor
  · intro hempty
    by_contra hone
    have hdvd := Nat.minFac_dvd m
    obtain ⟨p, hp⟩ := exists_word_toNat ((Nat.minFac_le (Nat.pos_of_ne_zero hm)).trans_lt hlt)
    obtain ⟨e, he⟩ := (h.exists_mem_iff hm p).mpr (hp ▸ ⟨Nat.minFac_prime hone, hdvd⟩)
    rw [hempty] at he
    cases he
  · rintro rfl
    refine List.eq_nil_iff_forall_not_mem.mpr fun (p, e) hmem => ?_
    obtain ⟨hp, hdvd⟩ := (h.exists_mem_iff one_ne_zero p).mp ⟨e, hmem⟩
    exact hp.ne_one (Nat.dvd_one.mp hdvd)

/-- What the search controller holds when an honest answer to `Q - 1` has come. -/
structure AnsweredFor (c : Context) (u : SearchUnit) : Prop where
  phi : u.phi.toNat = c.qNat - 1
  factors : FactorsOf (c.qNat - 1) u.fset

/-- The test run on the registers is the test modulo `Q`. -/
theorem accepts_iff {c : Context} {u : SearchUnit} (hc : c.usable) (hu : AnsweredFor c u)
    (hroot : u.root.toNat < c.qNat) :
    accepts c u = true ↔ PassesRootTest c.qNat u.root.toNat := by
  have htwo := hc.two_le
  have hlt := c.qNat_lt
  have htest (p : Word) : decide (powf c u.root (BitVec.ofNat 64 (u.phi.toNat / p.toNat)) ≠ some 1) = true ↔
      (u.root.toNat : ZMod c.qNat) ^ ((c.qNat - 1) / p.toNat) ≠ 1 := by
    have hdiv : (c.qNat - 1) / p.toNat ≤ c.qNat - 1 := Nat.div_le_self _ _
    have hexp : (BitVec.ofNat 64 ((c.qNat - 1) / p.toNat)).toNat = (c.qNat - 1) / p.toNat := by
      rw [BitVec.toNat_ofNat, Nat.mod_eq_of_lt (by omega)]
    rw [decide_eq_true_iff, Ne, Ne, powf_eq_some_iff hc hroot, hu.phi, hexp, natCast_pow_eq_one_iff htwo,
      eq_comm (b := _ % c.qNat)]
    rfl
  rw [accepts, all_prime_iff
    (test := fun p => decide (powf c u.root (BitVec.ofNat 64 (u.phi.toNat / p.toNat)) ≠ some 1))]
  simp only [htest, hu.factors.exists_mem_iff (m := c.qNat - 1) (by omega)]
  constructor
  · intro h p hp hdvd
    have hle := Nat.le_of_dvd (by omega) hdvd
    obtain ⟨w, rfl⟩ := exists_word_toNat (x := p) (by omega)
    exact h w ⟨hp, hdvd⟩
  · exact fun h p ⟨hp, hdvd⟩ => h p.toNat hp hdvd

/-! ### The candidate loop -/

/-- The candidate loop stops at the first candidate that is accepted, where there is one below `Q`. -/
theorem rootLoop_first {c : Context} {n : Nat} {u : SearchUnit} {r : Word} (hne : u.fset.isEmpty = false)
    (hle : u.root.toNat ≤ r.toNat) (hr : r.toNat < c.qNat) (hfuel : r.toNat < u.root.toNat + n)
    (hacc : accepts c { u with root := r } = true) :
    ∃ g : Word, rootLoop c n u = .ok { u with root := g } ∧ u.root.toNat ≤ g.toNat ∧ g.toNat < c.qNat ∧
      accepts c { u with root := g } = true ∧
      ∀ k : Word, u.root.toNat ≤ k.toNat → k.toNat < g.toNat → accepts c { u with root := k } = false := by
  induction n generalizing u with
  | zero => omega
  | succ n ih =>
    have hq := c.qNat_lt
    rw [rootLoop, hne, if_neg (by simp), if_neg (by omega)]
    by_cases hu : accepts c u = true
    · exact ⟨u.root, if_pos hu, le_rfl, by omega, hu, fun k h1 h2 => by omega⟩
    · have hrne : r.toNat ≠ u.root.toNat := by
        intro h
        obtain rfl : r = u.root := BitVec.eq_of_toNat_eq h
        exact hu hacc
      have hnext : (u.root + 1).toNat = u.root.toNat + 1 := by
        rw [BitVec.toNat_add, show (1 : Word).toNat = 1 from rfl, Nat.mod_eq_of_lt (by omega)]
      obtain ⟨g, hloop, hg, hgq, haccg, hfirst⟩ := ih (u := { u with root := u.root + 1 }) hne
        (hnext.trans_le (by omega)) (by rw [hnext]; omega) hacc
      rw [hnext] at hg hfirst
      refine ⟨g, (if_neg hu).trans hloop, by omega, hgq, haccg, fun k hk hkg => ?_⟩
      by_cases hku : k.toNat = u.root.toNat
      · rw [BitVec.eq_of_toNat_eq hku]
        exact Bool.eq_false_iff.mpr hu
      · exact hfirst k (by omega) hkg

/-- What the primitive-root function gives: 2 for `q = 2`, else the least candidate that passes. -/
def IsRootFound (q g : Nat) : Prop := q = 2 ∧ g = 2 ∨ 3 ≤ q ∧ IsLeast (rootCandidates q) g

/-- With an honest answer the primitive-root function ends for every modulus (rules R181, R185, R186). -/
theorem primitiveRoot_found {c : Context} {u : SearchUnit} (hc : c.usable) (hu : AnsweredFor c u) :
    ∃ g : Word, primitiveRoot c u = .ok { u with root := g } ∧ IsRootFound c.qNat g.toNat := by
  have htwo := hc.two_le
  have hlt := c.qNat_lt
  have hempty := hu.factors.isEmpty_iff (by omega) (by omega)
  rw [primitiveRoot, hu.factors.any_zero, if_neg (by simp)]
  by_cases hq : c.qNat = 2
  · refine ⟨2, ?_, .inl ⟨hq, rfl⟩⟩
    rw [rootLoop, if_pos (hempty.mpr (by omega))]
  · have haccepts {g : Word} (hg : g.toNat < c.qNat) :
        accepts c { u with root := g } = true ↔ PassesRootTest c.qNat g.toNat :=
      accepts_iff (u := { u with root := g }) hc ⟨hu.phi, hu.factors⟩ hg
    obtain ⟨k, hk2, hkq, hpass⟩ := rootCandidates_nonempty (q := c.qNat) (by omega)
    obtain ⟨r, rfl⟩ := exists_word_toNat (x := k) (by omega)
    obtain ⟨g, hloop, hg2, hgq, hacc, hfirst⟩ := rootLoop_first (c := c) (n := c.qNat + 1) (u := { u with root := 2 })
      (r := r) (Bool.eq_false_iff.mpr fun h => absurd (hempty.mp h) (by omega)) hk2 hkq (by omega)
      ((haccepts hkq).mpr hpass)
    refine ⟨g, hloop, .inr ⟨by omega, ⟨hg2, hgq, (haccepts hgq).mp hacc⟩, ?_⟩⟩
    rintro j ⟨hj2, hjq, hjpass⟩
    by_contra hjg
    obtain ⟨w, rfl⟩ := exists_word_toNat (x := j) (by omega)
    have hrejected := hfirst w hj2 (by omega)
    rw [(haccepts hjq).mpr hjpass] at hrejected
    cases hrejected

/-! ### The two commands -/

section
variable {s : State} {fs : FactorSet} {rest : List Event}

/-- The search controller is not shown to the host. -/
theorem SameShown.search {s t : State} (h : SameShown s t) (u : SearchUnit) : SameShown s (t.withSearch u) :=
  ⟨h.regs, h.ctx, h.cmd, h.done, h.ovr, h.cause, h.fcmd, h.reads⟩

/-- A generator search with an honest answer at hand completes with its result. -/
theorem generatorSearch_completes {i : Instr} {rd : Reg} {u : SearchUnit} (hf : usesFactorPort i = true)
    (hd : destOf i = some rd) (hcheck : rootCheck i s = .ok ()) (hb : s.begins) (hc : s.ctx.usable)
    (hin : s.inputs = .factorAnswer fs :: rest)
    (hroot : primitiveRoot s.ctx { (beginFactor s).search with fset := fs } = .ok u) :
    CompletesWith i s rd (((beginFactor s).withInputs rest).withSearch u |>.resolve
      (rootResult i (((beginFactor s).withInputs rest).withSearch u) u)) rest
      [.factor (BitVec.ofNat 64 (s.ctx.qNat - 1))] := by
  have hexec := exec_generatorSearch_ok hf hd hc.1 hb hcheck
  rw [awaitFactor_ok _ (s := beginFactor s) hin hroot] at hexec
  exact completesWith_of_finish hexec (((beginFactor_shown s).inputs rest).search u) rfl rfl

/-- `FPR` and `FGEN` with an honest answer complete, with one and the same root. -/
theorem generatorSearches_complete (rd rs1 : Reg) (hb : s.begins) (hc : s.ctx.usable)
    (hin : s.inputs = .factorAnswer fs :: rest) (hfs : FactorsOf (s.ctx.qNat - 1) fs) :
    ∃ g0 : Word, IsRootFound s.ctx.qNat g0.toNat ∧
      CompletesWith (.fpr rd) s rd g0 rest [.factor (BitVec.ofNat 64 (s.ctx.qNat - 1))] ∧
      (1 ≤ (s.x rs1).toNat → 2 * (s.x rs1).toNat < 2 ^ 64 →
        ∃ g, CompletesWith (.fgen rd rs1) s rd g rest [.factor (BitVec.ofNat 64 (s.ctx.qNat - 1))] ∧
          g.toNat = g0.toNat ^ ((s.ctx.qNat - 1) / (2 * (s.x rs1).toNat)) % s.ctx.qNat) := by
  have hphi : (beginFactor s).search.phi.toNat = s.ctx.qNat - 1 := toNat_ofNat_sub s.ctx 1
  obtain ⟨g0, hroot, hfound⟩ :=
    primitiveRoot_found (u := { (beginFactor s).search with fset := fs }) hc ⟨hphi, hfs⟩
  refine ⟨g0, hfound, generatorSearch_completes (i := .fpr rd) rfl rfl rfl hb hc hin hroot, fun hpos hfit =>
    ⟨_, generatorSearch_completes (i := .fgen rd rs1) rfl rfl (fgenCheck_ok hpos hfit) hb hc hin hroot, ?_⟩⟩
  set u : SearchUnit := { (beginFactor s).search with fset := fs, root := g0 }
  set t : State := ((beginFactor s).withInputs rest).withSearch u
  set k := (s.ctx.qNat - 1) / (2 * (s.x rs1).toNat)
  have hexp : rootResult (.fgen rd rs1) t u = powf t.ctx g0 (BitVec.ofNat 64 k) := by
    change powf t.ctx g0 (BitVec.ofNat 64 ((beginFactor s).search.phi.toNat / (2 * (s.x rs1).toNat))) = _
    rw [hphi]
  rw [hexp]
  rcases hfound with ⟨hq, -⟩ | ⟨-, ⟨-, hlt, -⟩, -⟩
  · have hk : k = 0 := Nat.div_eq_of_lt (by omega)
    rw [hk, hq, Nat.pow_zero]
    exact congrArg BitVec.toNat (congrArg t.resolve (powf_zero t.ctx g0))
  · have hle : k ≤ s.ctx.qNat - 1 := Nat.div_le_self _ _
    have hq := s.ctx.qNat_lt
    have hk : (BitVec.ofNat 64 k).toNat = k := by rw [BitVec.toNat_ofNat, Nat.mod_eq_of_lt (by omega)]
    exact (resolve_powf (s := t) hc hlt).trans (by rw [hk]; rfl)

end

/-- Settles O57. -/
theorem generatorSearchEndsForEveryModulus : Obligations.GeneratorSearchEndsForEveryModulus := by
  intro s rd rs1 fs rest hb hc hin hfs
  obtain ⟨g0, hfound, hfpr, hfgen⟩ := generatorSearches_complete rd rs1 hb hc hin hfs
  refine ⟨g0, hfpr, fun hq => ?_, hfgen⟩
  rcases hfound with ⟨-, hg⟩ | ⟨hthree, -⟩
  · exact BitVec.eq_of_toNat_eq hg
  · omega

/-- Modulo a prime from 3 on the root found is the smallest primitive root. -/
theorem IsRootFound.smallest {q g : Nat} (h : IsRootFound q g) (hq : q.Prime) (hthree : 3 ≤ q) :
    2 ≤ g ∧ g < q ∧ orderOf (g : ZMod q) = q - 1 ∧
      ∀ r : Nat, 2 ≤ r → r < g → orderOf (r : ZMod q) ≠ q - 1 := by
  rcases h with ⟨htwo, -⟩ | ⟨-, ⟨hg2, hgq, hpass⟩, hleast⟩
  · omega
  · refine ⟨hg2, hgq, (passesRootTest_iff_orderOf hq (by omega) hgq).mp hpass, fun r hr2 hrg horder => ?_⟩
    have hmem : r ∈ rootCandidates q :=
      ⟨hr2, hrg.trans hgq, (passesRootTest_iff_orderOf hq (by omega) (hrg.trans hgq)).mpr horder⟩
    exact absurd (hleast hmem) (by omega)

/-- Settles O56. -/
theorem fprFindsTheSmallestPrimitiveRoot : Obligations.FprFindsTheSmallestPrimitiveRoot := by
  intro s rd fs rest hb hc hprime hthree hin hfs
  obtain ⟨g, hfound, hfpr, -⟩ := generatorSearches_complete rd rd hb hc hin hfs
  exact ⟨g, hfpr, hfound.smallest hprime hthree⟩

/-- Half the order: the power is -1, that is `q - 1`. -/
theorem pow_half_order_mod {q g n : Nat} (hq : q.Prime) (hn : 1 ≤ n) (horder : orderOf (g : ZMod q) = 2 * n) :
    g ^ n % q = q - 1 := by
  have : Fact q.Prime := ⟨hq⟩
  have hsquare : ((g : ZMod q) ^ n) ^ 2 = 1 := by rw [← pow_mul, mul_comm, ← horder, pow_orderOf_eq_one]
  have hne : (g : ZMod q) ^ n ≠ 1 := pow_ne_one_of_lt_orderOf (by omega) (by omega)
  have hneg : ((g ^ n : Nat) : ZMod q) = ((q - 1 : Nat) : ZMod q) := by
    rw [Nat.cast_pow, (sq_eq_one_iff.mp hsquare).resolve_left hne, Nat.cast_pred hq.pos, CharP.cast_eq_zero, zero_sub]
  have hpos := hq.pos
  rw [(ZMod.natCast_eq_natCast_iff' _ _ _).mp hneg, Nat.mod_eq_of_lt (by omega)]

/-- Settles O58: a primitive root to the power `(Q - 1) / 2n` has order `2n`. -/
theorem fgenFindsARootOfUnity : Obligations.FgenFindsARootOfUnity := by
  intro s rd rs1 fs rest hb hc hprime hthree hin hfs hpos hdvd
  have hlt := s.ctx.qNat_lt
  have hle := Nat.le_of_dvd (by omega) hdvd
  obtain ⟨g0, hfound, -, hfgen⟩ := generatorSearches_complete rd rs1 hb hc hin hfs
  obtain ⟨g, hcompletes, hg⟩ := hfgen hpos (by omega)
  obtain ⟨-, -, hroot, -⟩ := hfound.smallest hprime hthree
  have horder : orderOf (g.toNat : ZMod s.ctx.qNat) = 2 * (s.x rs1).toNat := by
    rw [hg, ZMod.natCast_mod, Nat.cast_pow, ← hroot]
    exact orderOf_pow_orderOf_div (by omega) (hroot.symm ▸ hdvd)
  exact ⟨g, hcompletes, hg ▸ Nat.mod_lt _ (by omega), horder, pow_half_order_mod hprime hpos horder⟩

end Sys2Proof.Machine
end
